-- ==== Sys2Proof/Word.lean ====
section
/-! DEFINITION. The words of CPCU and the plain value types of its rules (R10, R11): port words, packed pixels,
colours, stream elements, rectangles and boxes over exact integers. -/

namespace Sys2Proof

/-- R10: a word is 32 bits; the command and response ports carry words (R57). -/
abbrev Word := BitVec 32

/-- One byte of the framebuffer (R39). -/
abbrev Byte := BitVec 8

/-- R11: `Packed`, an unsigned 16-bit value, one pixel of the framebuffer. -/
abbrev Pixel := BitVec 16

/-- R11, R83: a colour is a triple of 5, 6 and 5 bits; an out-of-range channel cannot be written down. -/
structure Color where
  r : BitVec 5
  g : BitVec 6
  b : BitVec 5
  deriving DecidableEq, Repr, Inhabited

/-- R69: one element of a DRAWPX stream, as its three packet words: `XY`, `XY`, `COLOR`. -/
structure Elem where
  x : Word
  y : Word
  c : Word
  deriving DecidableEq, Repr, Inhabited

/-- R11: a rectangle `(x0, y0, w, h)` over mathematical integers; it covers `x0 <= x < x0+w`, `y0 <= y < y0+h`. -/
structure Rect where
  x0 : Int
  y0 : Int
  w : Nat
  h : Nat
  deriving DecidableEq, Repr, Inhabited

/-- R24, R90: the half-open box `[x0, x1) x [y0, y1)` the clip unit computes. -/
structure Box where
  x0 : Int
  y0 : Int
  x1 : Int
  y1 : Int
  deriving DecidableEq, Repr, Inhabited

end Sys2Proof
end

