-- ==== Sys2Proof/Syntax.lean ====
section
/-! DEFINITION. The nine commands of CPCU (R61) with the operand words of their packets (R62 to R69). -/

namespace Sys2Proof

/-- One constructor per row of the opcode table. An operand is its packet word as it stands (R60); the `COLOR` and
`CLKM` words keep their reserved bits here, because checking them, word by word as they are taken, is part of the
command's meaning (R71, R74). The count words of DRAWPX and FILLA are the lengths of their streams. -/
inductive Instr where
  /-- `INIT freq, mode` (R65, R116): `CLKF` word, `CLKM` word. -/
  | init (clkFreq clkMode : Word)
  /-- `GETCFG` (R63, R80). -/
  | getcfg
  /-- `BBOX` (R63, R97). -/
  | bbox
  /-- `PACK c` (R64, R87): `COLOR` word. -/
  | pack (c : Word)
  /-- `ISECT (x0,y0,w,h)` (R66, R95): `XY`, `XY`, `SZ`, `SZ`. -/
  | isect (x0 y0 w h : Word)
  /-- `DRAWPX [(x,y) c, ...]` (R69, R100): `N` is the length. -/
  | drawpx (elems : List Elem)
  /-- `FILLA (x0,y0,w,h), [c, ...]` (R68, R102): `NCOL` is the length. -/
  | filla (x0 y0 w h : Word) (colors : List Word)
  /-- `FILLS (x0,y0,w,h), c` (R67, R106). -/
  | fills (x0 y0 w h c : Word)
  /-- `CLEAR c` (R64, R108): `COLOR` word. -/
  | clear (c : Word)
  deriving DecidableEq, Repr

end Sys2Proof
end

