-- ==== Sys2Proof/WellFormed.lean ====
section
/-! DEFINITION. Which commands have a packet: a stream's length must fit its 32-bit count word (R60 `CNT`, R68, R69). -/

namespace Sys2Proof

/-- R60: a `CNT` word holds `0 .. 2^32-1`. -/
def countFits (n : Nat) : Bool := decide (n < 2 ^ 32)

/-- A command a packet can carry. Every operand word of the other formats is any 32-bit word; a malformed `COLOR`
or `CLKM` word is a legal thing to send, and what it does is the command's meaning (R74). -/
def Instr.wellFormed : Instr → Bool
  | .init _ _ => true
  | .getcfg => true
  | .bbox => true
  | .pack _ => true
  | .isect _ _ _ _ => true
  | .drawpx elems => countFits elems.length
  | .filla _ _ _ _ colors => countFits colors.length
  | .fills _ _ _ _ _ => true
  | .clear _ => true

end Sys2Proof
end

