-- ==== Sys2Proof/Decode.lean ====
section
/-! DEFINITION. Headers, the opcode map, the decoder (R59, R61 to R71, R75, R76) and, after it, the encoder.
The decoder is total on every list of words and rejects by name. -/

namespace Sys2Proof

/-- The nine opcodes of R61. -/
inductive Opcode where
  | init | getcfg | bbox | pack | isect | drawpx | filla | fills | clear
  deriving DecidableEq, Repr

/-- R61: the opcode numbers. -/
def Opcode.code : Opcode → BitVec 8
  | .init => 0x01
  | .getcfg => 0x02
  | .bbox => 0x03
  | .pack => 0x04
  | .isect => 0x05
  | .drawpx => 0x10
  | .filla => 0x11
  | .fills => 0x12
  | .clear => 0x13

/-- The rows of the opcode map, in the order of R61. -/
def opcodeRows : List Opcode :=
  [.init, .getcfg, .bbox, .pack, .isect, .drawpx, .filla, .fills, .clear]

/-- R61, R75: the opcode with this number; all 247 other numbers are illegal. -/
def opcodeOf (b : BitVec 8) : Option Opcode := opcodeRows.find? (fun o => o.code == b)

/-- R59: header bits 31:24. -/
def opField (h : Word) : BitVec 8 := h.extractLsb' 24 8

/-- R59: header bits 23:0, reserved, must be 0. -/
def argField (h : Word) : BitVec 24 := h.extractLsb' 0 24

/-- R59, R61: a command's header word, `op << 24` with `arg = 0`. -/
def headerWord (o : Opcode) : Word := o.code ++ (0 : BitVec 24)

/-- R69: group stream words in threes, at most `n` groups; the words left over come back. -/
def splitElems : List Word → Nat → List Elem × List Word
  | x :: y :: c :: ws, n + 1 => (⟨x, y, c⟩ :: (splitElems ws n).1, (splitElems ws n).2)
  | ws, _ => ([], ws)

/-- What the head of a command stream holds. -/
inductive Decoded where
  /-- No word: CPCU waits for a header (R58). -/
  | noWord
  /-- R75: the header's `op` is none of the nine. -/
  | illegalOpcode (op : BitVec 8) (rest : List Word)
  /-- R76: a legal `op` with `arg` not 0. -/
  | reservedNonzero (o : Opcode) (rest : List Word)
  /-- A good header and the words so far of a packet that has not all arrived (R158). -/
  | incomplete (o : Opcode) (operands : List Word)
  /-- A whole packet, and the words after it. -/
  | instr (i : Instr) (rest : List Word)
  deriving DecidableEq, Repr

/-- R62 to R70: the operand words of each format, taken in packet order. -/
def decodeOperands (o : Opcode) (ws : List Word) : Decoded :=
  match o with
  | .init =>
    match ws with
    | f :: m :: rest => .instr (.init f m) rest
    | _ => .incomplete .init ws
  | .getcfg => .instr .getcfg ws
  | .bbox => .instr .bbox ws
  | .pack =>
    match ws with
    | c :: rest => .instr (.pack c) rest
    | _ => .incomplete .pack ws
  | .isect =>
    match ws with
    | x0 :: y0 :: w :: h :: rest => .instr (.isect x0 y0 w h) rest
    | _ => .incomplete .isect ws
  | .drawpx =>
    match ws with
    | n :: rest =>
      if (splitElems rest n.toNat).1.length = n.toNat then
        .instr (.drawpx (splitElems rest n.toNat).1) (splitElems rest n.toNat).2
      else .incomplete .drawpx ws
    | _ => .incomplete .drawpx ws
  | .filla =>
    match ws with
    | x0 :: y0 :: w :: h :: n :: rest =>
      if (rest.take n.toNat).length = n.toNat then
        .instr (.filla x0 y0 w h (rest.take n.toNat)) (rest.drop n.toNat)
      else .incomplete .filla ws
    | _ => .incomplete .filla ws
  | .fills =>
    match ws with
    | x0 :: y0 :: w :: h :: c :: rest => .instr (.fills x0 y0 w h c) rest
    | _ => .incomplete .fills ws
  | .clear =>
    match ws with
    | c :: rest => .instr (.clear c) rest
    | _ => .incomplete .clear ws

/-- R71 steps 1 to 3 and 5: read the packet at the head of the command stream. -/
def decode : List Word → Decoded
  | [] => .noWord
  | h :: ws =>
    match opcodeOf (opField h) with
    | none => .illegalOpcode (opField h) ws
    | some o => if argField h = 0 then decodeOperands o ws else .reservedNonzero o ws

/-- The opcode of a command (R61). -/
def Instr.opcode : Instr → Opcode
  | .init _ _ => .init
  | .getcfg => .getcfg
  | .bbox => .bbox
  | .pack _ => .pack
  | .isect _ _ _ _ => .isect
  | .drawpx _ => .drawpx
  | .filla _ _ _ _ _ => .filla
  | .fills _ _ _ _ _ => .fills
  | .clear _ => .clear

/-- R69: the words of a DRAWPX stream. -/
def elemWords (es : List Elem) : List Word := es.flatMap (fun e => [e.x, e.y, e.c])

/-- R60: a `CNT` word. -/
def countWord (n : Nat) : Word := BitVec.ofNat 32 n

/-- R63 to R69: the packet words after the header. -/
def Instr.operandWords : Instr → List Word
  | .init f m => [f, m]
  | .getcfg => []
  | .bbox => []
  | .pack c => [c]
  | .isect x0 y0 w h => [x0, y0, w, h]
  | .drawpx es => countWord es.length :: elemWords es
  | .filla x0 y0 w h cs => x0 :: y0 :: w :: h :: countWord cs.length :: cs
  | .fills x0 y0 w h c => [x0, y0, w, h, c]
  | .clear c => [c]

/-- R62: the packet of a command, word 0 the header. -/
def encode (i : Instr) : List Word := headerWord i.opcode :: i.operandWords

/-- R70: the number of words of a packet, by format. -/
def packetLength : Instr → Nat
  | .init _ _ => 3
  | .getcfg => 1
  | .bbox => 1
  | .pack _ => 2
  | .isect _ _ _ _ => 5
  | .drawpx es => 2 + 3 * es.length
  | .filla _ _ _ _ cs => 6 + cs.length
  | .fills _ _ _ _ _ => 6
  | .clear _ => 2

/-- The words of a table row's bits: word `k` is bits `32k+31 .. 32k`, every bit from `nbits` on is 0, and there are
at least as many words as the longest packet without stream elements has (six, R70). -/
def tableWords (nbits w : Nat) : List Word :=
  (List.range (max 6 ((nbits + 31) / 32))).map
    (fun k => BitVec.ofNat 32 (w % 2 ^ nbits / 2 ^ (32 * k)))

/-- What the decoder reads from an instruction whose bits are `w`. -/
def decodeTableWord (nbits w : Nat) : Option Instr :=
  match decode (tableWords nbits w) with
  | .instr i _ => some i
  | _ => none

/-- The words a table row's instruction occupies, no more; where the decoder refuses them, all of them. -/
def tablePacket (nbits w : Nat) : List Word :=
  match decode (tableWords nbits w) with
  | .instr _ rest => (tableWords nbits w).take ((tableWords nbits w).length - rest.length)
  | _ => tableWords nbits w

end Sys2Proof
end

