-- ==== Sys2Proof/Config.lean ====
section
/-! DEFINITION. The implementation parameters of R8 and R17, and the free values of the model: what the spec leaves
to the platform or calls unspecified, as constants with no body. -/

namespace Sys2Proof

/-- R17: DisplayConfig, 13 read-only fields in the order of the GETCFG response. -/
structure DisplayConfig where
  width : Word
  height : Word
  hBackPorch : Word
  hFrontPorch : Word
  vBackPorch : Word
  vFrontPorch : Word
  hSync : Word
  vSync : Word
  frameRate : Word
  hSyncPol : Bool
  vSyncPol : Bool
  dePol : Bool
  pclkPol : Bool
  deriving DecidableEq, Repr

/-- R8: the parameters of one implementation: `CFG`, `LAYER_ID`, `PIXFMT`, `FB_BASE`. -/
structure Params where
  cfg : DisplayConfig
  layerId : BitVec 8
  pixFmt : BitVec 8
  fbBase : Word
  deriving DecidableEq, Repr

/-- `W` of the rules, as a number. -/
def Params.W (p : Params) : Nat := p.cfg.width.toNat

/-- `H` of the rules, as a number. -/
def Params.H (p : Params) : Nat := p.cfg.height.toNat

/-- R9 (a), R17: every dimension, porch, sync width and the refresh rate is at least 1. -/
abbrev DisplayConfig.Positive (c : DisplayConfig) : Prop :=
  1 ≤ c.width.toNat ∧ 1 ≤ c.height.toNat ∧ 1 ≤ c.hBackPorch.toNat ∧ 1 ≤ c.hFrontPorch.toNat ∧
  1 ≤ c.vBackPorch.toNat ∧ 1 ≤ c.vFrontPorch.toNat ∧ 1 ≤ c.hSync.toNat ∧ 1 ≤ c.vSync.toNat ∧
  1 ≤ c.frameRate.toNat

/-- R9: the constraints on the parameters; (b), that nothing changes them, is a statement about `step`. -/
abbrev Params.Legal (p : Params) : Prop :=
  p.cfg.Positive ∧ p.W ≤ 2 ^ 31 - 1 ∧ p.H ≤ 2 ^ 31 - 1 ∧
  p.fbBase.toNat % 2 = 0 ∧ p.fbBase.toNat + 2 * (p.W * p.H) ≤ 2 ^ 32

namespace Config

/-! OPEN parameters (R8, N5, N6, N7, U9): the spec gives no value, so no proof can see one. -/

opaque openHBackPorch : Word
opaque openHFrontPorch : Word
opaque openVBackPorch : Word
opaque openVFrontPorch : Word
opaque openHSync : Word
opaque openVSync : Word
opaque openFrameRate : Word
opaque openHSyncPol : Bool
opaque openVSyncPol : Bool
opaque openDePol : Bool
opaque openPclkPol : Bool
opaque openFbBase : Nat

/-- R9 (a): an open value kept to the range the spec gives it, at least 1; it reaches every such value. -/
def positive (w : Word) : Word := if w = 0 then 1 else w

/-- R8: the default panel width. -/
def defaultWidth : Word := 480

/-- R8: the default panel height. -/
def defaultHeight : Word := 272

/-- R8, R9 (c): an open even base address such that the framebuffer of the default panel ends by `2^32`;
it reaches every such address. -/
def boardFbBase : Word :=
  BitVec.ofNat 32 (2 * (openFbBase % ((2 ^ 32 - 2 * (480 * 272)) / 2 + 1)))

/-- DESIGN CHOICE (log entry 7): the parameters at `State.reset`: the spec's defaults where R8 gives one
(480, 272, layer 0, format code 0), an open value everywhere else. -/
def board : Params where
  cfg :=
    { width := defaultWidth
      height := defaultHeight
      hBackPorch := positive openHBackPorch
      hFrontPorch := positive openHFrontPorch
      vBackPorch := positive openVBackPorch
      vFrontPorch := positive openVFrontPorch
      hSync := positive openHSync
      vSync := positive openVSync
      frameRate := positive openFrameRate
      hSyncPol := openHSyncPol
      vSyncPol := openVSyncPol
      dePol := openDePol
      pclkPol := openPclkPol }
  layerId := 0
  pixFmt := 0
  fbBase := boardFbBase

/-- Free value (R28, R33, R138, U1, U3): the framebuffer byte at an offset, in a given draw, that nothing known
has written. -/
opaque freeByte : Nat → Nat → Byte

/-- Free value (R34, U5): in a given draw, the contents of the working latch with a given number, cut to its
width where it is used. -/
opaque freeLatch : Nat → Nat → Nat

end Config

end Sys2Proof
end

