-- ==== Sys2Proof/Machine/State.lean ====
section
/-! DEFINITION. The whole state of the modelled system (R16): constants, CPCU's registers and latches, the controller
handle's contract state, the framebuffer, the streams and the history; the reasons a step can stop; and reset (R33). -/

namespace Sys2Proof.Machine

/-- R18: the lifecycle register. -/
inductive Phase where
  | unconstructed
  | ready
  deriving DecidableEq, Repr

/-- R29: the controller handle's contract state. -/
structure Ctl where
  inited : Bool
  bound : Bool
  enabled : Bool
  committed : Bool
  deriving DecidableEq, Repr

/-- R23, R24, R27: the operand latches, the clip registers and the scan cursor. They hold meaning only while a
command executes. -/
structure Latches where
  op : BitVec 8
  rx : Word
  ry : Word
  rw : Word
  rh : Word
  n : Word
  px : Word
  py : Word
  col : Color
  pix : Pixel
  clkf : Word
  clkm : BitVec 1
  ix0 : BitVec 34
  iy0 : BitVec 34
  ix1 : BitVec 34
  iy1 : BitVec 34
  k : BitVec 64
  deriving DecidableEq, Repr

/-- R121: one transaction on the controller port. -/
inductive Txn where
  | ctlInit (config : DisplayConfig) (clkFreq : Word) (clkBypass : BitVec 1)
  | configureLayer (layer : BitVec 8) (buffer : Word) (format : BitVec 8)
  | enableLayer (layer : BitVec 8)
  | reload
  | writePixel (layer : BitVec 8) (x y : Word) (data : Pixel)
  deriving DecidableEq, Repr

/-- The framebuffer's bytes by byte offset from `FB_BASE` (R28, R36 to R40; log entry 1): the offsets written since
the contents were last unspecified, strictly rising. An offset that is not listed holds no known value. -/
abbrev Memory := List Host.Cell

/-- Why the model stops. -/
inductive Fault where
  /-- R129: a transaction reached the controller handle although its precondition (R122 to R126) does not hold.
  Raised by `ctl`, for the drawing commands and INIT, only in states no run from reset reaches. Safe: the spec
  gives such a transaction no effect. -/
  | handleOrder
  deriving DecidableEq, Repr

/-- Why the model gives an instruction no meaning. -/
inductive Refusal where
  /-- An instruction of the table without a meaning yet, by mnemonic. Raised only in `exec`'s arms. Safe. -/
  | notModelled (mnemonic : String)
  deriving DecidableEq, Repr

/-- R16: the state of the modelled system. -/
structure State where
  /-- R18 `PHASE`. -/
  phase : Phase
  /-- R19 `FAULT`. -/
  fault : Bool
  /-- R19, R132 `FAULT_CODE`. -/
  faultCode : BitVec 4
  /-- R20 `BUSY`. -/
  busy : Bool
  /-- R21 `EMPTY`. -/
  empty : Bool
  /-- R31 `CMDQ`: words sent and not yet taken, the next one first. -/
  cmdq : List Word
  /-- R31 `RSPQ`: words emitted and not yet read, the oldest first. -/
  rspq : List Word
  /-- R15 (b): every response packet emitted since reset, the oldest first (log entry 17). -/
  resps : List (List Word)
  /-- R29 `CTL`. -/
  ctl : Ctl
  /-- R30 `HIST`: every transaction since reset, the oldest first. -/
  hist : List Txn
  /-- R28 `FB`. -/
  mem : Memory
  /-- R138: the model's record that an out-of-range pixel was written since reset. -/
  misuse : Bool
  /-- R71, R158: the command in progress has its fixed operands and is in its stream loop. -/
  streaming : Bool
  /-- R71, R158: words of the command in progress that are taken and not yet acted on. -/
  part : List Word
  /-- R23, R24, R27. -/
  latches : Latches
  /-- The model's own: draws of free latch contents made so far. -/
  draws : Nat
  /-- The model's own: the draw that framebuffer bytes of no known value come from. -/
  fbDraw : Nat
  /-- R16 (a), R17, R8: the constants. -/
  par : Params
  deriving DecidableEq, Repr

/-- DESIGN CHOICE (log entry 5): R33 leaves the latches unspecified at reset; at `State.reset` they hold zero. -/
def Latches.zero : Latches :=
  { op := 0, rx := 0, ry := 0, rw := 0, rh := 0, n := 0, px := 0, py := 0, col := ⟨0, 0, 0⟩, pix := 0,
    clkf := 0, clkm := 0, ix0 := 0, iy0 := 0, ix1 := 0, iy1 := 0, k := 0 }

/-- R33: the reset state of the implementation with the parameters `p`. -/
def State.resetOf (p : Params) : State :=
  { phase := .unconstructed, fault := false, faultCode := 0, busy := false, empty := false,
    cmdq := [], rspq := [], resps := [], ctl := ⟨false, false, false, false⟩, hist := [], mem := [], misuse := false,
    streaming := false, part := [], latches := Latches.zero, draws := 0, fbDraw := 0, par := p }

/-- R33: the machine right after reset, with the parameters of `Config.board`. -/
def State.reset : State := State.resetOf Config.board

end Sys2Proof.Machine
end

