-- ==== Sys2Proof/Machine/Operands.lean ====
section
/-! DEFINITION. The operand forms (R60, R74), the colour packer (R83 to R86) and the clip unit's calculators
(R89 to R94): functions of values, no state. -/

namespace Sys2Proof.Machine

/-- R12 `zext_32` of one bit. -/
def zextBit (b : Bool) : Word := if b then 1 else 0

/-- R60, R74: the bits of a `COLOR` word that must be 0. -/
def colorReserved : Word := 0xFFE0C0E0

/-- R60, R74: the bits of a `CLKM` word that must be 0. -/
def clkmReserved : Word := 0xFFFFFFFE

/-- R74: the colour of a `COLOR` word, none where a reserved bit is set. -/
def colorOf (cw : Word) : Option Color :=
  if cw &&& colorReserved = 0 then
    some ⟨cw.extractLsb' 16 5, cw.extractLsb' 8 6, cw.extractLsb' 0 5⟩
  else none

/-- R60, R77: the `COLOR` word of a colour, `(r << 16) | (g << 8) | b`. -/
def colorWord (c : Color) : Word :=
  (c.r.setWidth 32 <<< 16) ||| (c.g.setWidth 32 <<< 8) ||| c.b.setWidth 32

/-- R60, R74: the mode bit of a `CLKM` word, none where a reserved bit is set. -/
def clkmOf (m : Word) : Option (BitVec 1) :=
  if m &&& clkmReserved = 0 then some (m.extractLsb' 0 1) else none

/-- R84: `pack(r, g, b) = r ++ g ++ b`. -/
def pack (c : Color) : Pixel := c.r ++ c.g ++ c.b

/-- R85: `unpack(p) = (p[15:11], p[10:5], p[4:0])`. -/
def unpack (p : Pixel) : Color := ⟨p.extractLsb' 11 5, p.extractLsb' 5 6, p.extractLsb' 0 5⟩

/-- R11, R60: the rectangle four operand words stand for: `XY` words signed, `SZ` words unsigned. -/
def rectOf (x0 y0 w h : Word) : Rect := ⟨x0.toInt, y0.toInt, w.toNat, h.toNat⟩

/-- R90: the intersection of a rectangle with `[0, W) x [0, H)`, over exact integers. -/
def isect (p : Params) (r : Rect) : Box :=
  { x0 := max r.x0 0
    y0 := max r.y0 0
    x1 := min (r.x0 + r.w) p.W
    y1 := min (r.y0 + r.h) p.H }

/-- R90: `empty = (IX0 >= IX1) or (IY0 >= IY1)`. -/
def boxEmpty (b : Box) : Bool := decide (b.x1 ≤ b.x0) || decide (b.y1 ≤ b.y0)

/-- R92: `contains(I, (px, py))`. -/
def contains (b : Box) (pt : Int × Int) : Bool :=
  decide (b.x0 ≤ pt.1) && decide (pt.1 < b.x1) && decide (b.y0 ≤ pt.2) && decide (pt.2 < b.y1)

/-- R93: point number `k` of a rectangle in row-major order; used with `w >= 1` only. -/
def point (r : Rect) (k : Nat) : Int × Int :=
  (r.x0 + ((k % r.w : Nat) : Int), r.y0 + ((k / r.w : Nat) : Int))

/-- R111: the points of a box in row-major order. -/
def boxPoints (b : Box) : List (Int × Int) :=
  (List.range (b.y1 - b.y0).toNat).flatMap fun j : Nat =>
    (List.range (b.x1 - b.x0).toNat).map fun i : Nat => (b.x0 + (i : Int), b.y0 + (j : Int))

/-- R94 (d): the number of a point in the row-major order of the original rectangle. -/
def pointNumber (r : Rect) (pt : Int × Int) : Nat :=
  ((pt.2 - r.y0) * (r.w : Int) + (pt.1 - r.x0)).toNat

/-- R38, R126: `0 <= x < W` and `0 <= y < H` for the coordinate words of a pixel. -/
def inRange (p : Params) (x y : Word) : Bool :=
  decide (0 ≤ x.toInt) && decide (x.toInt < p.W) && decide (0 ≤ y.toInt) && decide (y.toInt < p.H)

/-- R38: `idx(x, y) = y * W + x`, meant for in-range coordinates only. -/
def pixelIndex (p : Params) (x y : Word) : Nat := y.toNat * p.W + x.toNat

/-- R39: the byte address of a pixel. -/
def pixelAddr (p : Params) (i : Nat) : Nat := p.fbBase.toNat + 2 * i

/-- R17, R73, R80: the 13 configuration words in field order. -/
def cfgWords (c : DisplayConfig) : List Word :=
  [c.width, c.height, c.hBackPorch, c.hFrontPorch, c.vBackPorch, c.vFrontPorch, c.hSync, c.vSync, c.frameRate,
   zextBit c.hSyncPol, zextBit c.vSyncPol, zextBit c.dePol, zextBit c.pclkPol]

/-- R73, R95, R96: the payload of ISECT: the empty bit and the intersection's origin and size, zeros if empty. -/
def isectPayload (b : Box) : List Word :=
  if boxEmpty b then [1, 0, 0, 0, 0]
  else
    [0, BitVec.ofInt 32 b.x0, BitVec.ofInt 32 b.y0, BitVec.ofInt 32 (b.x1 - b.x0), BitVec.ofInt 32 (b.y1 - b.y0)]

end Sys2Proof.Machine
end

