-- ==== Sys2Proof/Machine/Flags.lean ====
section
/-! DEFINITION. The flags and the status word (R18 to R22), the fault codes (R132) and the phase check (R61, R134). -/

namespace Sys2Proof.Machine

/-- R132: code 1. -/
def codeIllegalOpcode : BitVec 4 := 1

/-- R132: code 2. -/
def codeReservedNonzero : BitVec 4 := 2

/-- R132: code 3. -/
def codeProtocol : BitVec 4 := 3

/-- R22 bit 0: `PHASE = READY`. -/
def readyFlag (p : Phase) : Bool := p == .ready

/-- R61, R134: whether a command may run in a phase. -/
def phaseOk (o : Opcode) (p : Phase) : Bool :=
  match o with
  | .init => p == .unconstructed
  | .getcfg => true
  | .bbox => p == .ready
  | .pack => true
  | .isect => true
  | .drawpx => p == .ready
  | .filla => p == .ready
  | .fills => p == .ready
  | .clear => p == .ready

/-- R22: the status word: READY, BUSY, FAULT, EMPTY in bits 0 to 3, FAULT_CODE in bits 7:4, bits 31:8 zero. -/
def status (s : State) : Word :=
  (0 : BitVec 24) ++ s.faultCode ++ BitVec.ofBool s.empty ++ BitVec.ofBool s.fault ++
    BitVec.ofBool s.busy ++ BitVec.ofBool (readyFlag s.phase)

end Sys2Proof.Machine
end

