-- ==== Sys2Proof/Machine/Ops.lean ====
section
/-! DEFINITION. The named operations over the framebuffer and the registers: bytes and pixels (R38 to R44), latch
loads, taking a header, raising a fault (R131), answering (R72), and the frame every command runs in (R71). -/

namespace Sys2Proof.Machine

/-- What a meaning answers. -/
abbrev Out := Host.Outcome State Fault Refusal

/-- Sequence two parts of a meaning; a fault or a refusal ends it. -/
def andThen (o : Out) (f : State → Out) : Out :=
  match o with
  | .next s => f s
  | .fault r => .fault r
  | .refused r => .refused r

/-! ### Framebuffer bytes -/

/-- What an offset that is not listed reads as: no known value (R33; log entry 2). -/
def Memory.unlisted : Option Byte := none

/-- The known byte at an offset. -/
def Memory.read : Memory → Nat → Option Byte
  | [], _ => Memory.unlisted
  | (b, v) :: m, a => if a = b then some v else Memory.read m a

/-- Write one byte, keeping the offsets strictly rising. -/
def Memory.write (a : Nat) (v : Byte) : Memory → Memory
  | [] => [(a, v)]
  | (b, u) :: m =>
    if a < b then (a, v) :: (b, u) :: m
    else if a = b then (a, v) :: m
    else (b, u) :: Memory.write a v m

/-- The canonical form: offsets strictly rising. An entry never equals what an unlisted offset reads as, because
that is no value at all. -/
def Memory.wf : Memory → Bool
  | [] => true
  | [_] => true
  | (a, _) :: (b, v) :: m => decide (a < b) && Memory.wf ((b, v) :: m)

/-- R39, R40, R44: store the 16-bit value of pixel `i`, little-endian, at offsets `2i` and `2i+1`. -/
def Memory.writePixel (m : Memory) (i : Nat) (d : Pixel) : Memory :=
  Memory.write (2 * i + 1) (d.extractLsb' 8 8) (Memory.write (2 * i) (d.extractLsb' 0 8) m)

/-- The model's read of one framebuffer byte: the byte last written, or a free value (R28, R33, U3). -/
def State.readByte (s : State) (a : Nat) : Byte :=
  (Memory.read s.mem a).getD (Config.freeByte s.fbDraw a)

/-- R28, R40: `FB[i]`. -/
def State.readPixel (s : State) (i : Nat) : Pixel := s.readByte (2 * i + 1) ++ s.readByte (2 * i)

/-- R37: the number of pixels. -/
def pixelCount (p : Params) : Nat := p.W * p.H

/-- R39, R56: the byte at an address of the controller's address space; none outside the one region the spec fixes. -/
def State.busByte (s : State) (addr : Nat) : Option Byte :=
  if s.par.fbBase.toNat ≤ addr ∧ addr < s.par.fbBase.toNat + 2 * pixelCount s.par then
    some (s.readByte (addr - s.par.fbBase.toNat))
  else none

/-- R50: the scan-out engine's one step, `MemRead(addr(i), 2)`, possible at any time for any `i` in `0 .. W*H-1`; it
changes no state. -/
def scanRead (s : State) (i : Nat) : Option Pixel :=
  if i < pixelCount s.par then some (s.readPixel i) else none

/-! ### Writing the framebuffer -/

/-- R126, R138: what one WRITE_PIXEL does to the framebuffer. An in-range write updates exactly the addressed pixel,
whatever came before. An out-of-range write is recorded as misuse, and after it nothing is known of any byte: nothing
is listed, and what is not listed comes from a fresh draw of free values (log entry 3). -/
def fbWrite (x y : Word) (d : Pixel) (s : State) : State :=
  if inRange s.par x y = true then
    { s with mem := Memory.writePixel s.mem (pixelIndex s.par x y) d }
  else { s with misuse := true, mem := [], fbDraw := s.fbDraw + 1 }

/-! ### Latches -/

/-- R34, U5: unspecified latch contents, free values of one draw. -/
def freeLatches (d : Nat) : Latches :=
  { op := BitVec.ofNat 8 (Config.freeLatch d 0)
    rx := BitVec.ofNat 32 (Config.freeLatch d 1)
    ry := BitVec.ofNat 32 (Config.freeLatch d 2)
    rw := BitVec.ofNat 32 (Config.freeLatch d 3)
    rh := BitVec.ofNat 32 (Config.freeLatch d 4)
    n := BitVec.ofNat 32 (Config.freeLatch d 5)
    px := BitVec.ofNat 32 (Config.freeLatch d 6)
    py := BitVec.ofNat 32 (Config.freeLatch d 7)
    col := unpack (BitVec.ofNat 16 (Config.freeLatch d 8))
    pix := BitVec.ofNat 16 (Config.freeLatch d 9)
    clkf := BitVec.ofNat 32 (Config.freeLatch d 10)
    clkm := BitVec.ofNat 1 (Config.freeLatch d 11)
    ix0 := BitVec.ofNat 34 (Config.freeLatch d 12)
    iy0 := BitVec.ofNat 34 (Config.freeLatch d 13)
    ix1 := BitVec.ofNat 34 (Config.freeLatch d 14)
    iy1 := BitVec.ofNat 34 (Config.freeLatch d 15)
    k := BitVec.ofNat 64 (Config.freeLatch d 16) }

/-- R23: `RX, RY, RW, RH`. -/
def loadRect (x0 y0 w h : Word) (s : State) : State :=
  { s with latches := { s.latches with rx := x0, ry := y0, rw := w, rh := h } }

/-- R23: `N`, and R27: the scan cursor at 0. -/
def loadCount (n : Word) (s : State) : State :=
  { s with latches := { s.latches with n := n, k := 0 } }

/-- R27: the scan cursor moves on by one. -/
def advance (s : State) : State :=
  { s with latches := { s.latches with k := s.latches.k + 1 } }

/-- R23: `CLKF`. -/
def loadClkf (f : Word) (s : State) : State :=
  { s with latches := { s.latches with clkf := f } }

/-- R23: `CLKM`. -/
def loadClkm (m : BitVec 1) (s : State) : State :=
  { s with latches := { s.latches with clkm := m } }

/-- R23, R87: `COL` and the packer's output `PIX`. -/
def loadColor (c : Color) (s : State) : State :=
  { s with latches := { s.latches with col := c, pix := pack c } }

/-- R23, R99: `PX`, `PY`. -/
def loadPoint (x y : Word) (s : State) : State :=
  { s with latches := { s.latches with px := x, py := y } }

/-- The rectangle in the latches. -/
def latchedRect (l : Latches) : Rect := rectOf l.rx l.ry l.rw l.rh

/-- The intersection in the clip registers (R24). -/
def latchedBox (l : Latches) : Box := ⟨l.ix0.toInt, l.iy0.toInt, l.ix1.toInt, l.iy1.toInt⟩

/-- R24, R90, R95: the clip unit intersects the latched rectangle with the panel and writes `IX0 .. IY1` and `EMPTY`. -/
def clip (s : State) : State :=
  let b := isect s.par (latchedRect s.latches)
  { s with
    latches := { s.latches with
      ix0 := BitVec.ofInt 34 b.x0, iy0 := BitVec.ofInt 34 b.y0,
      ix1 := BitVec.ofInt 34 b.x1, iy1 := BitVec.ofInt 34 b.y1 }
    empty := boxEmpty b }

/-! ### Starting, faulting, answering -/

/-- R71 step 1: a header is taken: `BUSY <- 1`, `OP <- h[31:24]`; nothing of its packet is pending. -/
def takeHeader (op : BitVec 8) (s : State) : State :=
  { s with busy := true, streaming := false, part := [], latches := { s.latches with op := op } }

/-- Words that are not taken stand at the head of the command stream, in order (R31, R58). -/
def untake (ws : List Word) (s : State) : State := { s with cmdq := ws ++ s.cmdq }

/-- The words that stand in the command stream. -/
def setCmdq (ws : List Word) (s : State) : State := { s with cmdq := ws }

/-- R131: `raise Fault(code)`, with the words of the packet that were not taken. This is CPCU's one exception entry:
the code is recorded, BUSY falls, the command ends, and nothing else changes. -/
def raiseFault (code : BitVec 4) (untaken : List Word) (s : State) : State :=
  { s with
    fault := true, faultCode := code, busy := false, streaming := false, part := [],
    cmdq := untaken ++ s.cmdq }

/-- R72: the header of a response. -/
def responseHeader (o : Opcode) (len : Nat) : Word := o.code ++ BitVec.ofNat 24 len

/-- R72: a response packet. -/
def response (o : Opcode) (payload : List Word) : List Word := responseHeader o payload.length :: payload

/-- R71 step 7, R72, R34: the response is emitted, BUSY falls, the working latches are unspecified from here on. -/
def complete (o : Opcode) (payload : List Word) (s : State) : State :=
  { s with
    rspq := s.rspq ++ response o payload
    resps := s.resps ++ [response o payload]
    busy := false, streaming := false, part := []
    latches := freeLatches s.draws
    draws := s.draws + 1 }

/-- R71: the frame of every command, for a packet presented whole, ahead of the words in CMDQ. While a fault stands or
another command is in progress nothing of the packet is taken (R19, R20, R136). Otherwise the header is taken and the
phase checked (R134) before any operand word is. -/
def command (i : Instr) (body : State → Out) (s : State) : Out :=
  if s.fault = true ∨ s.busy = true then .next (untake (encode i) s)
  else if phaseOk i.opcode s.phase = true then body (takeHeader i.opcode.code s)
  else .next (raiseFault codeProtocol i.operandWords (takeHeader i.opcode.code s))

/-- R74, R23: take a `COLOR` word, which loads `COL` and so `PIX`; `untaken` are the packet's words after it. -/
def takeColor (cw : Word) (untaken : List Word) (use : Color → State → Out) (s : State) : Out :=
  match colorOf cw with
  | some c => use c (loadColor c s)
  | none => .next (raiseFault codeReservedNonzero untaken s)

end Sys2Proof.Machine
end

