-- ==== Sys2Proof/Machine/Clip.lean ====
section
/-! DEFINITION. The clip unit as commands: ISECT (R95, R96) and BBOX (R97). -/

namespace Sys2Proof.Machine

/-- R95: the rectangle is latched, clipped, and the clip registers answered. -/
def isectBody (x0 y0 w h : Word) (s : State) : Out :=
  let s := clip (loadRect x0 y0 w h s)
  .next (complete .isect (isectPayload (latchedBox s.latches)) s)

/-- ISECT (R95). -/
def execIsect (x0 y0 w h : Word) (s : State) : Out := command (.isect x0 y0 w h) (isectBody x0 y0 w h) s

/-- R97: the bounding box is answered; `EMPTY` is not touched. -/
def bboxBody (s : State) : Out := .next (complete .bbox [0, 0, s.par.cfg.width, s.par.cfg.height] s)

/-- BBOX (R97). -/
def execBbox (s : State) : Out := command .bbox bboxBody s

end Sys2Proof.Machine
end

