-- ==== Sys2Proof/Machine/Controller.lean ====
section
/-! DEFINITION. The controller handle as CPCU consumes it: the five transactions, their preconditions and their
effects (R121 to R129), and the replay of a history. -/

namespace Sys2Proof.Machine

/-- R121: the 3-bit kind code. -/
def Txn.kind : Txn → BitVec 3
  | .ctlInit _ _ _ => 0
  | .configureLayer _ _ _ => 1
  | .enableLayer _ => 2
  | .reload => 3
  | .writePixel _ _ _ _ => 4

/-- R29: `WRITE_PIXEL` is defined only when all four are 1. -/
def Ctl.session (c : Ctl) : Bool := c.inited && c.bound && c.enabled && c.committed

/-- R122 to R126: the precondition of a transaction. -/
def handleAccepts (t : Txn) (s : State) : Bool :=
  match t with
  | .ctlInit _ _ _ => !s.ctl.inited
  | .configureLayer _ _ _ => s.ctl.inited
  | .enableLayer _ => s.ctl.bound
  | .reload => s.ctl.enabled
  | .writePixel layer _ _ _ => s.ctl.session && layer == s.par.layerId

/-- R122 to R126: the effect of a transaction. -/
def handlePerforms (t : Txn) (s : State) : State :=
  match t with
  | .ctlInit _ _ _ => { s with ctl := { s.ctl with inited := true } }
  | .configureLayer _ _ _ => { s with ctl := { s.ctl with bound := true } }
  | .enableLayer _ => { s with ctl := { s.ctl with enabled := true } }
  | .reload => { s with ctl := { s.ctl with committed := true } }
  | .writePixel _ x y d => fbWrite x y d s

/-- R30: the transaction is entered in the history. -/
def record (t : Txn) (s : State) : State := { s with hist := s.hist ++ [t] }

/-- R12 `ctl(KIND, ...)`: emit one transaction; it completes before anything else happens (R47). Where its
precondition fails the model stops (R129). -/
def ctl (t : Txn) (s : State) : Out :=
  if handleAccepts t s = true then .next (handlePerforms t (record t s)) else .fault .handleOrder

/-- The misuse record and the framebuffer after one more transaction (R126, R138). -/
def replayFb (p : Params) (fb : Bool × Memory) (t : Txn) : Bool × Memory :=
  match t with
  | .writePixel _ x y d =>
    if inRange p x y = true then (fb.1, Memory.writePixel fb.2 (pixelIndex p x y) d)
    else (true, [])
  | _ => fb

/-- R15, R48, R52: what is known of the framebuffer after a list of transactions since reset. The scan-out engine,
reading inside a command, meets the replay of a prefix of the history. -/
def replayMem (p : Params) (h : List Txn) : Bool × Memory := h.foldl (replayFb p) (false, [])

/-- The controller handle's contract state after one more transaction. -/
def replayCtl (c : Ctl) (t : Txn) : Ctl :=
  match t with
  | .ctlInit _ _ _ => { c with inited := true }
  | .configureLayer _ _ _ => { c with bound := true }
  | .enableLayer _ => { c with enabled := true }
  | .reload => { c with committed := true }
  | .writePixel _ _ _ _ => c

/-- R138: whether a transaction is an out-of-range WRITE_PIXEL. -/
def stray (p : Params) (t : Txn) : Bool :=
  match t with
  | .writePixel _ x y _ => !inRange p x y
  | _ => false

/-- R50, R52: what the scan-out engine reads of pixel `i` between two transactions, when the first `n` of the history
have been performed: the known bytes of then, and the draw of free values of then, each out-of-range write since having
made a fresh one. -/
def scanReadAt (s : State) (n i : Nat) : Option Pixel :=
  scanRead { s with
    mem := (replayMem s.par (s.hist.take n)).2
    fbDraw := s.fbDraw - (s.hist.drop n).countP (stray s.par) } i

end Sys2Proof.Machine
end

