-- ==== Sys2Proof/Machine/Construct.lean ====
section
/-! DEFINITION. Construction: INIT (R115 to R119). -/

namespace Sys2Proof.Machine

/-- R116: the four construction transactions, in order. -/
def initTxns (p : Params) (clkFreq : Word) (clkBypass : BitVec 1) : List Txn :=
  [.ctlInit p.cfg clkFreq clkBypass, .configureLayer p.layerId p.fbBase p.pixFmt, .enableLayer p.layerId, .reload]

/-- Emit transactions one after another. -/
def ctlAll : List Txn → State → Out
  | [], s => .next s
  | t :: ts, s => andThen (ctl t s) (ctlAll ts)

/-- R116: `PHASE <- READY`. -/
def setReady (s : State) : State := { s with phase := .ready }

/-- R116, with the `CLKM` word's reserved bits checked before any transaction (R74). -/
def initBody (f m : Word) (s : State) : Out :=
  match clkmOf m with
  | none => .next (raiseFault codeReservedNonzero [] (loadClkf f s))
  | some b =>
    andThen (ctlAll (initTxns s.par f b) (loadClkm b (loadClkf f s)))
      (fun s => .next (complete .init [] (setReady s)))

/-- INIT (R116 to R119). -/
def execInit (f m : Word) (s : State) : Out := command (.init f m) (initBody f m) s

end Sys2Proof.Machine
end

