-- ==== Sys2Proof/Machine/Draw.lean ====
section
/-! DEFINITION. The drawing commands: DRAWPX, FILLA, FILLS, CLEAR (R99 to R114). -/

namespace Sys2Proof.Machine

/-- R99: the one way a pixel leaves CPCU; no bounds check. -/
def emit (x y : Word) (c : Color) (s : State) : Out :=
  ctl (.writePixel s.par.layerId x y (pack c)) (loadColor c (loadPoint x y s))

/-- R99 at a point of a fill, whose coordinates are those of a drawn point. -/
def emitAt (pt : Int × Int) (c : Color) (s : State) : Out :=
  emit (BitVec.ofInt 32 pt.1) (BitVec.ofInt 32 pt.2) c s

/-- The end of a stream whose words have all been presented (R71 steps 6 and 7): the response, unless a word of the
stream raised a fault. -/
def endStream (o : Opcode) (s : State) : Out := if s.fault = true then .next s else .next (complete o [] s)

/-- R100: the loop over the elements, in stream order; a malformed colour word ends it with the elements before it
written and the words after it untaken (R137). -/
def drawElems : List Elem → State → Out
  | [], s => .next s
  | e :: es, s =>
    takeColor e.c (elemWords es)
      (fun c s => andThen (emit e.x e.y c s) (fun s => drawElems es (advance s))) s

/-- R100: the count is latched, the elements follow, the response is empty. -/
def drawpxBody (es : List Elem) (s : State) : Out :=
  andThen (drawElems es (loadCount (countWord es.length) s)) (endStream .drawpx)

/-- DRAWPX (R100, R101). -/
def execDrawpx (es : List Elem) (s : State) : Out := command (.drawpx es) (drawpxBody es) s

/-- R102: one iteration of the area fill's loop: colour `K` meets point `K` of the original rectangle, and is drawn
if there is such a point and it lies in the intersection. -/
def fillaPoint (c : Color) (s : State) : Out :=
  let r := latchedRect s.latches
  let k := s.latches.k.toNat
  if s.empty = false ∧ k < r.w * r.h ∧ contains (latchedBox s.latches) (point r k) = true then
    emitAt (point r k) c s
  else .next s

/-- R102, R104: the loop over the colour words; every one is taken and checked. -/
def fillaColors : List Word → State → Out
  | [], s => .next s
  | cw :: cs, s =>
    takeColor cw cs (fun c s => andThen (fillaPoint c s) (fun s => fillaColors cs (advance s))) s

/-- R102: the fixed operands of FILLA: rectangle, count, intersection, `EMPTY`. -/
def fillaStart (x0 y0 w h n : Word) (s : State) : State := clip (loadCount n (loadRect x0 y0 w h s))

/-- R102. -/
def fillaBody (x0 y0 w h : Word) (cs : List Word) (s : State) : Out :=
  andThen (fillaColors cs (fillaStart x0 y0 w h (countWord cs.length) s)) (endStream .filla)

/-- FILLA (R102 to R105). -/
def execFilla (x0 y0 w h : Word) (cs : List Word) (s : State) : Out :=
  command (.filla x0 y0 w h cs) (fillaBody x0 y0 w h cs) s

/-- One colour at each of a list of points, in order. -/
def emitAll : List (Int × Int) → Color → State → Out
  | [], _, s => .next s
  | pt :: pts, c, s => andThen (emitAt pt c s) (emitAll pts c)

/-- R106, R108, R111: one colour at every point of the clip registers' box, in row-major order; none if empty. -/
def fillBox (c : Color) (s : State) : Out :=
  emitAll (if s.empty = true then [] else boxPoints (latchedBox s.latches)) c s

/-- R106: the rectangle is latched, the colour checked before any transaction, then the intersection is filled. -/
def fillsBody (x0 y0 w h cw : Word) (s : State) : Out :=
  takeColor cw [] (fun c s => andThen (fillBox c (clip s)) (fun s => .next (complete .fills [] s)))
    (loadRect x0 y0 w h s)

/-- FILLS (R106, R107). -/
def execFills (x0 y0 w h cw : Word) (s : State) : Out := command (.fills x0 y0 w h cw) (fillsBody x0 y0 w h cw) s

/-- R108: FILLS over the bounding box. -/
def clearBody (cw : Word) (s : State) : Out :=
  takeColor cw []
    (fun c s =>
      andThen (fillBox c (clip (loadRect 0 0 s.par.cfg.width s.par.cfg.height s)))
        (fun s => .next (complete .clear [] s))) s

/-- CLEAR (R108, R109). -/
def execClear (cw : Word) (s : State) : Out := command (.clear cw) (clearBody cw) s

end Sys2Proof.Machine
end

