-- ==== Sys2Proof/Machine/Packer.lean ====
section
/-! DEFINITION. The colour packer as a command: PACK (R87). -/

namespace Sys2Proof.Machine

/-- R87: `COL` and `PIX` are loaded, `PIX` is answered. -/
def packBody (c : Word) (s : State) : Out :=
  takeColor c [] (fun _ s => .next (complete .pack [s.latches.pix.setWidth 32] s)) s

/-- PACK (R87). -/
def execPack (c : Word) (s : State) : Out := command (.pack c) (packBody c) s

end Sys2Proof.Machine
end

