-- ==== Sys2Proof/Machine/Provider.lean ====
section
/-! DEFINITION. The geometry/config provider: GETCFG (R80 to R82). -/

namespace Sys2Proof.Machine

/-- R80: the response carries the 13 configuration fields; nothing else happens. -/
def getcfgBody (s : State) : Out := .next (complete .getcfg (cfgWords s.par.cfg) s)

/-- GETCFG (R80). -/
def execGetcfg (s : State) : Out := command .getcfg getcfgBody s

end Sys2Proof.Machine
end

