-- ==== Sys2Proof/Machine/Dispatch.lean ====
section
/-! DEFINITION. One arm per command (R61): each calls its meaning. -/

namespace Sys2Proof.Machine

/-- The meaning of a command whose packet is presented whole, ahead of the words in CMDQ. -/
def exec (i : Instr) (s : State) : Host.Outcome State Fault Refusal :=
  match i with
  | .init clkFreq clkMode => Sys2Proof.Machine.execInit clkFreq clkMode s
  | .getcfg => Sys2Proof.Machine.execGetcfg s
  | .bbox => Sys2Proof.Machine.execBbox s
  | .pack c => Sys2Proof.Machine.execPack c s
  | .isect x0 y0 w h => Sys2Proof.Machine.execIsect x0 y0 w h s
  | .drawpx elems => Sys2Proof.Machine.execDrawpx elems s
  | .filla x0 y0 w h colors => Sys2Proof.Machine.execFilla x0 y0 w h colors s
  | .fills x0 y0 w h c => Sys2Proof.Machine.execFills x0 y0 w h c s
  | .clear c => Sys2Proof.Machine.execClear c s

end Sys2Proof.Machine
end

