-- ==== Sys2Proof/Machine/Fetch.lean ====
section
/-! DEFINITION. How CPCU takes words from the command stream (R58, R71): a whole packet is executed, a bad header
faults, and a packet that has not all arrived is a hold (R158), entered and resumed here. -/

namespace Sys2Proof.Machine

/-- R71 step 5: the fixed operand words that have arrived load their latches, in packet order. -/
def loadArrived (o : Opcode) (ws : List Word) (s : State) : State :=
  let l := s.latches
  let rect :=
    { l with rx := ws.getD 0 l.rx, ry := ws.getD 1 l.ry, rw := ws.getD 2 l.rw, rh := ws.getD 3 l.rh }
  match o with
  | .init => { s with latches := { l with clkf := ws.getD 0 l.clkf } }
  | .isect => { s with latches := rect }
  | .filla => { s with latches := rect }
  | .fills => { s with latches := rect }
  | _ => s

/-- R158: the command stays in progress; every word that has arrived is taken. -/
def hold (streaming : Bool) (words : List Word) (s : State) : State :=
  { s with busy := true, streaming := streaming, part := words, cmdq := [] }

/-- The end of the stream words that have arrived: a fault ended the command, or all `N` elements are done and the
response follows (R71 step 7), or the command holds for more (R158). -/
def endOrHold (o : Opcode) (s : State) : Out :=
  if s.fault = true then .next s
  else if s.latches.k.toNat = s.latches.n.toNat then .next (complete o [] s)
  else .next (hold true s.cmdq s)

/-- The stream words of DRAWPX that have arrived (R100): as many whole elements as there are, up to `N`. -/
def streamDrawpx (ws : List Word) (s : State) : Out :=
  let e := splitElems ws (s.latches.n.toNat - s.latches.k.toNat)
  andThen (drawElems e.1 (setCmdq e.2 s)) (endOrHold .drawpx)

/-- The colour words of FILLA that have arrived (R102), up to `NCOL`. -/
def streamFilla (ws : List Word) (s : State) : Out :=
  let n := s.latches.n.toNat - s.latches.k.toNat
  andThen (fillaColors (ws.take n) (setCmdq (ws.drop n) s)) (endOrHold .filla)

/-- R71 for a packet that has not all arrived: the header is taken and the phase checked; a stream command whose
fixed operands are there starts its loop; otherwise the command holds. The state's CMDQ is empty here. -/
def startIncomplete (o : Opcode) (ws : List Word) (s : State) : Out :=
  let s := takeHeader o.code s
  if phaseOk o s.phase = true then
    match o, ws with
    | .drawpx, n :: ws => streamDrawpx ws (loadCount n s)
    | .filla, x0 :: y0 :: w :: h :: n :: ws => streamFilla ws (fillaStart x0 y0 w h n s)
    | o, ws => .next (hold false (headerWord o :: ws) (loadArrived o ws s))
  else .next (raiseFault codeProtocol ws s)

/-- R71: the next command, from its header on. -/
def fetchCommand (s : State) : Out :=
  match decode s.cmdq with
  | .noWord => .next s
  | .illegalOpcode op ws => .next (raiseFault codeIllegalOpcode ws (takeHeader op (setCmdq [] s)))
  | .reservedNonzero o ws => .next (raiseFault codeReservedNonzero ws (takeHeader o.code (setCmdq [] s)))
  | .incomplete o ws => startIncomplete o ws (setCmdq [] s)
  | .instr i rest => exec i (setCmdq rest s)

/-- The words of a command that holds, put back in front of those that have come since. -/
def giveBack (s : State) : State :=
  { s with busy := false, streaming := false, part := [], cmdq := s.part ++ s.cmdq }

/-- R158: a command that holds among its fixed operands has done nothing but take words; with more words there, it is
read again from its header. -/
def resumeOperands (s : State) : Out := fetchCommand (giveBack s)

/-- The words of an incomplete stream element leave `part` to be read with those that have come since. -/
def clearPart (s : State) : State := { s with part := [] }

/-- R158: a command that holds in its stream goes on with the element it holds at. -/
def resumeStream (s : State) : Out :=
  match opcodeOf s.latches.op with
  | some .drawpx => streamDrawpx (s.part ++ s.cmdq) (clearPart s)
  | some .filla => streamFilla (s.part ++ s.cmdq) (clearPart s)
  | _ => .next s

/-- One step of CPCU: nothing while a fault stands (R136); otherwise the command in progress goes on (R20), or the
next one is taken. With no word to take, CPCU waits (R58). -/
def cpcuStep (s : State) : Out :=
  if s.fault = true then .next s
  else if s.busy = true then (if s.streaming = true then resumeStream s else resumeOperands s)
  else fetchCommand s

/-- `s` with the words at the head of its command stream, and CPCU free to take them. -/
def withPacket (ws : List Word) (s : State) : State :=
  { s with cmdq := ws ++ s.cmdq, fault := false, faultCode := 0, busy := false, streaming := false, part := [] }

end Sys2Proof.Machine
end

