-- ==== Sys2Proof/Machine/Step.lean ====
section
/-! DEFINITION. The step of the machine, and placing an instruction where it fetches the next one. -/

namespace Sys2Proof.Machine

/-- One step of CPCU together with the controller handle (R14, R20, R47). -/
def step (s : State) : Host.Outcome State Fault Refusal := cpcuStep s

/-- `s` with the instruction whose bits are `w` at the head of the command stream, and CPCU free to take it. -/
def State.withFetchWord (s : State) (nbits w : Nat) : State := withPacket (tablePacket nbits w) s

end Sys2Proof.Machine
end

