-- ==== Sys2Proof/Machine/Port.lean ====
section
/-! DEFINITION. What the host can do between steps (R57, R146): send words, take response words, reset. STATUS is
`status` in Flags.lean. -/

namespace Sys2Proof.Machine

/-- R31, R58: the host sends words; they queue at the tail of CMDQ. -/
def hostSend (ws : List Word) (s : State) : State := { s with cmdq := s.cmdq ++ ws }

/-- R31: the host takes `n` words from the head of RSPQ. -/
def hostTake (n : Nat) (s : State) : State := { s with rspq := s.rspq.drop n }

/-- R33, R147 to R149: the reset event, at any time. The latches are unspecified after it and the framebuffer is
unspecified anew: both come from fresh draws (log entry 18). -/
def hostReset (s : State) : State :=
  { State.resetOf s.par with
    latches := freeLatches s.draws
    draws := s.draws + 1
    fbDraw := s.fbDraw + 1 }

end Sys2Proof.Machine
end

