-- ==== Sys2Proof/Safety.lean ====
section
/-! DEFINITION. The terms statements are made in: when CPCU can take a command, what a completed and a stopped command
leave, what is observable (R15), what the host owes (R146), and the invariants of the model. -/

namespace Sys2Proof.Machine

/-! ### Where a command can start, and how it ends -/

/-- R19, R20: no fault stands and no command is in progress, so CPCU takes the next header. -/
abbrev Idle (s : State) : Prop := s.fault = false ∧ s.busy = false

/-- R18, R29: construction has happened, here and at the controller handle. -/
abbrev Session (s : State) : Prop := s.phase = .ready ∧ s.ctl.session = true

/-- R72, R131: `t` is `s` after a command that completed with the response words `ws`: nothing is in progress, no
fault stands, and no word but the packet's own has left the command stream. -/
abbrev Answers (ws : List Word) (s t : State) : Prop :=
  t.rspq = s.rspq ++ ws ∧ t.resps = s.resps ++ [ws] ∧ t.busy = false ∧ t.streaming = false ∧ t.part = [] ∧
  t.fault = false ∧ t.faultCode = s.faultCode ∧ t.cmdq = s.cmdq ∧ t.par = s.par

/-- R131: `t` is `s` stopped by `raise Fault(code)` with the words `rest` left in CMDQ; no response, and the constants,
PHASE and the controller handle as they were. -/
abbrev Stops (code : BitVec 4) (rest : List Word) (s t : State) : Prop :=
  t.fault = true ∧ t.faultCode = code ∧ t.busy = false ∧ t.cmdq = rest ∧ t.rspq = s.rspq ∧
  t.resps = s.resps ∧ t.phase = s.phase ∧ t.ctl = s.ctl ∧ t.par = s.par

/-- Nothing outside CPCU has changed: no transaction, the controller handle and every byte of the framebuffer as
before. -/
abbrev SameWorld (s t : State) : Prop :=
  t.hist = s.hist ∧ t.ctl = s.ctl ∧ t.misuse = s.misuse ∧ t.mem = s.mem ∧ ∀ a, t.readByte a = s.readByte a

/-- R126: `t` is `s` after the transactions `ts`, in order: they are in the history, and what is known of the
framebuffer is what they make of what was known. -/
abbrev Performs (ts : List Txn) (s t : State) : Prop :=
  t.hist = s.hist ++ ts ∧ t.ctl = s.ctl ∧
  (t.misuse, t.mem) = ts.foldl (replayFb s.par) (s.misuse, s.mem)

/-- R99: the transaction of one pixel at a point of a fill. -/
def pixelAt (p : Params) (c : Color) (pt : Int × Int) : Txn :=
  .writePixel p.layerId (BitVec.ofInt 32 pt.1) (BitVec.ofInt 32 pt.2) (pack c)

/-- R69: a pixel of a DRAWPX stream, in a legal packet. -/
def elemOf (px : Word × Word × Color) : Elem := ⟨px.1, px.2.1, colorWord px.2.2⟩

/-- R100: the transaction of a pixel of a DRAWPX stream. -/
def pixelOf (p : Params) (px : Word × Word × Color) : Txn := .writePixel p.layerId px.1 px.2.1 (pack px.2.2)

/-- R102: the transactions of an area fill whose colours are `cs`: one per number `k < min(NCOL, w*h)` whose point
lies in the intersection, in increasing `k`. -/
def fillaTxns (p : Params) (r : Rect) (cs : List Color) : List Txn :=
  ((List.range (min cs.length (r.w * r.h))).filter
      (fun k => !boxEmpty (isect p r) && contains (isect p r) (point r k))).map
    (fun k => pixelAt p (cs.getD k default) (point r k))

/-- R106, R111: the transactions of a solid fill: one per point of the intersection, row-major. -/
def fillsTxns (p : Params) (r : Rect) (c : Color) : List Txn :=
  (if boxEmpty (isect p r) = true then [] else boxPoints (isect p r)).map (pixelAt p c)

/-- R89: the bounding box. -/
def panel (p : Params) : Rect := ⟨0, 0, p.W, p.H⟩

/-- R11: the point set of a rectangle. -/
abbrev Covers (r : Rect) (pt : Int × Int) : Prop :=
  r.x0 ≤ pt.1 ∧ pt.1 < r.x0 + r.w ∧ r.y0 ≤ pt.2 ∧ pt.2 < r.y0 + r.h

/-! ### Observation and contract -/

/-- R15: what is observable: the transactions, the response packets, STATUS; the first two since reset. -/
def observation (s : State) : List Txn × List (List Word) × Word := (s.hist, s.resps, status s)

/-- R34: two states that differ at most in what is unspecified between commands: the working latches (and the model's
count of free draws). -/
abbrev SameButLatches (s t : State) : Prop := { s with latches := t.latches, draws := t.draws } = t

/-- R146: what the host owes for a command: reserved bits 0, and raw pixels inside the panel. -/
def keepsContract (p : Params) : Instr → Bool
  | .init _ m => (clkmOf m).isSome
  | .getcfg => true
  | .bbox => true
  | .pack c => (colorOf c).isSome
  | .isect _ _ _ _ => true
  | .drawpx es => es.all (fun e => (colorOf e.c).isSome && inRange p e.x e.y)
  | .filla _ _ _ _ cs => cs.all (fun c => (colorOf c).isSome)
  | .fills _ _ _ _ c => (colorOf c).isSome
  | .clear c => (colorOf c).isSome

/-- R15, R138: a run so far without fault and without misuse. -/
abbrev Safe (s : State) : Prop := s.fault = false ∧ s.misuse = false

/-! ### Invariants -/

/-- R37, R39: the framebuffer's bytes are in canonical form, and no byte lies outside the `2*W*H` bytes there are. -/
abbrev FramebufferForm (s : State) : Prop :=
  Memory.wf s.mem = true ∧ ∀ cell ∈ s.mem, cell.1 < 2 * pixelCount s.par

/-- R28, R48, R138: what is known of the framebuffer is exactly what the transactions since reset have written. -/
abbrev FramebufferIsReplay (s : State) : Prop := (s.misuse, s.mem) = replayMem s.par s.hist

/-- R15, R31: the response words not yet taken are the last of those emitted since reset. -/
abbrev ResponsesForm (s : State) : Prop := ∃ k, s.rspq = s.resps.flatten.drop k

/-- R29: the controller handle's state is what the transactions since reset have made it. -/
abbrev HandleIsReplay (s : State) : Prop :=
  s.ctl = s.hist.foldl replayCtl ⟨false, false, false, false⟩

/-- R117: no transaction before construction; after it the four of INIT, then nothing but WRITE_PIXEL on the one layer. -/
abbrev HistoryForm (s : State) : Prop :=
  match s.phase with
  | .unconstructed => s.hist = []
  | .ready =>
    ∃ f b ts, s.hist = initTxns s.par f b ++ ts ∧ ∀ t ∈ ts, ∃ x y d, t = .writePixel s.par.layerId x y d

/-- R18, R29: the controller handle is fully constructed exactly when PHASE is READY, and untouched before. -/
abbrev HandleMatchesPhase (s : State) : Prop :=
  match s.phase with
  | .unconstructed => s.ctl = ⟨false, false, false, false⟩
  | .ready => s.ctl = ⟨true, true, true, true⟩

/-- R19, R131, R132: FAULT_CODE is 0 without a fault and one of the three codes with one, and a fault ends the command. -/
abbrev FaultForm (s : State) : Prop :=
  (s.fault = false → s.faultCode = 0) ∧
  (s.fault = true → s.busy = false ∧
    (s.faultCode = codeIllegalOpcode ∨ s.faultCode = codeReservedNonzero ∨ s.faultCode = codeProtocol))

/-- R20, R71, R158: nothing is pending without a command in progress, and a command that holds in its stream is DRAWPX
or FILLA, holds in READY, and has elements left to take. -/
abbrev HoldForm (s : State) : Prop :=
  (s.busy = false → s.streaming = false ∧ s.part = []) ∧
  (s.busy = true → s.streaming = true →
    s.phase = .ready ∧ s.latches.k.toNat < s.latches.n.toNat ∧
    (s.latches.op = Opcode.drawpx.code ∨ s.latches.op = Opcode.filla.code))

end Sys2Proof.Machine
end

