-- ==== Sys2Proof/Certificates/Slice0/Obligations.lean ====
section
/-! DEFINITION. What the provers are asked to prove of the model: encoding, faults, the calculators, every command's
result and frame, the invariants of a step, and the machine as a whole. -/

open Sys2Proof Sys2Proof.Machine

/-! ### Encoding -/

/-- R59, R61 to R70: every well-formed command is read back from its packet, with every operand word at every value, and
the words behind the packet are left as they are. -/
def Obligations.DecodeInvertsEncode : Prop :=
  ∀ (i : Instr) (rest : List Word), i.wellFormed = true → decode (encode i ++ rest) = .instr i rest

/-- R70, R71: a packet has one meaning: whatever the decoder reads as a command is that command's own packet, and the
command is well formed. -/
def Obligations.EncodeInvertsDecode : Prop :=
  ∀ (ws : List Word) (i : Instr) (rest : List Word),
    decode ws = .instr i rest → encode i ++ rest = ws ∧ i.wellFormed = true

/-- R77: packets written out from the spec, one of each format and more, read as the commands they stand for. -/
def Obligations.SpecPacketsDecode : Prop :=
  decode [0x01000000, 0x017D7840, 0x00000001] = .instr (.init 25000000 1) [] ∧
  decode [0x02000000, 0x03000000] = .instr .getcfg [0x03000000] ∧
  decode [0x03000000] = .instr .bbox [] ∧
  decode [0x04000000, 0x000A2107] = .instr (.pack 0x000A2107) [] ∧
  decode [0x05000000, 0x000001D6, 0x00000000, 0x00000014, 0x0000000A] = .instr (.isect 470 0 20 10) [] ∧
  decode [0x10000000, 0x00000001, 0x00000003, 0x00000001, 0x001F0000] =
    .instr (.drawpx [⟨3, 1, 0x001F0000⟩]) [] ∧
  decode [0x11000000, 0xFFFFFFFF, 0xFFFFFFFF, 0x00000003, 0x00000003, 0x00000002, 0x00010102, 0x00020303] =
    .instr (.filla (-1) (-1) 3 3 [0x00010102, 0x00020303]) [] ∧
  decode [0x12000000, 0x000001D6, 0x00000000, 0x00000014, 0x0000000A, 0x001F0000] =
    .instr (.fills 470 0 20 10 0x001F0000) [] ∧
  decode [0x13000000, 0x0000001F] = .instr (.clear 0x0000001F) []

/-! ### Steps, waiting, packets -/

/-- R26, R71: when the words at the head of the command stream decode to a command, the step is that command's meaning
on the state without its packet. The second clause is the model's choice (log entry 9): a command that holds among its
fixed operands (R158) keeps the words it has taken in the model's own field `part`, and goes on by being read again from
its header, although R58 says that a word is taken once; in the model `part` and CMDQ together are its words. -/
def Obligations.StepRunsDecodedPacket : Prop :=
  (∀ (s : State) (i : Instr) (rest : List Word),
    Idle s → decode s.cmdq = .instr i rest → step s = exec i { s with cmdq := rest }) ∧
  (∀ (s : State) (i : Instr) (rest : List Word),
    s.fault = false → s.busy = true → s.streaming = false → decode (s.part ++ s.cmdq) = .instr i rest →
      step s = exec i { s with busy := false, part := [], cmdq := rest })

/-- R58, R148: with no word to take CPCU waits; nothing changes. -/
def Obligations.WaitsForHeader : Prop :=
  ∀ s : State, Idle s → s.cmdq = [] → step s = .next s

/-- R19, R20, R136: while a fault stands or a command is in progress no header is taken. That a packet presented to
`exec` then stands whole at the head of CMDQ, with nothing else changed, is the model's choice (log entry 11). -/
def Obligations.PacketNotTakenUnlessIdle : Prop :=
  ∀ (i : Instr) (s : State), s.fault = true ∨ s.busy = true →
    exec i s = .next { s with cmdq := encode i ++ s.cmdq }

/-! ### Faults -/

/-- R75, R71 step 2, R132: a header whose `op` is none of the nine raises ILLEGAL_OPCODE, whatever its `arg` and the
phase: one word is taken, the rest stay, nothing else happens. The all-zero and the all-ones word are such headers;
both are legal operand words, and the all-zero word is a legal colour, black. -/
def Obligations.IllegalOpcodeStopsStep : Prop :=
  (∀ (s : State) (h : Word) (ws : List Word), Idle s → s.cmdq = h :: ws →
    h.extractLsb' 24 8 ∉ [0x01#8, 0x02#8, 0x03#8, 0x04#8, 0x05#8, 0x10#8, 0x11#8, 0x12#8, 0x13#8] →
    ∃ t, step s = .next t ∧ Stops 1 ws s t ∧ SameWorld s t ∧ t.empty = s.empty) ∧
  (0x00000000#32).extractLsb' 24 8 ∉ [0x01#8, 0x02#8, 0x03#8, 0x04#8, 0x05#8, 0x10#8, 0x11#8, 0x12#8, 0x13#8] ∧
  (0xFFFFFFFF#32).extractLsb' 24 8 ∉ [0x01#8, 0x02#8, 0x03#8, 0x04#8, 0x05#8, 0x10#8, 0x11#8, 0x12#8, 0x13#8] ∧
  decode [0x05000000, 0, 0xFFFFFFFF, 0, 0xFFFFFFFF] = .instr (.isect 0 0xFFFFFFFF 0 0xFFFFFFFF) [] ∧
  decode [0x11000000, 0xFFFFFFFF, 0, 0xFFFFFFFF, 0, 0] = .instr (.filla 0xFFFFFFFF 0 0xFFFFFFFF 0 []) [] ∧
  colorOf 0x00000000 = some ⟨0, 0, 0⟩

/-- R76, R71 step 3: a header with a legal `op` and a non-zero `arg` raises RESERVED_NONZERO in every phase, before any
operand word is taken. -/
def Obligations.ReservedHeaderStopsStep : Prop :=
  ∀ (s : State) (h : Word) (ws : List Word), Idle s → s.cmdq = h :: ws →
    h.extractLsb' 24 8 ∈ [0x01#8, 0x02#8, 0x03#8, 0x04#8, 0x05#8, 0x10#8, 0x11#8, 0x12#8, 0x13#8] →
    h.extractLsb' 0 24 ≠ 0 →
    ∃ t, step s = .next t ∧ Stops 2 ws s t ∧ SameWorld s t ∧ t.empty = s.empty

/-- R134: BBOX and the drawing commands in UNCONSTRUCTED, and INIT in READY, raise PROTOCOL on the header, whatever
stands behind it, with no operand word taken and no transaction; GETCFG, PACK and ISECT never raise it. -/
def Obligations.WrongPhaseStopsOnHeader : Prop :=
  (∀ (s : State) (h : Word) (ws : List Word), Idle s → s.cmdq = h :: ws →
    ((s.phase = .unconstructed ∧ h ∈ [0x03000000#32, 0x10000000#32, 0x11000000#32, 0x12000000#32, 0x13000000#32]) ∨
      (s.phase = .ready ∧ h = 0x01000000#32)) →
    ∃ t, step s = .next t ∧ Stops 3 ws s t ∧ SameWorld s t ∧ t.empty = s.empty) ∧
  (∀ (s : State) (h : Word) (ws : List Word), Idle s → s.cmdq = h :: ws →
    h ∈ [0x02000000#32, 0x04000000#32, 0x05000000#32] →
    ∃ t, step s = .next t ∧ (t.fault = true → t.faultCode ≠ 3))

/-- R135, R133: a wrong phase outranks a malformed operand: a command presented in the wrong phase raises PROTOCOL
whatever its operand words are, and every one of them stays untaken. -/
def Obligations.WrongPhaseOutranksOperands : Prop :=
  ∀ (i : Instr) (s : State), Idle s →
    ((s.phase = .unconstructed ∧ i.opcode ∈ [.bbox, .drawpx, .filla, .fills, .clear]) ∨
      (s.phase = .ready ∧ i.opcode = .init)) →
    ∃ t, exec i s = .next t ∧ Stops 3 (i.operandWords ++ s.cmdq) s t ∧ SameWorld s t ∧ t.empty = s.empty

/-- R74, R133: a malformed `COLOR` or `CLKM` word of PACK, FILLS, CLEAR or INIT raises RESERVED_NONZERO when it is taken,
before any transaction: the whole packet has been taken, no response is emitted, and nothing outside changes. -/
def Obligations.MalformedOperandStopsCommand : Prop :=
  (∀ (s : State) (cw : Word), Idle s → cw &&& 0xFFE0C0E0 ≠ 0 →
    ∃ t, exec (.pack cw) s = .next t ∧ Stops 2 s.cmdq s t ∧ SameWorld s t ∧ t.empty = s.empty) ∧
  (∀ (s : State) (x0 y0 w h cw : Word), Idle s → s.phase = .ready → cw &&& 0xFFE0C0E0 ≠ 0 →
    ∃ t, exec (.fills x0 y0 w h cw) s = .next t ∧ Stops 2 s.cmdq s t ∧ SameWorld s t ∧ t.empty = s.empty) ∧
  (∀ (s : State) (cw : Word), Idle s → s.phase = .ready → cw &&& 0xFFE0C0E0 ≠ 0 →
    ∃ t, exec (.clear cw) s = .next t ∧ Stops 2 s.cmdq s t ∧ SameWorld s t ∧ t.empty = s.empty) ∧
  (∀ (s : State) (f m : Word), Idle s → s.phase = .unconstructed → m &&& 0xFFFFFFFE ≠ 0 →
    ∃ t, exec (.init f m) s = .next t ∧ Stops 2 s.cmdq s t ∧ SameWorld s t ∧ t.empty = s.empty)

/-- R137: a malformed colour word in a stream stops the command at its element: everything due to the elements before it
has been emitted and performed, nothing due to it or later ones is, and the words after it stay untaken. -/
def Obligations.StreamFaultIsPrecise : Prop :=
  (∀ (s : State) (pxs : List (Word × Word × Color)) (bad : Elem) (es : List Elem),
    Idle s → Session s → bad.c &&& 0xFFE0C0E0 ≠ 0 →
    ∃ t, exec (.drawpx (pxs.map elemOf ++ bad :: es)) s = .next t ∧ Stops 2 (elemWords es ++ s.cmdq) s t ∧
      Performs (pxs.map (pixelOf s.par)) s t ∧ t.empty = s.empty) ∧
  (∀ (s : State) (x0 y0 w h : Word) (cs : List Color) (bad : Word) (ws : List Word),
    Idle s → Session s → bad &&& 0xFFE0C0E0 ≠ 0 → cs.length + 1 + ws.length < 2 ^ 32 →
    ∃ t, exec (.filla x0 y0 w h (cs.map colorWord ++ bad :: ws)) s = .next t ∧ Stops 2 (ws ++ s.cmdq) s t ∧
      Performs (fillaTxns s.par (rectOf x0 y0 w h) cs) s t ∧
      t.empty = boxEmpty (isect s.par (rectOf x0 y0 w h)))

/-- R131, R136: once a fault stands nothing changes any more: however many words the host sends and however many steps
are made, no word is taken, nothing is emitted, and FAULT, FAULT_CODE and every other piece of state stay; the reset
event clears FAULT and FAULT_CODE. -/
def Obligations.FaultIsTerminal : Prop :=
  ∀ (s : State) (ws : List Word) (n : Nat), s.fault = true →
    core.run n (hostSend ws s) = .next (hostSend ws s) ∧
    (hostReset s).fault = false ∧ (hostReset s).faultCode = 0

/-! ### Status and reset -/

/-- R22: the fields of STATUS: READY, BUSY, FAULT, EMPTY in bits 0 to 3, FAULT_CODE in bits 7:4, bits 31:8 zero; its value
at reset is 0, and it is the same function of the state in FAULT as elsewhere. -/
def Obligations.StatusWordLayout : Prop :=
  (∀ s : State,
    ((status s).getLsbD 0 = true ↔ s.phase = .ready) ∧ (status s).getLsbD 1 = s.busy ∧
    (status s).getLsbD 2 = s.fault ∧ (status s).getLsbD 3 = s.empty ∧
    (status s).extractLsb' 4 4 = s.faultCode ∧ (status s).extractLsb' 8 24 = 0) ∧
  status State.reset = 0x00000000

/-- R33, R147: what the reset event leaves, from any state: every value the spec gives, and no byte of the framebuffer has
a known value. That a byte with no known value is one the model does not list is the model's choice (log entries 1
and 2); so is the record of the response packets, which starts anew (log entry 17). -/
def Obligations.ResetEventState : Prop :=
  (∀ s : State,
    (hostReset s).par = s.par ∧ (hostReset s).phase = .unconstructed ∧ (hostReset s).fault = false ∧
    (hostReset s).faultCode = 0 ∧ (hostReset s).busy = false ∧ (hostReset s).empty = false ∧
    status (hostReset s) = 0x00000000 ∧ (hostReset s).cmdq = [] ∧ (hostReset s).rspq = [] ∧
    (hostReset s).resps = [] ∧ (hostReset s).ctl = ⟨false, false, false, false⟩ ∧ (hostReset s).hist = [] ∧
    ∀ a, Memory.read (hostReset s).mem a = none) ∧
  State.reset.phase = .unconstructed ∧ State.reset.fault = false ∧ State.reset.faultCode = 0 ∧
  State.reset.busy = false ∧ State.reset.empty = false ∧ State.reset.cmdq = [] ∧ State.reset.rspq = [] ∧
  State.reset.resps = [] ∧ State.reset.ctl = ⟨false, false, false, false⟩ ∧ State.reset.hist = [] ∧
  ∀ a, Memory.read State.reset.mem a = none

/-! ### The colour packer -/

/-- R84: `pack(r, g, b) = r ++ g ++ b = (r << 11) | (g << 5) | b`, the fields where the spec puts them, the value in
`0 .. 0xFFFF`, and the three worked values of the source. -/
def Obligations.PackLayout : Prop :=
  (∀ c : Color,
    (pack c).extractLsb' 11 5 = c.r ∧ (pack c).extractLsb' 5 6 = c.g ∧ (pack c).extractLsb' 0 5 = c.b ∧
    pack c = (c.r.setWidth 16 <<< 11) ||| (c.g.setWidth 16 <<< 5) ||| c.b.setWidth 16 ∧
    (pack c).toNat = c.r.toNat * 2048 + c.g.toNat * 32 + c.b.toNat ∧ (pack c).toNat ≤ 0xFFFF) ∧
  pack ⟨31, 0, 0⟩ = 0xF800 ∧ pack ⟨0, 63, 0⟩ = 0x07E0 ∧ pack ⟨0, 0, 31⟩ = 0x001F

/-- R86: the laws of the packer: lossless both ways, a bijection, monotone in each channel, its extremes, and its form
in terms of the `COLOR` word.
R86 (b) to (d) are the spec's own inferences from R84, R85 and R60. -/
def Obligations.PackLaws : Prop :=
  (∀ c : Color, unpack (pack c) = c) ∧
  (∀ p : Pixel, pack (unpack p) = p) ∧
  (∀ c d : Color, pack c = pack d → c = d) ∧
  (∀ c d : Color, c.r.toNat ≤ d.r.toNat → c.g.toNat ≤ d.g.toNat → c.b.toNat ≤ d.b.toNat →
    (pack c).toNat ≤ (pack d).toNat) ∧
  pack ⟨0, 0, 0⟩ = 0x0000 ∧ pack ⟨31, 63, 31⟩ = 0xFFFF ∧
  (∀ (cw : Word) (c : Color), colorOf cw = some c →
    pack c = ((cw.extractLsb' 16 5).setWidth 16 <<< 11) ||| ((cw.extractLsb' 8 6).setWidth 16 <<< 5) |||
      (cw.extractLsb' 0 5).setWidth 16)

/-- R60, R74: a `COLOR` word is refused exactly when a bit of `0xFFE0C0E0` is set; otherwise it is the word of one colour,
whose channels are bits 20:16, 13:8 and 4:0; and every colour has its word. -/
def Obligations.ColorWordCheck : Prop :=
  (∀ cw : Word, colorOf cw = none ↔ cw &&& 0xFFE0C0E0 ≠ 0) ∧
  (∀ (cw : Word) (c : Color), colorOf cw = some c ↔
    cw = (c.r.setWidth 32 <<< 16) ||| (c.g.setWidth 32 <<< 8) ||| c.b.setWidth 32) ∧
  (∀ (cw : Word) (c : Color), colorOf cw = some c →
    c.r = cw.extractLsb' 16 5 ∧ c.g = cw.extractLsb' 8 6 ∧ c.b = cw.extractLsb' 0 5)

/-- R87, R74: PACK answers the packed colour, in any phase; nothing outside changes, nor EMPTY nor PHASE. -/
def Obligations.PackCompletes : Prop :=
  ∀ (s : State) (c : Color), Idle s →
    ∃ t, exec (.pack (colorWord c)) s = .next t ∧
      Answers [0x04000001, (pack c).setWidth 32] s t ∧ SameWorld s t ∧ t.empty = s.empty ∧ t.phase = s.phase

/-! ### The configuration -/

/-- R80, R73: GETCFG answers the 13 fields in order, in any phase, the same every time; nothing else changes. -/
def Obligations.GetcfgCompletes : Prop :=
  ∀ s : State, Idle s →
    ∃ t, exec .getcfg s = .next t ∧
      Answers [0x0200000D, s.par.cfg.width, s.par.cfg.height, s.par.cfg.hBackPorch, s.par.cfg.hFrontPorch,
        s.par.cfg.vBackPorch, s.par.cfg.vFrontPorch, s.par.cfg.hSync, s.par.cfg.vSync, s.par.cfg.frameRate,
        (BitVec.ofBool s.par.cfg.hSyncPol).setWidth 32, (BitVec.ofBool s.par.cfg.vSyncPol).setWidth 32,
        (BitVec.ofBool s.par.cfg.dePol).setWidth 32, (BitVec.ofBool s.par.cfg.pclkPol).setWidth 32] s t ∧
      SameWorld s t ∧ t.empty = s.empty ∧ t.phase = s.phase

/-- R9 (b), R17: no step, no command and no reset changes a parameter. -/
def Obligations.ParametersNeverChange : Prop :=
  (∀ s t : State, step s = .next t → t.par = s.par) ∧
  (∀ (i : Instr) (s t : State), exec i s = .next t → t.par = s.par) ∧
  (∀ s : State, (hostReset s).par = s.par)

/-! ### The clip unit -/

/-- R90, R92, R94 (a): the intersection holds exactly the points of the rectangle that lie in the panel, and it is empty
exactly when there is none. -/
def Obligations.IsectIsIntersection : Prop :=
  ∀ (p : Params) (r : Rect),
    (∀ x y : Int, contains (isect p r) (x, y) = true ↔
      Covers r (x, y) ∧ 0 ≤ x ∧ x < p.cfg.width.toNat ∧ 0 ≤ y ∧ y < p.cfg.height.toNat) ∧
    (boxEmpty (isect p r) = true ↔ ∀ x y : Int, contains (isect p r) (x, y) = false)

/-- R91: (a) subset, (b) a zero side is empty, (c) a rectangle beside the panel is empty, (d) a rectangle inside it is
unchanged, (e) the panel itself, never empty, (f) saturating the sums changes nothing.
R91 is the spec's own inference from R90. -/
def Obligations.IsectProperties : Prop :=
  ∀ (p : Params) (r : Rect), 1 ≤ p.W → 1 ≤ p.H →
    (∀ pt, contains (isect p r) pt = true → Covers r pt ∧ Covers (panel p) pt) ∧
    (r.w = 0 ∨ r.h = 0 → boxEmpty (isect p r) = true) ∧
    ((p.W : Int) ≤ r.x0 ∨ (p.H : Int) ≤ r.y0 ∨ r.x0 + r.w ≤ 0 ∨ r.y0 + r.h ≤ 0 → boxEmpty (isect p r) = true) ∧
    (0 ≤ r.x0 → r.x0 + r.w ≤ p.W → 0 ≤ r.y0 → r.y0 + r.h ≤ p.H → 1 ≤ r.w → 1 ≤ r.h →
      isect p r = ⟨r.x0, r.y0, r.x0 + r.w, r.y0 + r.h⟩ ∧ boxEmpty (isect p r) = false) ∧
    (isect p (panel p) = ⟨0, 0, p.W, p.H⟩ ∧ boxEmpty (isect p (panel p)) = false) ∧
    (∀ sat : Int → Int,
      (∀ v : Int, v ≤ (p.W : Int) → sat v = v) → (∀ v : Int, ¬ v ≤ (p.W : Int) → (p.W : Int) ≤ sat v) →
      min (sat (r.x0 + r.w)) p.W = (isect p r).x1) ∧
    (∀ sat : Int → Int,
      (∀ v : Int, v ≤ (p.H : Int) → sat v = v) → (∀ v : Int, ¬ v ≤ (p.H : Int) → (p.H : Int) ≤ sat v) →
      min (sat (r.y0 + r.h)) p.H = (isect p r).y1)

/-- R93, R94: the points of a rectangle are numbered row by row, `point(R, j*w + i) = (x0+i, y0+j)`; (a) a point passes
the filter exactly when it lies in the panel; (b) as many pass as the intersection has points, at most `W*H`; (c) those
that pass come in the intersection's own row-major order; (d) the number of a point is `(py-y0)*w + (px-x0)`.
R94 is the spec's own inference from R90, R92 and R93. -/
def Obligations.RowMajorPoints : Prop :=
  ∀ (p : Params) (r : Rect),
    (∀ i j : Nat, i < r.w → j < r.h →
      j * r.w + i < r.w * r.h ∧ point r (j * r.w + i) = (r.x0 + (i : Int), r.y0 + (j : Int))) ∧
    (∀ k, k < r.w * r.h →
      (contains (isect p r) (point r k) = true ↔
        0 ≤ (point r k).1 ∧ (point r k).1 < p.W ∧ 0 ≤ (point r k).2 ∧ (point r k).2 < p.H)) ∧
    (boxEmpty (isect p r) = false →
      ((((List.range (r.w * r.h)).map (point r)).filter (contains (isect p r))).length : Int) =
        ((isect p r).x1 - (isect p r).x0) * ((isect p r).y1 - (isect p r).y0)) ∧
    (((List.range (r.w * r.h)).map (point r)).filter (contains (isect p r))).length ≤ p.W * p.H ∧
    (boxEmpty (isect p r) = false →
      ((List.range (r.w * r.h)).map (point r)).filter (contains (isect p r)) = boxPoints (isect p r)) ∧
    (∀ k, k < r.w * r.h →
      ((point r k).2 - r.y0) * (r.w : Int) + ((point r k).1 - r.x0) = (k : Int))

/-- R24, R90, R98: the 34-bit clip registers hold the intersection of the latched rectangle exactly: nothing wraps.
R98 is the spec's own inference from R90 to R94. -/
def Obligations.ClipRegistersAreExact : Prop :=
  ∀ s : State,
    latchedBox (clip s).latches = isect s.par (latchedRect s.latches) ∧
    (clip s).empty = boxEmpty (isect s.par (latchedRect s.latches))

/-- R90, R95, R96: ISECT answers the empty bit and the intersection's origin and size, zeros when it is empty, and writes
EMPTY, in any phase; nothing outside changes. -/
def Obligations.IsectCompletes : Prop :=
  ∀ (s : State) (x0 y0 w h : Word), Idle s →
    ∃ t, exec (.isect x0 y0 w h) s = .next t ∧ SameWorld s t ∧ t.phase = s.phase ∧
      let ix0 : Int := max x0.toInt 0
      let iy0 : Int := max y0.toInt 0
      let ix1 : Int := min (x0.toInt + w.toNat) s.par.cfg.width.toNat
      let iy1 : Int := min (y0.toInt + h.toNat) s.par.cfg.height.toNat
      if ix1 ≤ ix0 ∨ iy1 ≤ iy0 then
        t.empty = true ∧ Answers [0x05000005, 1, 0, 0, 0, 0] s t
      else
        t.empty = false ∧
        Answers [0x05000005, 0, BitVec.ofInt 32 ix0, BitVec.ofInt 32 iy0, BitVec.ofInt 32 (ix1 - ix0),
          BitVec.ofInt 32 (iy1 - iy0)] s t

/-- R89, R97: BBOX answers `0, 0, W, H` in READY; nothing else changes, EMPTY included. -/
def Obligations.BboxCompletes : Prop :=
  ∀ s : State, Idle s → s.phase = .ready →
    ∃ t, exec .bbox s = .next t ∧
      Answers [0x03000004, 0, 0, s.par.cfg.width, s.par.cfg.height] s t ∧ SameWorld s t ∧
      t.empty = s.empty ∧ t.phase = s.phase

/-! ### DRAWPX -/

/-- R99, R100, R101 (a) to (c): DRAWPX emits one WRITE_PIXEL per element, in stream order, each with the element's own
coordinate words, and answers without payload; EMPTY, PHASE and the controller handle stay. -/
def Obligations.DrawpxCompletes : Prop :=
  ∀ (s : State) (pxs : List (Word × Word × Color)), Idle s → Session s → pxs.length < 2 ^ 32 →
    ∃ t, exec (.drawpx (pxs.map elemOf)) s = .next t ∧ Answers [0x10000000] s t ∧
      t.hist = s.hist ++ pxs.map (fun q => Txn.writePixel s.par.layerId q.1 q.2.1 (pack q.2.2)) ∧
      (t.misuse, t.mem) =
        (pxs.map (fun q => Txn.writePixel s.par.layerId q.1 q.2.1 (pack q.2.2))).foldl (replayFb s.par)
          (s.misuse, s.mem) ∧
      t.empty = s.empty ∧ t.phase = s.phase ∧ t.ctl = s.ctl

/-- R100, R101 (b), R48, and the frame of DRAWPX: with every coordinate in range, each pixel holds the colour of the last
element at its coordinate, every other pixel and every other byte reads as before, and no misuse is recorded.
R48 is the spec's own inference. -/
def Obligations.DrawpxWritesItsPixels : Prop :=
  ∀ (s : State) (pxs : List (Word × Word × Color)), Idle s → Session s → s.misuse = false →
    pxs.length < 2 ^ 32 → (∀ q ∈ pxs, inRange s.par q.1 q.2.1 = true) →
    ∃ t, exec (.drawpx (pxs.map elemOf)) s = .next t ∧ t.misuse = false ∧
      (∀ x y : Word, inRange s.par x y = true →
        t.readPixel (pixelIndex s.par x y) =
          match pxs.reverse.find? (fun q => q.1 == x && q.2.1 == y) with
          | some q => pack q.2.2
          | none => s.readPixel (pixelIndex s.par x y)) ∧
      (∀ a : Nat,
        (∀ q ∈ pxs, a ≠ 2 * pixelIndex s.par q.1 q.2.1 ∧ a ≠ 2 * pixelIndex s.par q.1 q.2.1 + 1) →
        t.readByte a = s.readByte a)

/-- R101 (d), R126, R138: an out-of-range element is not detected: FAULT stays 0, every transaction is emitted with its
own coordinate words, and the normal response follows. Here `bad` is the last such element. The model (log entry 3)
records the misuse, and of what stood in the framebuffer until then it knows no byte any more; the in-range elements
`post` after it store their pixels as ever. -/
def Obligations.DrawpxMisuseIsRecorded : Prop :=
  ∀ (s : State) (pre post : List (Word × Word × Color)) (bad : Word × Word × Color), Idle s → Session s →
    (pre ++ bad :: post).length < 2 ^ 32 → inRange s.par bad.1 bad.2.1 = false →
    (∀ q ∈ post, inRange s.par q.1 q.2.1 = true) →
    ∃ t, exec (.drawpx ((pre ++ bad :: post).map elemOf)) s = .next t ∧ t.fault = false ∧
      t.rspq = s.rspq ++ [0x10000000] ∧
      t.hist = s.hist ++
        (pre ++ bad :: post).map (fun q => Txn.writePixel s.par.layerId q.1 q.2.1 (pack q.2.2)) ∧
      t.misuse = true ∧
      (∀ x y : Word, inRange s.par x y = true → ∀ q, post.reverse.find? (fun q => q.1 == x && q.2.1 == y) = some q →
        t.readPixel (pixelIndex s.par x y) = pack q.2.2) ∧
      (∀ a : Nat,
        (∀ q ∈ post, a ≠ 2 * pixelIndex s.par q.1 q.2.1 ∧ a ≠ 2 * pixelIndex s.par q.1 q.2.1 + 1) →
        Memory.read t.mem a = none)

/-! ### FILLA -/

/-- R102, R104: FILLA emits one WRITE_PIXEL per `k < min(NCOL, w*h)` whose point lies in `R ∩ B`, in increasing `k`, with
data `pack(c[k])`; all its words are taken; EMPTY tells whether the intersection was empty; the response has no
payload. -/
def Obligations.FillaCompletes : Prop :=
  ∀ (s : State) (x0 y0 w h : Word) (cs : List Color), Idle s → Session s → cs.length < 2 ^ 32 →
    let r : Rect := ⟨x0.toInt, y0.toInt, w.toNat, h.toNat⟩
    let ks := (List.range (min cs.length (r.w * r.h))).filter
      (fun k => !boxEmpty (isect s.par r) && contains (isect s.par r) (point r k))
    let ts := ks.map (fun k => Txn.writePixel s.par.layerId (BitVec.ofInt 32 (point r k).1)
      (BitVec.ofInt 32 (point r k).2) (pack (cs.getD k default)))
    ∃ t, exec (.filla x0 y0 w h (cs.map colorWord)) s = .next t ∧ Answers [0x11000000] s t ∧
      t.hist = s.hist ++ ts ∧ (t.misuse, t.mem) = ts.foldl (replayFb s.par) (s.misuse, s.mem) ∧
      t.empty = boxEmpty (isect s.par r) ∧ t.phase = s.phase ∧ t.ctl = s.ctl

/-- R105: (a) FILLA draws only at coordinates of `R ∩ B`, and nothing if that is empty; (b) for a rectangle inside the
panel and a colour for every point, the transactions are the row-major points of `R` with their colours in order;
(c) no coordinate is written twice.
R105 is, the spec says, derived from R102 and R94. -/
def Obligations.FillaDrawsInsideOnce : Prop :=
  ∀ (s : State) (x0 y0 w h : Word) (cs : List Color), Idle s → Session s → s.par.Legal → cs.length < 2 ^ 32 →
    let r : Rect := ⟨x0.toInt, y0.toInt, w.toNat, h.toNat⟩
    ∃ t pts, exec (.filla x0 y0 w h (cs.map colorWord)) s = .next t ∧
      t.hist = s.hist ++ pts ∧
      (∀ u ∈ pts, ∃ x y d, u = .writePixel s.par.layerId x y d ∧ Covers r (x.toInt, y.toInt) ∧
        Covers (panel s.par) (x.toInt, y.toInt)) ∧
      (boxEmpty (isect s.par r) = true → pts = []) ∧
      (0 ≤ r.x0 → r.x0 + r.w ≤ s.par.W → 0 ≤ r.y0 → r.y0 + r.h ≤ s.par.H → r.w * r.h ≤ cs.length →
        pts = (List.range (r.w * r.h)).map (fun k => Txn.writePixel s.par.layerId (BitVec.ofInt 32 (point r k).1)
          (BitVec.ofInt 32 (point r k).2) (pack (cs.getD k default)))) ∧
      pts.Pairwise (fun u v => ∀ x y d e, u = .writePixel s.par.layerId x y d → v ≠ .writePixel s.par.layerId x y e)

/-- R103: with fewer colours than points FILLA completes normally, having written exactly the points of the intersection
whose number is below `NCOL`, each with the colour of its number; the points from `NCOL` on get no colour and are not
written. The same command with the missing colours supplied writes the same and then only such points. -/
def Obligations.FillaStopsAtShorterSequence : Prop :=
  ∀ (s : State) (x0 y0 w h : Word) (cs ds : List Color), Idle s → Session s → cs.length + ds.length < 2 ^ 32 →
    s.par.Legal →
    let r := rectOf x0 y0 w h
    ∃ t u ts more, exec (.filla x0 y0 w h (cs.map colorWord)) s = .next t ∧
      exec (.filla x0 y0 w h ((cs ++ ds).map colorWord)) s = .next u ∧
      t.fault = false ∧ t.rspq = s.rspq ++ [0x11000000] ∧ t.hist = s.hist ++ ts ∧ u.hist = t.hist ++ more ∧
      (∀ v ∈ ts, ∃ x y, Covers r (x.toInt, y.toInt) ∧ Covers (panel s.par) (x.toInt, y.toInt) ∧
        pointNumber r (x.toInt, y.toInt) < cs.length ∧
        v = .writePixel s.par.layerId x y (pack (cs.getD (pointNumber r (x.toInt, y.toInt)) default))) ∧
      (∀ k, k < min cs.length (r.w * r.h) → contains (isect s.par r) (point r k) = true →
        .writePixel s.par.layerId (BitVec.ofInt 32 (point r k).1) (BitVec.ofInt 32 (point r k).2)
          (pack (cs.getD k default)) ∈ ts) ∧
      (∀ v ∈ more, ∀ x y d, v = .writePixel s.par.layerId x y d →
        cs.length ≤ pointNumber r (x.toInt, y.toInt)) ∧
      (r.w * r.h ≤ cs.length → more = [])

/-- R94 (a), R102, R157, and the frame of FILLA: a pixel of the panel that the rectangle covers holds the colour whose number
is its place in the original rectangle, if there is one; every other pixel and every other byte reads as before; a fill
never commits misuse.
R94 is the spec's own inference from R90, R92 and R93. -/
def Obligations.FillaWritesItsPixels : Prop :=
  ∀ (s : State) (x0 y0 w h : Word) (cs : List Color), Idle s → Session s → s.misuse = false → s.par.Legal →
    cs.length < 2 ^ 32 →
    let r := rectOf x0 y0 w h
    ∃ t, exec (.filla x0 y0 w h (cs.map colorWord)) s = .next t ∧ t.misuse = false ∧
      (∀ x y : Word, inRange s.par x y = true →
        t.readPixel (pixelIndex s.par x y) =
          if Covers r (x.toInt, y.toInt) ∧ pointNumber r (x.toInt, y.toInt) < cs.length then
            pack (cs.getD (pointNumber r (x.toInt, y.toInt)) default)
          else s.readPixel (pixelIndex s.par x y)) ∧
      (∀ a : Nat,
        (∀ k, k < min cs.length (r.w * r.h) → contains (isect s.par r) (point r k) = true →
          a ≠ 2 * pixelIndex s.par (BitVec.ofInt 32 (point r k).1) (BitVec.ofInt 32 (point r k).2) ∧
          a ≠ 2 * pixelIndex s.par (BitVec.ofInt 32 (point r k).1) (BitVec.ofInt 32 (point r k).2) + 1) →
        t.readByte a = s.readByte a)

/-! ### FILLS and CLEAR -/

/-- R106, R111: FILLS emits one WRITE_PIXEL with data `pack(c)` per point of `R ∩ B`, in the row-major order of the
original rectangle's single pass, none if the intersection is empty; EMPTY tells which; the response has no payload. -/
def Obligations.FillsCompletes : Prop :=
  ∀ (s : State) (x0 y0 w h : Word) (c : Color), Idle s → Session s →
    let r : Rect := ⟨x0.toInt, y0.toInt, w.toNat, h.toNat⟩
    let pts := if boxEmpty (isect s.par r) = true then []
      else ((List.range (r.w * r.h)).map (point r)).filter (contains (isect s.par r))
    let ts := pts.map (fun pt => Txn.writePixel s.par.layerId (BitVec.ofInt 32 pt.1) (BitVec.ofInt 32 pt.2) (pack c))
    ∃ t, exec (.fills x0 y0 w h (colorWord c)) s = .next t ∧ Answers [0x12000000] s t ∧
      t.hist = s.hist ++ ts ∧ (t.misuse, t.mem) = ts.foldl (replayFb s.par) (s.misuse, s.mem) ∧
      t.empty = boxEmpty (isect s.par r) ∧ t.phase = s.phase ∧ t.ctl = s.ctl

/-- R106, and the frame of FILLS: every pixel of `R ∩ B` becomes `pack(c)`; no other pixel and no other byte changes; no
misuse. -/
def Obligations.FillsWritesItsPixels : Prop :=
  ∀ (s : State) (x0 y0 w h : Word) (c : Color), Idle s → Session s → s.misuse = false → s.par.Legal →
    let r := rectOf x0 y0 w h
    ∃ t, exec (.fills x0 y0 w h (colorWord c)) s = .next t ∧ t.misuse = false ∧
      (∀ x y : Word, inRange s.par x y = true →
        t.readPixel (pixelIndex s.par x y) =
          if Covers r (x.toInt, y.toInt) then pack c else s.readPixel (pixelIndex s.par x y)) ∧
      (∀ a : Nat,
        (∀ pt, contains (isect s.par r) pt = true →
          a ≠ 2 * pixelIndex s.par (BitVec.ofInt 32 pt.1) (BitVec.ofInt 32 pt.2) ∧
          a ≠ 2 * pixelIndex s.par (BitVec.ofInt 32 pt.1) (BitVec.ofInt 32 pt.2) + 1) →
        t.readByte a = s.readByte a)

/-- R78: CLEAR is FILLS over the bounding box, and FILLS is FILLA with at least `w*h` copies of its colour, at the
controller port and so in the framebuffer; the responses differ in the echoed opcode only. -/
def Obligations.FillEquivalences : Prop :=
  (∀ (s : State) (c : Color), Idle s → Session s →
    ∃ t u, exec (.clear (colorWord c)) s = .next t ∧
      exec (.fills 0 0 s.par.cfg.width s.par.cfg.height (colorWord c)) s = .next u ∧
      t.hist = u.hist ∧ t.mem = u.mem ∧ t.misuse = u.misuse ∧ t.empty = u.empty ∧
      t.rspq = s.rspq ++ [0x13000000] ∧ u.rspq = s.rspq ++ [0x12000000]) ∧
  (∀ (s : State) (x0 y0 w h : Word) (c : Color) (n : Nat), Idle s → Session s →
    w.toNat * h.toNat ≤ n → n ≤ 2 ^ 32 - 1 →
    ∃ t u, exec (.fills x0 y0 w h (colorWord c)) s = .next t ∧
      exec (.filla x0 y0 w h (List.replicate n (colorWord c))) s = .next u ∧
      t.hist = u.hist ∧ t.mem = u.mem ∧ t.misuse = u.misuse ∧ t.empty = u.empty ∧
      t.rspq = s.rspq ++ [0x12000000] ∧ u.rspq = s.rspq ++ [0x11000000])

/-- R108: CLEAR emits exactly `W*H` WRITE_PIXEL, transaction `K` at `(K mod W, K div W)`, all with data `pack(c)`, sets
EMPTY to 0 and answers without payload. -/
def Obligations.ClearCompletes : Prop :=
  ∀ (s : State) (c : Color), Idle s → Session s → s.par.Legal →
    let ts := (List.range (s.par.W * s.par.H)).map (fun k => Txn.writePixel s.par.layerId
      (BitVec.ofNat 32 (k % s.par.W)) (BitVec.ofNat 32 (k / s.par.W)) (pack c))
    ∃ t, exec (.clear (colorWord c)) s = .next t ∧ Answers [0x13000000] s t ∧
      t.hist = s.hist ++ ts ∧ (t.misuse, t.mem) = ts.foldl (replayFb s.par) (s.misuse, s.mem) ∧
      t.empty = false ∧ t.phase = s.phase ∧ t.ctl = s.ctl

/-- R109: (a) CLEAR writes every coordinate of the panel exactly once, with its colour; (b) a second CLEAR with the same
colour emits the same transactions again and leaves the framebuffer as the first did; (c) after CLEAR every pixel has a
known value, the colour's, and no byte outside the panel's has changed.
(c) is the spec's own inference from R108. -/
def Obligations.ClearSetsEveryPixel : Prop :=
  ∀ (s : State) (c : Color), Idle s → Session s → s.misuse = false → s.par.Legal →
    ∃ t u ts, exec (.clear (colorWord c)) s = .next t ∧ exec (.clear (colorWord c)) t = .next u ∧
      t.hist = s.hist ++ ts ∧ u.hist = t.hist ++ ts ∧
      (∀ x y : Word, inRange s.par x y = true → ts.count (.writePixel s.par.layerId x y (pack c)) = 1) ∧
      (∀ v ∈ ts, ∃ x y, v = .writePixel s.par.layerId x y (pack c) ∧ inRange s.par x y = true) ∧
      (∀ a, u.readByte a = t.readByte a) ∧ u.misuse = false ∧ t.misuse = false ∧
      (∀ i, i < s.par.W * s.par.H →
        Memory.read t.mem (2 * i) = some ((pack c).extractLsb' 0 8) ∧
        Memory.read t.mem (2 * i + 1) = some ((pack c).extractLsb' 8 8) ∧ t.readPixel i = pack c) ∧
      (∀ a, 2 * (s.par.W * s.par.H) ≤ a → t.readByte a = s.readByte a)

/-- R113: how many transactions one command emits: DRAWPX exactly `N`, FILLA at most `min(NCOL, |R ∩ B|)` and at most
`W*H`, FILLS exactly `|R ∩ B|` or 0, CLEAR exactly `W*H`; and each of them completes.
R113 is the spec's own inference from R100, R102, R106 and R108. -/
def Obligations.TransactionCounts : Prop :=
  ∀ s : State, Idle s → Session s → s.par.Legal →
    (∀ pxs : List (Word × Word × Color), pxs.length < 2 ^ 32 →
      ∃ t ts, exec (.drawpx (pxs.map elemOf)) s = .next t ∧ t.hist = s.hist ++ ts ∧ ts.length = pxs.length) ∧
    (∀ (x0 y0 w h : Word) (cs : List Color), cs.length < 2 ^ 32 →
      let b := isect s.par (rectOf x0 y0 w h)
      ∃ t ts, exec (.filla x0 y0 w h (cs.map colorWord)) s = .next t ∧ t.hist = s.hist ++ ts ∧
        ts.length ≤ min cs.length ((b.x1 - b.x0).toNat * (b.y1 - b.y0).toNat) ∧ ts.length ≤ s.par.W * s.par.H) ∧
    (∀ (x0 y0 w h : Word) (c : Color),
      let b := isect s.par (rectOf x0 y0 w h)
      ∃ t ts, exec (.fills x0 y0 w h (colorWord c)) s = .next t ∧ t.hist = s.hist ++ ts ∧
        (if boxEmpty b = true then ts = [] else (ts.length : Int) = (b.x1 - b.x0) * (b.y1 - b.y0))) ∧
    (∀ c : Color,
      ∃ t ts, exec (.clear (colorWord c)) s = .next t ∧ t.hist = s.hist ++ ts ∧ ts.length = s.par.W * s.par.H)

/-! ### INIT and the controller handle -/

/-- R116: INIT in UNCONSTRUCTED emits the four construction transactions in order with their fields, leaves the handle
constructed and PHASE READY, answers without payload, and writes no pixel; EMPTY stays. -/
def Obligations.InitCompletes : Prop :=
  ∀ (s : State) (f : Word) (b : BitVec 1), Idle s → s.phase = .unconstructed → s.ctl.inited = false →
    ∃ t, exec (.init f (b.setWidth 32)) s = .next t ∧ Answers [0x01000000] s t ∧
      t.hist = s.hist ++ [.ctlInit s.par.cfg f b, .configureLayer s.par.layerId s.par.fbBase s.par.pixFmt,
        .enableLayer s.par.layerId, .reload] ∧
      t.phase = .ready ∧ t.ctl = ⟨true, true, true, true⟩ ∧ t.empty = s.empty ∧
      t.misuse = s.misuse ∧ t.mem = s.mem ∧ ∀ a, t.readByte a = s.readByte a

/-- R39, R40, R44, R49, R56, R126: a WRITE_PIXEL in range whose precondition holds stores the value's two bytes, the low
one first, at byte offsets `2(yW+x)` and `2(yW+x)+1`, which the controller's address space has at `FB_BASE + 2(yW+x)` and
one above it; it is entered in the history, and changes nothing else, in either view; scan-out, reading the pixel after
it, reads the new value. -/
def Obligations.WritePixelContract : Prop :=
  ∀ (s : State) (x y : Word) (d : Pixel), s.ctl = ⟨true, true, true, true⟩ →
    0 ≤ x.toInt → x.toInt < s.par.W → 0 ≤ y.toInt → y.toInt < s.par.H →
    ∃ t, ctl (.writePixel s.par.layerId x y d) s = .next t ∧
      t.readByte (2 * (y.toNat * s.par.W + x.toNat)) = d.extractLsb' 0 8 ∧
      t.readByte (2 * (y.toNat * s.par.W + x.toNat) + 1) = d.extractLsb' 8 8 ∧
      (∀ a, a ≠ 2 * (y.toNat * s.par.W + x.toNat) → a ≠ 2 * (y.toNat * s.par.W + x.toNat) + 1 →
        t.readByte a = s.readByte a) ∧
      pixelAddr s.par (pixelIndex s.par x y) = s.par.fbBase.toNat + 2 * (y.toNat * s.par.W + x.toNat) ∧
      t.busByte (pixelAddr s.par (pixelIndex s.par x y)) = some (d.extractLsb' 0 8) ∧
      t.busByte (pixelAddr s.par (pixelIndex s.par x y) + 1) = some (d.extractLsb' 8 8) ∧
      (∀ a, a ≠ pixelAddr s.par (pixelIndex s.par x y) → a ≠ pixelAddr s.par (pixelIndex s.par x y) + 1 →
        t.busByte a = s.busByte a) ∧
      scanRead t (y.toNat * s.par.W + x.toNat) = some d ∧
      { t with mem := s.mem, hist := s.hist } = s ∧
      t.hist = s.hist ++ [.writePixel s.par.layerId x y d]

/-- R122 to R126, R129: the controller handle stops the model on a transaction exactly when its precondition fails.
That the model stops there is log entry 8. -/
def Obligations.HandleRefusesOutOfOrder : Prop :=
  ∀ s : State,
    (∀ c f b, ctl (.ctlInit c f b) s = .fault .handleOrder ↔ s.ctl.inited = true) ∧
    (∀ l a f, ctl (.configureLayer l a f) s = .fault .handleOrder ↔ s.ctl.inited = false) ∧
    (∀ l, ctl (.enableLayer l) s = .fault .handleOrder ↔ s.ctl.bound = false) ∧
    (ctl .reload s = .fault .handleOrder ↔ s.ctl.enabled = false) ∧
    (∀ l x y d, ctl (.writePixel l x y d) s = .fault .handleOrder ↔
      ¬ (s.ctl = ⟨true, true, true, true⟩ ∧ l = s.par.layerId))

/-! ### Invariants of a step -/

/-- R37, R39: every step keeps the framebuffer's bytes in canonical form and inside the panel. -/
def Obligations.StepKeepsFramebufferForm : Prop :=
  ∀ s t : State, FramebufferForm s → step s = .next t → FramebufferForm t

/-- R15, R28, R47, R48: every step keeps the framebuffer equal to the replay of the transaction history.
R47 and R48 are the spec's own inferences. -/
def Obligations.StepKeepsFramebufferReplay : Prop :=
  ∀ s t : State, FramebufferIsReplay s → step s = .next t → FramebufferIsReplay t

/-- R29: every step keeps the controller handle's state equal to the replay of the transaction history. -/
def Obligations.StepKeepsHandleReplay : Prop :=
  ∀ s t : State, HandleIsReplay s → step s = .next t → HandleIsReplay t

/-- R117: every step keeps the history to the form construction enforces.
R117 is the spec's own inference from R116 and R134. -/
def Obligations.StepKeepsHistoryForm : Prop :=
  ∀ s t : State, HistoryForm s → HoldForm s → step s = .next t → HistoryForm t

/-- R18, R29, R116: every step keeps the controller handle constructed exactly in READY. -/
def Obligations.StepKeepsHandlePhase : Prop :=
  ∀ s t : State, HandleMatchesPhase s → HoldForm s → step s = .next t → HandleMatchesPhase t

/-- R19, R131, R132: every step keeps FAULT_CODE to the codes there are, and 0 without a fault. -/
def Obligations.StepKeepsFaultForm : Prop :=
  ∀ s t : State, FaultForm s → step s = .next t → FaultForm t

/-- R20, R158: every step keeps a command that holds to the form its resumption needs.
The fields that say how far a packet has come are the model's (log entry 9). -/
def Obligations.StepKeepsHoldForm : Prop :=
  ∀ s t : State, HoldForm s → step s = .next t → HoldForm t

/-- R15 (b), R31, R72: a step emits at most one response packet, at the end of the response stream and of the record of
all packets, and takes none back; so it keeps the response words not yet taken to be the last of all emitted.
The record of all packets is the model's (log entry 17). -/
def Obligations.StepKeepsResponsesForm : Prop :=
  ∀ s t : State, step s = .next t →
    (∃ ps : List (List Word), ps.length ≤ 1 ∧ t.resps = s.resps ++ ps ∧ t.rspq = s.rspq ++ ps.flatten) ∧
    (ResponsesForm s → ResponsesForm t)

/-- R33: the invariants hold at reset, for every choice of parameters; and the parameters the model's own reset has (log
entry 7) meet R9's constraints, with the panel 480 by 272. -/
def Obligations.ResetMeetsEveryForm : Prop :=
  (∀ p : Params,
    FramebufferForm (State.resetOf p) ∧ FramebufferIsReplay (State.resetOf p) ∧ HandleIsReplay (State.resetOf p) ∧
    HistoryForm (State.resetOf p) ∧ HandleMatchesPhase (State.resetOf p) ∧ FaultForm (State.resetOf p) ∧
    HoldForm (State.resetOf p) ∧ ResponsesForm (State.resetOf p)) ∧
  State.reset.par.Legal ∧ State.reset.par.W = 480 ∧ State.reset.par.H = 272

/-- R146, R147: nothing the host does breaks an invariant: sending words, taking response words, resetting. -/
def Obligations.HostKeepsEveryForm : Prop :=
  ∀ (s : State) (ws : List Word) (n : Nat),
    FramebufferForm s ∧ FramebufferIsReplay s ∧ HandleIsReplay s ∧ HistoryForm s ∧ HandleMatchesPhase s ∧
      FaultForm s ∧ HoldForm s ∧ ResponsesForm s →
    ∀ t ∈ [hostSend ws s, hostTake n s, hostReset s],
      FramebufferForm t ∧ FramebufferIsReplay t ∧ HandleIsReplay t ∧ HistoryForm t ∧ HandleMatchesPhase t ∧
        FaultForm t ∧ HoldForm t ∧ ResponsesForm t

/-! ### The machine as a whole -/

/-- R114, R127, R129, R160: from every state in which the handle's state matches PHASE and a command that holds has the form
its resumption needs, the model never stops: whatever words stand in the command stream, a step answers a next
state. -/
def Obligations.StepAlwaysAnswers : Prop :=
  ∀ s : State, HandleMatchesPhase s → HoldForm s → ∃ t, step s = .next t

/-- R114, R130, R146, R160: for a host that keeps the contract every command completes, with exactly one response of its
own opcode, no fault, no misuse, and no word taken but its packet's. -/
def Obligations.CommandsNeverFail : Prop :=
  ∀ (i : Instr) (s : State), Idle s → HandleMatchesPhase s → phaseOk i.opcode s.phase = true →
    i.wellFormed = true → keepsContract s.par i = true → s.par.Legal →
    ∃ t payload, exec i s = .next t ∧ t.fault = false ∧ t.busy = false ∧ t.misuse = s.misuse ∧ t.cmdq = s.cmdq ∧
      t.rspq = s.rspq ++ ((i.opcode.code ++ BitVec.ofNat 24 payload.length) :: payload) ∧
      t.resps = s.resps ++ [(i.opcode.code ++ BitVec.ofNat 24 payload.length) :: payload]

/-- R45, R49, R50, R52: tearing. Scan-out can read any pixel of the panel at any time, before construction too. Between
two transactions of a step it reads each pixel as it was, or, if the transaction wrote it, as it is from then on; before
the first transaction of the step it reads what it read before the step, after the last what it reads after the step.
That scan-out inside a step reads what a prefix of the history has left, a pixel at once, is the model's (log entries 4
and 15); so is that nothing is said of what it reads across an out-of-range write (log entry 3). -/
def Obligations.ScanOutSeesOldOrNewPixels : Prop :=
  (∀ (s : State) (i : Nat), i < s.par.W * s.par.H → scanRead s i = some (s.readPixel i)) ∧
  ∀ s t : State, FramebufferIsReplay s → step s = .next t →
    (∀ i, scanReadAt t s.hist.length i = scanRead s i) ∧
    (∀ i, scanReadAt t t.hist.length i = scanRead t i) ∧
    (∀ n i, n < t.hist.length →
      scanReadAt t (n + 1) i = scanReadAt t n i ∨
      (∃ l x y d, t.hist[n]? = some (.writePixel l x y d) ∧ inRange t.par x y = true ∧ i = pixelIndex t.par x y ∧
        scanReadAt t (n + 1) i = some d) ∨
      (∃ l x y d, t.hist[n]? = some (.writePixel l x y d) ∧ inRange t.par x y = false))

/-- R34: no command's result depends on what the latches held before: two states that differ in the latches alone give
results that differ in the latches alone.
R34 is the spec's own inference from R25. -/
def Obligations.NothingCarriesOverInLatches : Prop :=
  ∀ (i : Instr) (s : State) (l : Latches) (d : Nat), Idle s →
    (∀ t, exec i s = .next t →
      ∃ t', exec i { s with latches := l, draws := d } = .next t' ∧ SameButLatches t t' ∧
        observation t = observation t') ∧
    (∀ r, exec i s = .fault r → exec i { s with latches := l, draws := d } = .fault r)

/-- R58, R158: an incomplete packet is a hold: with the missing words sent later, the next step ends exactly where one
step would have ended had they been there at once; with none sent, nothing changes. -/
def Obligations.HoldResumesWhereItStopped : Prop :=
  ∀ (s t : State) (ws : List Word), Idle s → step s = .next t → t.busy = true →
    step (hostSend ws t) = step (hostSend ws s) ∧ step t = .next t

/-- R31, R58, R146: sending further words early is harmless: a step that ends its command does the same with more words
behind it, and leaves them in the stream. -/
def Obligations.EarlyWordsAreHarmless : Prop :=
  ∀ (s t : State) (ws : List Word), Idle s → s.cmdq ≠ [] → step s = .next t → t.busy = false →
    step (hostSend ws s) = .next (hostSend ws t)
end

