-- ==== Sys2Proof/Laws/Decode.lean ====
section
/-! SUPPORT. The laws of headers, of stream splitting and of packets. -/

namespace Sys2Proof

/-! ### Headers -/

theorem opcodeOf_eq_some {b : BitVec 8} {o : Opcode} : opcodeOf b = some o ↔ o.code = b := by
  constructor
  · intro h
    have := List.find?_some h
    simpa using this
  · rintro rfl
    cases o <;> decide

@[simp] theorem opcodeOf_code (o : Opcode) : opcodeOf o.code = some o := opcodeOf_eq_some.2 rfl

@[simp] theorem opField_headerWord (o : Opcode) : opField (headerWord o) = o.code := by
  cases o <;> decide

@[simp] theorem argField_headerWord (o : Opcode) : argField (headerWord o) = 0 := by
  cases o <;> decide

/-- A header is its two fields. -/
theorem header_of_fields (h : Word) : opField h ++ argField h = h := by
  ext i hi
  simp only [opField, argField, BitVec.getElem_append, BitVec.getElem_extractLsb']
  split
  · simp [BitVec.getLsbD_eq_getElem hi]
  · have : 24 + (i - 24) = i := by omega
    simp [this, BitVec.getLsbD_eq_getElem hi]

theorem eq_headerWord {h : Word} {o : Opcode} (ho : opcodeOf (opField h) = some o) (ha : argField h = 0) :
    h = headerWord o := by
  rw [← header_of_fields h, ha, ← opcodeOf_eq_some.1 ho]
  rfl

/-- A good header leads to its operand words. -/
@[simp] theorem decode_header (o : Opcode) (ws : List Word) :
    decode (headerWord o :: ws) = decodeOperands o ws := by
  simp [decode]

/-- Everything `decode` can answer about a non-empty stream. -/
theorem decode_cons_cases (h : Word) (ws : List Word) :
    (opcodeOf (opField h) = none ∧ decode (h :: ws) = .illegalOpcode (opField h) ws) ∨
    (∃ o, opcodeOf (opField h) = some o ∧ argField h ≠ 0 ∧ decode (h :: ws) = .reservedNonzero o ws) ∨
    (∃ o, h = headerWord o ∧ decode (h :: ws) = decodeOperands o ws) := by
  cases ho : opcodeOf (opField h) with
  | none => exact .inl ⟨rfl, by simp [decode, ho]⟩
  | some o =>
    by_cases ha : argField h = 0
    · exact .inr (.inr ⟨o, eq_headerWord ho ha, by simp [decode, ho, ha]⟩)
    · exact .inr (.inl ⟨o, rfl, ha, by simp only [decode, ho]; rw [if_neg ha]⟩)

/-! ### Stream words -/

@[simp] theorem elemWords_nil : elemWords [] = [] := rfl

@[simp] theorem elemWords_cons (e : Elem) (es : List Elem) :
    elemWords (e :: es) = e.x :: e.y :: e.c :: elemWords es := rfl

@[simp] theorem elemWords_append (es fs : List Elem) : elemWords (es ++ fs) = elemWords es ++ elemWords fs := by
  simp [elemWords]

@[simp] theorem elemWords_length (es : List Elem) : (elemWords es).length = 3 * es.length := by
  induction es with
  | nil => rfl
  | cons e es ih => simp [ih]; omega

@[simp] theorem splitElems_zero (ws : List Word) : splitElems ws 0 = ([], ws) := by
  unfold splitElems; split <;> simp_all

theorem splitElems_cons (x y c : Word) (ws : List Word) (n : Nat) :
    splitElems (x :: y :: c :: ws) (n + 1) = (⟨x, y, c⟩ :: (splitElems ws n).1, (splitElems ws n).2) := rfl

theorem splitElems_short (ws : List Word) (n : Nat) (h : ws.length < 3) : splitElems ws n = ([], ws) := by
  rcases ws with _ | ⟨a, _ | ⟨b, _ | ⟨c, ws⟩⟩⟩
  · rfl
  · rfl
  · rfl
  · simp at h; omega

/-- What splitting gives: the words back, at most `n` elements, and fewer than `n` only where fewer than three words
are left. -/
theorem splitElems_spec (ws : List Word) (n : Nat) :
    elemWords (splitElems ws n).1 ++ (splitElems ws n).2 = ws ∧ (splitElems ws n).1.length ≤ n ∧
    ((splitElems ws n).1.length < n → (splitElems ws n).2.length < 3) := by
  induction n generalizing ws with
  | zero => simp
  | succ n ih =>
    rcases ws with _ | ⟨a, _ | ⟨b, _ | ⟨c, ws⟩⟩⟩
    · simp [splitElems]
    · simp [splitElems]
    · simp [splitElems]
    · obtain ⟨h1, h2, h3⟩ := ih ws
      refine ⟨by simp [splitElems_cons, h1], by simpa [splitElems_cons] using h2, fun h => ?_⟩
      simp only [splitElems_cons, List.length_cons] at h ⊢
      exact h3 (by omega)

/-- Splitting gives back the elements at the head, and goes on behind them. -/
theorem splitElems_append (es : List Elem) (ws : List Word) (n : Nat) :
    splitElems (elemWords es ++ ws) (es.length + n) = (es ++ (splitElems ws n).1, (splitElems ws n).2) := by
  induction es with
  | nil => simp
  | cons e es ih =>
    have : (e :: es).length + n = (es.length + n) + 1 := by simp; omega
    rw [this]
    simp [splitElems_cons, ih]

@[simp] theorem splitElems_elemWords (es : List Elem) (ws : List Word) :
    splitElems (elemWords es ++ ws) es.length = (es, ws) := by
  simpa using splitElems_append es ws 0

/-! ### Packets -/

theorem countWord_toNat {n : Nat} (h : n < 2 ^ 32) : (countWord n).toNat = n := by
  simp only [countWord, BitVec.toNat_ofNat]; exact Nat.mod_eq_of_lt h

@[simp] theorem countWord_toNat_self (w : Word) : countWord w.toNat = w := by
  simp [countWord]

end Sys2Proof
end

