-- ==== Sys2Proof/Laws/Memory.lean ====
section
/-! SUPPORT. The laws of the framebuffer's bytes: a read after a write, the canonical form, and pixels. -/

namespace Sys2Proof.Machine

@[simp] theorem Memory.read_nil (a : Nat) : Memory.read [] a = none := rfl

theorem Memory.read_write_same (a : Nat) (v : Byte) (m : Memory) :
    Memory.read (Memory.write a v m) a = some v := by
  induction m with
  | nil => simp [Memory.write, Memory.read]
  | cons e m ih =>
    obtain ⟨b, u⟩ := e
    simp only [Memory.write]
    split
    · simp [Memory.read]
    · split
      · simp [Memory.read]
      · simp [Memory.read, *]

theorem Memory.read_write_ne {a b : Nat} (h : b ≠ a) (v : Byte) (m : Memory) :
    Memory.read (Memory.write a v m) b = Memory.read m b := by
  induction m with
  | nil => simp [Memory.write, Memory.read, h]
  | cons e m ih =>
    obtain ⟨c, u⟩ := e
    simp only [Memory.write]
    split
    · simp [Memory.read, h]
    · split
      · subst_vars; simp [Memory.read, h]
      · simp [Memory.read, ih]

/-- A read after a write: the value written at its offset, the old value elsewhere. -/
theorem Memory.read_write (a b : Nat) (v : Byte) (m : Memory) :
    Memory.read (Memory.write a v m) b = if b = a then some v else Memory.read m b := by
  split
  · subst_vars; exact Memory.read_write_same _ _ _
  · exact Memory.read_write_ne ‹_› _ _

/-- The offset a non-empty memory starts at is the smaller of the written one and the old first one. -/
theorem Memory.write_wf_cons (a : Nat) (v : Byte) (b : Nat) (u : Byte) (m : Memory)
    (h : Memory.wf ((b, u) :: m) = true) (hb : b < a) :
    Memory.wf ((b, u) :: Memory.write a v m) = true := by
  induction m generalizing b u with
  | nil => simp [Memory.write, Memory.wf, hb]
  | cons e m ih =>
    obtain ⟨c, w⟩ := e
    simp only [Memory.wf, Bool.and_eq_true, decide_eq_true_eq] at h
    simp only [Memory.write]
    split
    · simp [Memory.wf, *]
    · split
      · subst_vars; cases m <;> simp_all [Memory.wf]
      · rename_i h1 h2
        have hc : c < a := by omega
        have := ih c w h.2 hc
        simp [Memory.wf, h.1, this]

/-- Every write keeps the canonical form. -/
theorem Memory.write_wf (a : Nat) (v : Byte) (m : Memory) (h : Memory.wf m = true) :
    Memory.wf (Memory.write a v m) = true := by
  cases m with
  | nil => rfl
  | cons e m =>
    obtain ⟨b, u⟩ := e
    simp only [Memory.write]
    split
    · simp [Memory.wf, *]
    · split
      · subst_vars; cases m <;> simp_all [Memory.wf]
      · exact Memory.write_wf_cons a v b u m h (by omega)

theorem Memory.writePixel_wf (m : Memory) (i : Nat) (d : Pixel) (h : Memory.wf m = true) :
    Memory.wf (Memory.writePixel m i d) = true :=
  Memory.write_wf _ _ _ (Memory.write_wf _ _ _ h)

theorem fbWrite_wf (x y : Word) (d : Pixel) (s : State) (h : Memory.wf s.mem = true) :
    Memory.wf (fbWrite x y d s).mem = true := by
  unfold fbWrite
  split
  · exact Memory.writePixel_wf _ _ _ h
  · rfl

theorem State.reset_wf : Memory.wf State.reset.mem = true := rfl

/-- A write lists no offset but its own and those listed before. -/
theorem Memory.mem_write {a : Nat} {v : Byte} {m : Memory} {e : Host.Cell}
    (h : e ∈ Memory.write a v m) : e.1 = a ∨ e ∈ m := by
  induction m with
  | nil => simp_all [Memory.write]
  | cons c m ih =>
    obtain ⟨b, u⟩ := c
    simp only [Memory.write] at h
    split at h
    · simp only [List.mem_cons] at h ⊢
      rcases h with rfl | h | h <;> simp_all
    · split at h
      · simp only [List.mem_cons] at h ⊢
        rcases h with rfl | h <;> simp_all
      · simp only [List.mem_cons] at h ⊢
        rcases h with rfl | h
        · simp
        · rcases ih h with h | h <;> simp_all

theorem Memory.mem_writePixel {m : Memory} {i : Nat} {d : Pixel} {e : Host.Cell}
    (h : e ∈ Memory.writePixel m i d) : e.1 = 2 * i + 1 ∨ e.1 = 2 * i ∨ e ∈ m := by
  rcases Memory.mem_write h with h | h
  · exact .inl h
  · rcases Memory.mem_write h with h | h <;> simp_all

/-- One byte after a pixel write: the pixel's two bytes, little-endian, and nothing else (R40, R44). -/
theorem Memory.read_writePixel (m : Memory) (i : Nat) (d : Pixel) (a : Nat) :
    Memory.read (Memory.writePixel m i d) a =
      if a = 2 * i + 1 then some (d.extractLsb' 8 8)
      else if a = 2 * i then some (d.extractLsb' 0 8)
      else Memory.read m a := by
  simp [Memory.writePixel, Memory.read_write]

/-- Two canonical memories that read alike everywhere are equal: equal memories are equal data. -/
theorem Memory.wf_tail {e : Host.Cell} {m : Memory} (h : Memory.wf (e :: m) = true) : Memory.wf m = true := by
  cases m with
  | nil => rfl
  | cons c m => simp only [Memory.wf, Bool.and_eq_true] at h; exact h.2

theorem Memory.wf_lt {a : Nat} {v : Byte} {m : Memory} (h : Memory.wf ((a, v) :: m) = true) :
    ∀ e ∈ m, a < e.1 := by
  induction m generalizing a v with
  | nil => simp
  | cons c m ih =>
    obtain ⟨b, u⟩ := c
    simp only [Memory.wf, Bool.and_eq_true, decide_eq_true_eq] at h
    intro e he
    rcases List.mem_cons.1 he with rfl | he
    · exact h.1
    · exact lt_trans h.1 (ih h.2 e he)

theorem Memory.read_none_of_lt {a : Nat} {m : Memory} (h : ∀ e ∈ m, a < e.1) : Memory.read m a = none := by
  induction m with
  | nil => rfl
  | cons c m ih =>
    have := h c (by simp)
    simp only [Memory.read]
    rw [if_neg (by omega)]
    exact ih (fun e he => h e (by simp [he]))

theorem Memory.ext_of_read {m m' : Memory} (h : Memory.wf m = true) (h' : Memory.wf m' = true)
    (hr : ∀ a, Memory.read m a = Memory.read m' a) : m = m' := by
  induction m generalizing m' with
  | nil =>
    cases m' with
    | nil => rfl
    | cons c m' => have := hr c.1; simp [Memory.read, Memory.unlisted] at this
  | cons c m ih =>
    obtain ⟨a, v⟩ := c
    cases m' with
    | nil => have := hr a; simp [Memory.read, Memory.unlisted] at this
    | cons c' m' =>
      obtain ⟨b, u⟩ := c'
      have hm := Memory.wf_lt h
      have hm' := Memory.wf_lt h'
      have hab : a = b := by
        rcases lt_trichotomy a b with hlt | heq | hgt
        · have h1 := hr a
          rw [Memory.read_none_of_lt (m := (b, u) :: m')
            (by intro e he; rcases List.mem_cons.1 he with rfl | he; exacts [hlt, lt_trans hlt (hm' e he)])] at h1
          simp [Memory.read] at h1
        · exact heq
        · have h1 := hr b
          rw [Memory.read_none_of_lt (m := (a, v) :: m)
            (by intro e he; rcases List.mem_cons.1 he with rfl | he; exacts [hgt, lt_trans hgt (hm e he)])] at h1
          simp [Memory.read] at h1
      subst hab
      have hvu : v = u := by simpa [Memory.read] using hr a
      subst hvu
      congr 1
      refine ih (Memory.wf_tail h) (Memory.wf_tail h') (fun x => ?_)
      by_cases hx : x = a
      · subst hx
        rw [Memory.read_none_of_lt hm, Memory.read_none_of_lt hm']
      · have := hr x
        simpa [Memory.read, hx] using this

/-! ### The state's bytes and pixels -/

theorem State.readByte_congr {s t : State} (hm : t.mem = s.mem) (hd : t.fbDraw = s.fbDraw) (a : Nat) :
    t.readByte a = s.readByte a := by
  simp [State.readByte, hm, hd]

/-- The two bytes of a pixel make up the pixel. -/
theorem pixel_of_bytes (d : Pixel) : d.extractLsb' 8 8 ++ d.extractLsb' 0 8 = d := by
  ext i hi
  simp only [BitVec.getElem_append, BitVec.getElem_extractLsb']
  split
  · simp [BitVec.getLsbD_eq_getElem hi]
  · have : 8 + (i - 8) = i := by omega
    simp [this, BitVec.getLsbD_eq_getElem hi]

end Sys2Proof.Machine
end

