-- ==== Sys2Proof/Laws/State.lean ====
section
/-! SUPPORT. One lemma per field per update of State, each true by rfl: what an update writes, and that it leaves the
other fields alone. -/

namespace Sys2Proof.Machine

/-! `loadRect` -/

@[simp] theorem loadRect_phase (x0 y0 w h : Word) (s : State) : (loadRect x0 y0 w h s).phase = s.phase := rfl
@[simp] theorem loadRect_fault (x0 y0 w h : Word) (s : State) : (loadRect x0 y0 w h s).fault = s.fault := rfl
@[simp] theorem loadRect_faultCode (x0 y0 w h : Word) (s : State) : (loadRect x0 y0 w h s).faultCode = s.faultCode := rfl
@[simp] theorem loadRect_busy (x0 y0 w h : Word) (s : State) : (loadRect x0 y0 w h s).busy = s.busy := rfl
@[simp] theorem loadRect_empty (x0 y0 w h : Word) (s : State) : (loadRect x0 y0 w h s).empty = s.empty := rfl
@[simp] theorem loadRect_cmdq (x0 y0 w h : Word) (s : State) : (loadRect x0 y0 w h s).cmdq = s.cmdq := rfl
@[simp] theorem loadRect_rspq (x0 y0 w h : Word) (s : State) : (loadRect x0 y0 w h s).rspq = s.rspq := rfl
@[simp] theorem loadRect_resps (x0 y0 w h : Word) (s : State) : (loadRect x0 y0 w h s).resps = s.resps := rfl
@[simp] theorem loadRect_ctl (x0 y0 w h : Word) (s : State) : (loadRect x0 y0 w h s).ctl = s.ctl := rfl
@[simp] theorem loadRect_hist (x0 y0 w h : Word) (s : State) : (loadRect x0 y0 w h s).hist = s.hist := rfl
@[simp] theorem loadRect_mem (x0 y0 w h : Word) (s : State) : (loadRect x0 y0 w h s).mem = s.mem := rfl
@[simp] theorem loadRect_misuse (x0 y0 w h : Word) (s : State) : (loadRect x0 y0 w h s).misuse = s.misuse := rfl
@[simp] theorem loadRect_streaming (x0 y0 w h : Word) (s : State) : (loadRect x0 y0 w h s).streaming = s.streaming := rfl
@[simp] theorem loadRect_part (x0 y0 w h : Word) (s : State) : (loadRect x0 y0 w h s).part = s.part := rfl
@[simp] theorem loadRect_latches (x0 y0 w h : Word) (s : State) : (loadRect x0 y0 w h s).latches = { s.latches with rx := x0, ry := y0, rw := w, rh := h } := rfl
@[simp] theorem loadRect_draws (x0 y0 w h : Word) (s : State) : (loadRect x0 y0 w h s).draws = s.draws := rfl
@[simp] theorem loadRect_fbDraw (x0 y0 w h : Word) (s : State) : (loadRect x0 y0 w h s).fbDraw = s.fbDraw := rfl
@[simp] theorem loadRect_par (x0 y0 w h : Word) (s : State) : (loadRect x0 y0 w h s).par = s.par := rfl

/-! `loadCount` -/

@[simp] theorem loadCount_phase (n : Word) (s : State) : (loadCount n s).phase = s.phase := rfl
@[simp] theorem loadCount_fault (n : Word) (s : State) : (loadCount n s).fault = s.fault := rfl
@[simp] theorem loadCount_faultCode (n : Word) (s : State) : (loadCount n s).faultCode = s.faultCode := rfl
@[simp] theorem loadCount_busy (n : Word) (s : State) : (loadCount n s).busy = s.busy := rfl
@[simp] theorem loadCount_empty (n : Word) (s : State) : (loadCount n s).empty = s.empty := rfl
@[simp] theorem loadCount_cmdq (n : Word) (s : State) : (loadCount n s).cmdq = s.cmdq := rfl
@[simp] theorem loadCount_rspq (n : Word) (s : State) : (loadCount n s).rspq = s.rspq := rfl
@[simp] theorem loadCount_resps (n : Word) (s : State) : (loadCount n s).resps = s.resps := rfl
@[simp] theorem loadCount_ctl (n : Word) (s : State) : (loadCount n s).ctl = s.ctl := rfl
@[simp] theorem loadCount_hist (n : Word) (s : State) : (loadCount n s).hist = s.hist := rfl
@[simp] theorem loadCount_mem (n : Word) (s : State) : (loadCount n s).mem = s.mem := rfl
@[simp] theorem loadCount_misuse (n : Word) (s : State) : (loadCount n s).misuse = s.misuse := rfl
@[simp] theorem loadCount_streaming (n : Word) (s : State) : (loadCount n s).streaming = s.streaming := rfl
@[simp] theorem loadCount_part (n : Word) (s : State) : (loadCount n s).part = s.part := rfl
@[simp] theorem loadCount_latches (n : Word) (s : State) : (loadCount n s).latches = { s.latches with n := n, k := 0 } := rfl
@[simp] theorem loadCount_draws (n : Word) (s : State) : (loadCount n s).draws = s.draws := rfl
@[simp] theorem loadCount_fbDraw (n : Word) (s : State) : (loadCount n s).fbDraw = s.fbDraw := rfl
@[simp] theorem loadCount_par (n : Word) (s : State) : (loadCount n s).par = s.par := rfl

/-! `advance` -/

@[simp] theorem advance_phase (s : State) : (advance s).phase = s.phase := rfl
@[simp] theorem advance_fault (s : State) : (advance s).fault = s.fault := rfl
@[simp] theorem advance_faultCode (s : State) : (advance s).faultCode = s.faultCode := rfl
@[simp] theorem advance_busy (s : State) : (advance s).busy = s.busy := rfl
@[simp] theorem advance_empty (s : State) : (advance s).empty = s.empty := rfl
@[simp] theorem advance_cmdq (s : State) : (advance s).cmdq = s.cmdq := rfl
@[simp] theorem advance_rspq (s : State) : (advance s).rspq = s.rspq := rfl
@[simp] theorem advance_resps (s : State) : (advance s).resps = s.resps := rfl
@[simp] theorem advance_ctl (s : State) : (advance s).ctl = s.ctl := rfl
@[simp] theorem advance_hist (s : State) : (advance s).hist = s.hist := rfl
@[simp] theorem advance_mem (s : State) : (advance s).mem = s.mem := rfl
@[simp] theorem advance_misuse (s : State) : (advance s).misuse = s.misuse := rfl
@[simp] theorem advance_streaming (s : State) : (advance s).streaming = s.streaming := rfl
@[simp] theorem advance_part (s : State) : (advance s).part = s.part := rfl
@[simp] theorem advance_latches (s : State) : (advance s).latches = { s.latches with k := s.latches.k + 1 } := rfl
@[simp] theorem advance_draws (s : State) : (advance s).draws = s.draws := rfl
@[simp] theorem advance_fbDraw (s : State) : (advance s).fbDraw = s.fbDraw := rfl
@[simp] theorem advance_par (s : State) : (advance s).par = s.par := rfl

/-! `loadClkf` -/

@[simp] theorem loadClkf_phase (f : Word) (s : State) : (loadClkf f s).phase = s.phase := rfl
@[simp] theorem loadClkf_fault (f : Word) (s : State) : (loadClkf f s).fault = s.fault := rfl
@[simp] theorem loadClkf_faultCode (f : Word) (s : State) : (loadClkf f s).faultCode = s.faultCode := rfl
@[simp] theorem loadClkf_busy (f : Word) (s : State) : (loadClkf f s).busy = s.busy := rfl
@[simp] theorem loadClkf_empty (f : Word) (s : State) : (loadClkf f s).empty = s.empty := rfl
@[simp] theorem loadClkf_cmdq (f : Word) (s : State) : (loadClkf f s).cmdq = s.cmdq := rfl
@[simp] theorem loadClkf_rspq (f : Word) (s : State) : (loadClkf f s).rspq = s.rspq := rfl
@[simp] theorem loadClkf_resps (f : Word) (s : State) : (loadClkf f s).resps = s.resps := rfl
@[simp] theorem loadClkf_ctl (f : Word) (s : State) : (loadClkf f s).ctl = s.ctl := rfl
@[simp] theorem loadClkf_hist (f : Word) (s : State) : (loadClkf f s).hist = s.hist := rfl
@[simp] theorem loadClkf_mem (f : Word) (s : State) : (loadClkf f s).mem = s.mem := rfl
@[simp] theorem loadClkf_misuse (f : Word) (s : State) : (loadClkf f s).misuse = s.misuse := rfl
@[simp] theorem loadClkf_streaming (f : Word) (s : State) : (loadClkf f s).streaming = s.streaming := rfl
@[simp] theorem loadClkf_part (f : Word) (s : State) : (loadClkf f s).part = s.part := rfl
@[simp] theorem loadClkf_latches (f : Word) (s : State) : (loadClkf f s).latches = { s.latches with clkf := f } := rfl
@[simp] theorem loadClkf_draws (f : Word) (s : State) : (loadClkf f s).draws = s.draws := rfl
@[simp] theorem loadClkf_fbDraw (f : Word) (s : State) : (loadClkf f s).fbDraw = s.fbDraw := rfl
@[simp] theorem loadClkf_par (f : Word) (s : State) : (loadClkf f s).par = s.par := rfl

/-! `loadClkm` -/

@[simp] theorem loadClkm_phase (m : BitVec 1) (s : State) : (loadClkm m s).phase = s.phase := rfl
@[simp] theorem loadClkm_fault (m : BitVec 1) (s : State) : (loadClkm m s).fault = s.fault := rfl
@[simp] theorem loadClkm_faultCode (m : BitVec 1) (s : State) : (loadClkm m s).faultCode = s.faultCode := rfl
@[simp] theorem loadClkm_busy (m : BitVec 1) (s : State) : (loadClkm m s).busy = s.busy := rfl
@[simp] theorem loadClkm_empty (m : BitVec 1) (s : State) : (loadClkm m s).empty = s.empty := rfl
@[simp] theorem loadClkm_cmdq (m : BitVec 1) (s : State) : (loadClkm m s).cmdq = s.cmdq := rfl
@[simp] theorem loadClkm_rspq (m : BitVec 1) (s : State) : (loadClkm m s).rspq = s.rspq := rfl
@[simp] theorem loadClkm_resps (m : BitVec 1) (s : State) : (loadClkm m s).resps = s.resps := rfl
@[simp] theorem loadClkm_ctl (m : BitVec 1) (s : State) : (loadClkm m s).ctl = s.ctl := rfl
@[simp] theorem loadClkm_hist (m : BitVec 1) (s : State) : (loadClkm m s).hist = s.hist := rfl
@[simp] theorem loadClkm_mem (m : BitVec 1) (s : State) : (loadClkm m s).mem = s.mem := rfl
@[simp] theorem loadClkm_misuse (m : BitVec 1) (s : State) : (loadClkm m s).misuse = s.misuse := rfl
@[simp] theorem loadClkm_streaming (m : BitVec 1) (s : State) : (loadClkm m s).streaming = s.streaming := rfl
@[simp] theorem loadClkm_part (m : BitVec 1) (s : State) : (loadClkm m s).part = s.part := rfl
@[simp] theorem loadClkm_latches (m : BitVec 1) (s : State) : (loadClkm m s).latches = { s.latches with clkm := m } := rfl
@[simp] theorem loadClkm_draws (m : BitVec 1) (s : State) : (loadClkm m s).draws = s.draws := rfl
@[simp] theorem loadClkm_fbDraw (m : BitVec 1) (s : State) : (loadClkm m s).fbDraw = s.fbDraw := rfl
@[simp] theorem loadClkm_par (m : BitVec 1) (s : State) : (loadClkm m s).par = s.par := rfl

/-! `loadColor` -/

@[simp] theorem loadColor_phase (c : Color) (s : State) : (loadColor c s).phase = s.phase := rfl
@[simp] theorem loadColor_fault (c : Color) (s : State) : (loadColor c s).fault = s.fault := rfl
@[simp] theorem loadColor_faultCode (c : Color) (s : State) : (loadColor c s).faultCode = s.faultCode := rfl
@[simp] theorem loadColor_busy (c : Color) (s : State) : (loadColor c s).busy = s.busy := rfl
@[simp] theorem loadColor_empty (c : Color) (s : State) : (loadColor c s).empty = s.empty := rfl
@[simp] theorem loadColor_cmdq (c : Color) (s : State) : (loadColor c s).cmdq = s.cmdq := rfl
@[simp] theorem loadColor_rspq (c : Color) (s : State) : (loadColor c s).rspq = s.rspq := rfl
@[simp] theorem loadColor_resps (c : Color) (s : State) : (loadColor c s).resps = s.resps := rfl
@[simp] theorem loadColor_ctl (c : Color) (s : State) : (loadColor c s).ctl = s.ctl := rfl
@[simp] theorem loadColor_hist (c : Color) (s : State) : (loadColor c s).hist = s.hist := rfl
@[simp] theorem loadColor_mem (c : Color) (s : State) : (loadColor c s).mem = s.mem := rfl
@[simp] theorem loadColor_misuse (c : Color) (s : State) : (loadColor c s).misuse = s.misuse := rfl
@[simp] theorem loadColor_streaming (c : Color) (s : State) : (loadColor c s).streaming = s.streaming := rfl
@[simp] theorem loadColor_part (c : Color) (s : State) : (loadColor c s).part = s.part := rfl
@[simp] theorem loadColor_latches (c : Color) (s : State) : (loadColor c s).latches = { s.latches with col := c, pix := pack c } := rfl
@[simp] theorem loadColor_draws (c : Color) (s : State) : (loadColor c s).draws = s.draws := rfl
@[simp] theorem loadColor_fbDraw (c : Color) (s : State) : (loadColor c s).fbDraw = s.fbDraw := rfl
@[simp] theorem loadColor_par (c : Color) (s : State) : (loadColor c s).par = s.par := rfl

/-! `loadPoint` -/

@[simp] theorem loadPoint_phase (x y : Word) (s : State) : (loadPoint x y s).phase = s.phase := rfl
@[simp] theorem loadPoint_fault (x y : Word) (s : State) : (loadPoint x y s).fault = s.fault := rfl
@[simp] theorem loadPoint_faultCode (x y : Word) (s : State) : (loadPoint x y s).faultCode = s.faultCode := rfl
@[simp] theorem loadPoint_busy (x y : Word) (s : State) : (loadPoint x y s).busy = s.busy := rfl
@[simp] theorem loadPoint_empty (x y : Word) (s : State) : (loadPoint x y s).empty = s.empty := rfl
@[simp] theorem loadPoint_cmdq (x y : Word) (s : State) : (loadPoint x y s).cmdq = s.cmdq := rfl
@[simp] theorem loadPoint_rspq (x y : Word) (s : State) : (loadPoint x y s).rspq = s.rspq := rfl
@[simp] theorem loadPoint_resps (x y : Word) (s : State) : (loadPoint x y s).resps = s.resps := rfl
@[simp] theorem loadPoint_ctl (x y : Word) (s : State) : (loadPoint x y s).ctl = s.ctl := rfl
@[simp] theorem loadPoint_hist (x y : Word) (s : State) : (loadPoint x y s).hist = s.hist := rfl
@[simp] theorem loadPoint_mem (x y : Word) (s : State) : (loadPoint x y s).mem = s.mem := rfl
@[simp] theorem loadPoint_misuse (x y : Word) (s : State) : (loadPoint x y s).misuse = s.misuse := rfl
@[simp] theorem loadPoint_streaming (x y : Word) (s : State) : (loadPoint x y s).streaming = s.streaming := rfl
@[simp] theorem loadPoint_part (x y : Word) (s : State) : (loadPoint x y s).part = s.part := rfl
@[simp] theorem loadPoint_latches (x y : Word) (s : State) : (loadPoint x y s).latches = { s.latches with px := x, py := y } := rfl
@[simp] theorem loadPoint_draws (x y : Word) (s : State) : (loadPoint x y s).draws = s.draws := rfl
@[simp] theorem loadPoint_fbDraw (x y : Word) (s : State) : (loadPoint x y s).fbDraw = s.fbDraw := rfl
@[simp] theorem loadPoint_par (x y : Word) (s : State) : (loadPoint x y s).par = s.par := rfl

/-! `clip` -/

@[simp] theorem clip_phase (s : State) : (clip s).phase = s.phase := rfl
@[simp] theorem clip_fault (s : State) : (clip s).fault = s.fault := rfl
@[simp] theorem clip_faultCode (s : State) : (clip s).faultCode = s.faultCode := rfl
@[simp] theorem clip_busy (s : State) : (clip s).busy = s.busy := rfl
@[simp] theorem clip_empty (s : State) : (clip s).empty = boxEmpty (isect s.par (latchedRect s.latches)) := rfl
@[simp] theorem clip_cmdq (s : State) : (clip s).cmdq = s.cmdq := rfl
@[simp] theorem clip_rspq (s : State) : (clip s).rspq = s.rspq := rfl
@[simp] theorem clip_resps (s : State) : (clip s).resps = s.resps := rfl
@[simp] theorem clip_ctl (s : State) : (clip s).ctl = s.ctl := rfl
@[simp] theorem clip_hist (s : State) : (clip s).hist = s.hist := rfl
@[simp] theorem clip_mem (s : State) : (clip s).mem = s.mem := rfl
@[simp] theorem clip_misuse (s : State) : (clip s).misuse = s.misuse := rfl
@[simp] theorem clip_streaming (s : State) : (clip s).streaming = s.streaming := rfl
@[simp] theorem clip_part (s : State) : (clip s).part = s.part := rfl
@[simp] theorem clip_draws (s : State) : (clip s).draws = s.draws := rfl
@[simp] theorem clip_fbDraw (s : State) : (clip s).fbDraw = s.fbDraw := rfl
@[simp] theorem clip_par (s : State) : (clip s).par = s.par := rfl

/-! `fillaStart` -/

@[simp] theorem fillaStart_phase (x0 y0 w h n : Word) (s : State) : (fillaStart x0 y0 w h n s).phase = s.phase := rfl
@[simp] theorem fillaStart_fault (x0 y0 w h n : Word) (s : State) : (fillaStart x0 y0 w h n s).fault = s.fault := rfl
@[simp] theorem fillaStart_faultCode (x0 y0 w h n : Word) (s : State) : (fillaStart x0 y0 w h n s).faultCode = s.faultCode := rfl
@[simp] theorem fillaStart_busy (x0 y0 w h n : Word) (s : State) : (fillaStart x0 y0 w h n s).busy = s.busy := rfl
@[simp] theorem fillaStart_empty (x0 y0 w h n : Word) (s : State) : (fillaStart x0 y0 w h n s).empty = boxEmpty (isect s.par (rectOf x0 y0 w h)) := rfl
@[simp] theorem fillaStart_cmdq (x0 y0 w h n : Word) (s : State) : (fillaStart x0 y0 w h n s).cmdq = s.cmdq := rfl
@[simp] theorem fillaStart_rspq (x0 y0 w h n : Word) (s : State) : (fillaStart x0 y0 w h n s).rspq = s.rspq := rfl
@[simp] theorem fillaStart_resps (x0 y0 w h n : Word) (s : State) : (fillaStart x0 y0 w h n s).resps = s.resps := rfl
@[simp] theorem fillaStart_ctl (x0 y0 w h n : Word) (s : State) : (fillaStart x0 y0 w h n s).ctl = s.ctl := rfl
@[simp] theorem fillaStart_hist (x0 y0 w h n : Word) (s : State) : (fillaStart x0 y0 w h n s).hist = s.hist := rfl
@[simp] theorem fillaStart_mem (x0 y0 w h n : Word) (s : State) : (fillaStart x0 y0 w h n s).mem = s.mem := rfl
@[simp] theorem fillaStart_misuse (x0 y0 w h n : Word) (s : State) : (fillaStart x0 y0 w h n s).misuse = s.misuse := rfl
@[simp] theorem fillaStart_streaming (x0 y0 w h n : Word) (s : State) : (fillaStart x0 y0 w h n s).streaming = s.streaming := rfl
@[simp] theorem fillaStart_part (x0 y0 w h n : Word) (s : State) : (fillaStart x0 y0 w h n s).part = s.part := rfl
@[simp] theorem fillaStart_draws (x0 y0 w h n : Word) (s : State) : (fillaStart x0 y0 w h n s).draws = s.draws := rfl
@[simp] theorem fillaStart_fbDraw (x0 y0 w h n : Word) (s : State) : (fillaStart x0 y0 w h n s).fbDraw = s.fbDraw := rfl
@[simp] theorem fillaStart_par (x0 y0 w h n : Word) (s : State) : (fillaStart x0 y0 w h n s).par = s.par := rfl

/-! `takeHeader` -/

@[simp] theorem takeHeader_phase (op : BitVec 8) (s : State) : (takeHeader op s).phase = s.phase := rfl
@[simp] theorem takeHeader_fault (op : BitVec 8) (s : State) : (takeHeader op s).fault = s.fault := rfl
@[simp] theorem takeHeader_faultCode (op : BitVec 8) (s : State) : (takeHeader op s).faultCode = s.faultCode := rfl
@[simp] theorem takeHeader_busy (op : BitVec 8) (s : State) : (takeHeader op s).busy = true := rfl
@[simp] theorem takeHeader_empty (op : BitVec 8) (s : State) : (takeHeader op s).empty = s.empty := rfl
@[simp] theorem takeHeader_cmdq (op : BitVec 8) (s : State) : (takeHeader op s).cmdq = s.cmdq := rfl
@[simp] theorem takeHeader_rspq (op : BitVec 8) (s : State) : (takeHeader op s).rspq = s.rspq := rfl
@[simp] theorem takeHeader_resps (op : BitVec 8) (s : State) : (takeHeader op s).resps = s.resps := rfl
@[simp] theorem takeHeader_ctl (op : BitVec 8) (s : State) : (takeHeader op s).ctl = s.ctl := rfl
@[simp] theorem takeHeader_hist (op : BitVec 8) (s : State) : (takeHeader op s).hist = s.hist := rfl
@[simp] theorem takeHeader_mem (op : BitVec 8) (s : State) : (takeHeader op s).mem = s.mem := rfl
@[simp] theorem takeHeader_misuse (op : BitVec 8) (s : State) : (takeHeader op s).misuse = s.misuse := rfl
@[simp] theorem takeHeader_streaming (op : BitVec 8) (s : State) : (takeHeader op s).streaming = false := rfl
@[simp] theorem takeHeader_part (op : BitVec 8) (s : State) : (takeHeader op s).part = [] := rfl
@[simp] theorem takeHeader_latches (op : BitVec 8) (s : State) : (takeHeader op s).latches = { s.latches with op := op } := rfl
@[simp] theorem takeHeader_draws (op : BitVec 8) (s : State) : (takeHeader op s).draws = s.draws := rfl
@[simp] theorem takeHeader_fbDraw (op : BitVec 8) (s : State) : (takeHeader op s).fbDraw = s.fbDraw := rfl
@[simp] theorem takeHeader_par (op : BitVec 8) (s : State) : (takeHeader op s).par = s.par := rfl

/-! `untake` -/

@[simp] theorem untake_phase (ws : List Word) (s : State) : (untake ws s).phase = s.phase := rfl
@[simp] theorem untake_fault (ws : List Word) (s : State) : (untake ws s).fault = s.fault := rfl
@[simp] theorem untake_faultCode (ws : List Word) (s : State) : (untake ws s).faultCode = s.faultCode := rfl
@[simp] theorem untake_busy (ws : List Word) (s : State) : (untake ws s).busy = s.busy := rfl
@[simp] theorem untake_empty (ws : List Word) (s : State) : (untake ws s).empty = s.empty := rfl
@[simp] theorem untake_cmdq (ws : List Word) (s : State) : (untake ws s).cmdq = ws ++ s.cmdq := rfl
@[simp] theorem untake_rspq (ws : List Word) (s : State) : (untake ws s).rspq = s.rspq := rfl
@[simp] theorem untake_resps (ws : List Word) (s : State) : (untake ws s).resps = s.resps := rfl
@[simp] theorem untake_ctl (ws : List Word) (s : State) : (untake ws s).ctl = s.ctl := rfl
@[simp] theorem untake_hist (ws : List Word) (s : State) : (untake ws s).hist = s.hist := rfl
@[simp] theorem untake_mem (ws : List Word) (s : State) : (untake ws s).mem = s.mem := rfl
@[simp] theorem untake_misuse (ws : List Word) (s : State) : (untake ws s).misuse = s.misuse := rfl
@[simp] theorem untake_streaming (ws : List Word) (s : State) : (untake ws s).streaming = s.streaming := rfl
@[simp] theorem untake_part (ws : List Word) (s : State) : (untake ws s).part = s.part := rfl
@[simp] theorem untake_latches (ws : List Word) (s : State) : (untake ws s).latches = s.latches := rfl
@[simp] theorem untake_draws (ws : List Word) (s : State) : (untake ws s).draws = s.draws := rfl
@[simp] theorem untake_fbDraw (ws : List Word) (s : State) : (untake ws s).fbDraw = s.fbDraw := rfl
@[simp] theorem untake_par (ws : List Word) (s : State) : (untake ws s).par = s.par := rfl

/-! `raiseFault` -/

@[simp] theorem raiseFault_phase (code : BitVec 4) (ws : List Word) (s : State) : (raiseFault code ws s).phase = s.phase := rfl
@[simp] theorem raiseFault_fault (code : BitVec 4) (ws : List Word) (s : State) : (raiseFault code ws s).fault = true := rfl
@[simp] theorem raiseFault_faultCode (code : BitVec 4) (ws : List Word) (s : State) : (raiseFault code ws s).faultCode = code := rfl
@[simp] theorem raiseFault_busy (code : BitVec 4) (ws : List Word) (s : State) : (raiseFault code ws s).busy = false := rfl
@[simp] theorem raiseFault_empty (code : BitVec 4) (ws : List Word) (s : State) : (raiseFault code ws s).empty = s.empty := rfl
@[simp] theorem raiseFault_cmdq (code : BitVec 4) (ws : List Word) (s : State) : (raiseFault code ws s).cmdq = ws ++ s.cmdq := rfl
@[simp] theorem raiseFault_rspq (code : BitVec 4) (ws : List Word) (s : State) : (raiseFault code ws s).rspq = s.rspq := rfl
@[simp] theorem raiseFault_resps (code : BitVec 4) (ws : List Word) (s : State) : (raiseFault code ws s).resps = s.resps := rfl
@[simp] theorem raiseFault_ctl (code : BitVec 4) (ws : List Word) (s : State) : (raiseFault code ws s).ctl = s.ctl := rfl
@[simp] theorem raiseFault_hist (code : BitVec 4) (ws : List Word) (s : State) : (raiseFault code ws s).hist = s.hist := rfl
@[simp] theorem raiseFault_mem (code : BitVec 4) (ws : List Word) (s : State) : (raiseFault code ws s).mem = s.mem := rfl
@[simp] theorem raiseFault_misuse (code : BitVec 4) (ws : List Word) (s : State) : (raiseFault code ws s).misuse = s.misuse := rfl
@[simp] theorem raiseFault_streaming (code : BitVec 4) (ws : List Word) (s : State) : (raiseFault code ws s).streaming = false := rfl
@[simp] theorem raiseFault_part (code : BitVec 4) (ws : List Word) (s : State) : (raiseFault code ws s).part = [] := rfl
@[simp] theorem raiseFault_latches (code : BitVec 4) (ws : List Word) (s : State) : (raiseFault code ws s).latches = s.latches := rfl
@[simp] theorem raiseFault_draws (code : BitVec 4) (ws : List Word) (s : State) : (raiseFault code ws s).draws = s.draws := rfl
@[simp] theorem raiseFault_fbDraw (code : BitVec 4) (ws : List Word) (s : State) : (raiseFault code ws s).fbDraw = s.fbDraw := rfl
@[simp] theorem raiseFault_par (code : BitVec 4) (ws : List Word) (s : State) : (raiseFault code ws s).par = s.par := rfl

/-! `complete` -/

@[simp] theorem complete_phase (o : Opcode) (ws : List Word) (s : State) : (complete o ws s).phase = s.phase := rfl
@[simp] theorem complete_fault (o : Opcode) (ws : List Word) (s : State) : (complete o ws s).fault = s.fault := rfl
@[simp] theorem complete_faultCode (o : Opcode) (ws : List Word) (s : State) : (complete o ws s).faultCode = s.faultCode := rfl
@[simp] theorem complete_busy (o : Opcode) (ws : List Word) (s : State) : (complete o ws s).busy = false := rfl
@[simp] theorem complete_empty (o : Opcode) (ws : List Word) (s : State) : (complete o ws s).empty = s.empty := rfl
@[simp] theorem complete_cmdq (o : Opcode) (ws : List Word) (s : State) : (complete o ws s).cmdq = s.cmdq := rfl
@[simp] theorem complete_rspq (o : Opcode) (ws : List Word) (s : State) : (complete o ws s).rspq = s.rspq ++ response o ws := rfl
@[simp] theorem complete_resps (o : Opcode) (ws : List Word) (s : State) : (complete o ws s).resps = s.resps ++ [response o ws] := rfl
@[simp] theorem complete_ctl (o : Opcode) (ws : List Word) (s : State) : (complete o ws s).ctl = s.ctl := rfl
@[simp] theorem complete_hist (o : Opcode) (ws : List Word) (s : State) : (complete o ws s).hist = s.hist := rfl
@[simp] theorem complete_mem (o : Opcode) (ws : List Word) (s : State) : (complete o ws s).mem = s.mem := rfl
@[simp] theorem complete_misuse (o : Opcode) (ws : List Word) (s : State) : (complete o ws s).misuse = s.misuse := rfl
@[simp] theorem complete_streaming (o : Opcode) (ws : List Word) (s : State) : (complete o ws s).streaming = false := rfl
@[simp] theorem complete_part (o : Opcode) (ws : List Word) (s : State) : (complete o ws s).part = [] := rfl
@[simp] theorem complete_latches (o : Opcode) (ws : List Word) (s : State) : (complete o ws s).latches = freeLatches s.draws := rfl
@[simp] theorem complete_draws (o : Opcode) (ws : List Word) (s : State) : (complete o ws s).draws = s.draws + 1 := rfl
@[simp] theorem complete_fbDraw (o : Opcode) (ws : List Word) (s : State) : (complete o ws s).fbDraw = s.fbDraw := rfl
@[simp] theorem complete_par (o : Opcode) (ws : List Word) (s : State) : (complete o ws s).par = s.par := rfl

/-! `setCmdq` -/

@[simp] theorem setCmdq_phase (ws : List Word) (s : State) : (setCmdq ws s).phase = s.phase := rfl
@[simp] theorem setCmdq_fault (ws : List Word) (s : State) : (setCmdq ws s).fault = s.fault := rfl
@[simp] theorem setCmdq_faultCode (ws : List Word) (s : State) : (setCmdq ws s).faultCode = s.faultCode := rfl
@[simp] theorem setCmdq_busy (ws : List Word) (s : State) : (setCmdq ws s).busy = s.busy := rfl
@[simp] theorem setCmdq_empty (ws : List Word) (s : State) : (setCmdq ws s).empty = s.empty := rfl
@[simp] theorem setCmdq_cmdq (ws : List Word) (s : State) : (setCmdq ws s).cmdq = ws := rfl
@[simp] theorem setCmdq_rspq (ws : List Word) (s : State) : (setCmdq ws s).rspq = s.rspq := rfl
@[simp] theorem setCmdq_resps (ws : List Word) (s : State) : (setCmdq ws s).resps = s.resps := rfl
@[simp] theorem setCmdq_ctl (ws : List Word) (s : State) : (setCmdq ws s).ctl = s.ctl := rfl
@[simp] theorem setCmdq_hist (ws : List Word) (s : State) : (setCmdq ws s).hist = s.hist := rfl
@[simp] theorem setCmdq_mem (ws : List Word) (s : State) : (setCmdq ws s).mem = s.mem := rfl
@[simp] theorem setCmdq_misuse (ws : List Word) (s : State) : (setCmdq ws s).misuse = s.misuse := rfl
@[simp] theorem setCmdq_streaming (ws : List Word) (s : State) : (setCmdq ws s).streaming = s.streaming := rfl
@[simp] theorem setCmdq_part (ws : List Word) (s : State) : (setCmdq ws s).part = s.part := rfl
@[simp] theorem setCmdq_latches (ws : List Word) (s : State) : (setCmdq ws s).latches = s.latches := rfl
@[simp] theorem setCmdq_draws (ws : List Word) (s : State) : (setCmdq ws s).draws = s.draws := rfl
@[simp] theorem setCmdq_fbDraw (ws : List Word) (s : State) : (setCmdq ws s).fbDraw = s.fbDraw := rfl
@[simp] theorem setCmdq_par (ws : List Word) (s : State) : (setCmdq ws s).par = s.par := rfl

/-! `giveBack` -/

@[simp] theorem giveBack_phase (s : State) : (giveBack s).phase = s.phase := rfl
@[simp] theorem giveBack_fault (s : State) : (giveBack s).fault = s.fault := rfl
@[simp] theorem giveBack_faultCode (s : State) : (giveBack s).faultCode = s.faultCode := rfl
@[simp] theorem giveBack_busy (s : State) : (giveBack s).busy = false := rfl
@[simp] theorem giveBack_empty (s : State) : (giveBack s).empty = s.empty := rfl
@[simp] theorem giveBack_cmdq (s : State) : (giveBack s).cmdq = s.part ++ s.cmdq := rfl
@[simp] theorem giveBack_rspq (s : State) : (giveBack s).rspq = s.rspq := rfl
@[simp] theorem giveBack_resps (s : State) : (giveBack s).resps = s.resps := rfl
@[simp] theorem giveBack_ctl (s : State) : (giveBack s).ctl = s.ctl := rfl
@[simp] theorem giveBack_hist (s : State) : (giveBack s).hist = s.hist := rfl
@[simp] theorem giveBack_mem (s : State) : (giveBack s).mem = s.mem := rfl
@[simp] theorem giveBack_misuse (s : State) : (giveBack s).misuse = s.misuse := rfl
@[simp] theorem giveBack_streaming (s : State) : (giveBack s).streaming = false := rfl
@[simp] theorem giveBack_part (s : State) : (giveBack s).part = [] := rfl
@[simp] theorem giveBack_latches (s : State) : (giveBack s).latches = s.latches := rfl
@[simp] theorem giveBack_draws (s : State) : (giveBack s).draws = s.draws := rfl
@[simp] theorem giveBack_fbDraw (s : State) : (giveBack s).fbDraw = s.fbDraw := rfl
@[simp] theorem giveBack_par (s : State) : (giveBack s).par = s.par := rfl

/-! `clearPart` -/

@[simp] theorem clearPart_phase (s : State) : (clearPart s).phase = s.phase := rfl
@[simp] theorem clearPart_fault (s : State) : (clearPart s).fault = s.fault := rfl
@[simp] theorem clearPart_faultCode (s : State) : (clearPart s).faultCode = s.faultCode := rfl
@[simp] theorem clearPart_busy (s : State) : (clearPart s).busy = s.busy := rfl
@[simp] theorem clearPart_empty (s : State) : (clearPart s).empty = s.empty := rfl
@[simp] theorem clearPart_cmdq (s : State) : (clearPart s).cmdq = s.cmdq := rfl
@[simp] theorem clearPart_rspq (s : State) : (clearPart s).rspq = s.rspq := rfl
@[simp] theorem clearPart_resps (s : State) : (clearPart s).resps = s.resps := rfl
@[simp] theorem clearPart_ctl (s : State) : (clearPart s).ctl = s.ctl := rfl
@[simp] theorem clearPart_hist (s : State) : (clearPart s).hist = s.hist := rfl
@[simp] theorem clearPart_mem (s : State) : (clearPart s).mem = s.mem := rfl
@[simp] theorem clearPart_misuse (s : State) : (clearPart s).misuse = s.misuse := rfl
@[simp] theorem clearPart_streaming (s : State) : (clearPart s).streaming = s.streaming := rfl
@[simp] theorem clearPart_part (s : State) : (clearPart s).part = [] := rfl
@[simp] theorem clearPart_latches (s : State) : (clearPart s).latches = s.latches := rfl
@[simp] theorem clearPart_draws (s : State) : (clearPart s).draws = s.draws := rfl
@[simp] theorem clearPart_fbDraw (s : State) : (clearPart s).fbDraw = s.fbDraw := rfl
@[simp] theorem clearPart_par (s : State) : (clearPart s).par = s.par := rfl

/-! `record` -/

@[simp] theorem record_phase (t : Txn) (s : State) : (record t s).phase = s.phase := rfl
@[simp] theorem record_fault (t : Txn) (s : State) : (record t s).fault = s.fault := rfl
@[simp] theorem record_faultCode (t : Txn) (s : State) : (record t s).faultCode = s.faultCode := rfl
@[simp] theorem record_busy (t : Txn) (s : State) : (record t s).busy = s.busy := rfl
@[simp] theorem record_empty (t : Txn) (s : State) : (record t s).empty = s.empty := rfl
@[simp] theorem record_cmdq (t : Txn) (s : State) : (record t s).cmdq = s.cmdq := rfl
@[simp] theorem record_rspq (t : Txn) (s : State) : (record t s).rspq = s.rspq := rfl
@[simp] theorem record_resps (t : Txn) (s : State) : (record t s).resps = s.resps := rfl
@[simp] theorem record_ctl (t : Txn) (s : State) : (record t s).ctl = s.ctl := rfl
@[simp] theorem record_hist (t : Txn) (s : State) : (record t s).hist = s.hist ++ [t] := rfl
@[simp] theorem record_mem (t : Txn) (s : State) : (record t s).mem = s.mem := rfl
@[simp] theorem record_misuse (t : Txn) (s : State) : (record t s).misuse = s.misuse := rfl
@[simp] theorem record_streaming (t : Txn) (s : State) : (record t s).streaming = s.streaming := rfl
@[simp] theorem record_part (t : Txn) (s : State) : (record t s).part = s.part := rfl
@[simp] theorem record_latches (t : Txn) (s : State) : (record t s).latches = s.latches := rfl
@[simp] theorem record_draws (t : Txn) (s : State) : (record t s).draws = s.draws := rfl
@[simp] theorem record_fbDraw (t : Txn) (s : State) : (record t s).fbDraw = s.fbDraw := rfl
@[simp] theorem record_par (t : Txn) (s : State) : (record t s).par = s.par := rfl

/-! `setReady` -/

@[simp] theorem setReady_phase (s : State) : (setReady s).phase = .ready := rfl
@[simp] theorem setReady_fault (s : State) : (setReady s).fault = s.fault := rfl
@[simp] theorem setReady_faultCode (s : State) : (setReady s).faultCode = s.faultCode := rfl
@[simp] theorem setReady_busy (s : State) : (setReady s).busy = s.busy := rfl
@[simp] theorem setReady_empty (s : State) : (setReady s).empty = s.empty := rfl
@[simp] theorem setReady_cmdq (s : State) : (setReady s).cmdq = s.cmdq := rfl
@[simp] theorem setReady_rspq (s : State) : (setReady s).rspq = s.rspq := rfl
@[simp] theorem setReady_resps (s : State) : (setReady s).resps = s.resps := rfl
@[simp] theorem setReady_ctl (s : State) : (setReady s).ctl = s.ctl := rfl
@[simp] theorem setReady_hist (s : State) : (setReady s).hist = s.hist := rfl
@[simp] theorem setReady_mem (s : State) : (setReady s).mem = s.mem := rfl
@[simp] theorem setReady_misuse (s : State) : (setReady s).misuse = s.misuse := rfl
@[simp] theorem setReady_streaming (s : State) : (setReady s).streaming = s.streaming := rfl
@[simp] theorem setReady_part (s : State) : (setReady s).part = s.part := rfl
@[simp] theorem setReady_latches (s : State) : (setReady s).latches = s.latches := rfl
@[simp] theorem setReady_draws (s : State) : (setReady s).draws = s.draws := rfl
@[simp] theorem setReady_fbDraw (s : State) : (setReady s).fbDraw = s.fbDraw := rfl
@[simp] theorem setReady_par (s : State) : (setReady s).par = s.par := rfl

/-! `hold` -/

@[simp] theorem hold_phase (st : Bool) (ws : List Word) (s : State) : (hold st ws s).phase = s.phase := rfl
@[simp] theorem hold_fault (st : Bool) (ws : List Word) (s : State) : (hold st ws s).fault = s.fault := rfl
@[simp] theorem hold_faultCode (st : Bool) (ws : List Word) (s : State) : (hold st ws s).faultCode = s.faultCode := rfl
@[simp] theorem hold_busy (st : Bool) (ws : List Word) (s : State) : (hold st ws s).busy = true := rfl
@[simp] theorem hold_empty (st : Bool) (ws : List Word) (s : State) : (hold st ws s).empty = s.empty := rfl
@[simp] theorem hold_cmdq (st : Bool) (ws : List Word) (s : State) : (hold st ws s).cmdq = [] := rfl
@[simp] theorem hold_rspq (st : Bool) (ws : List Word) (s : State) : (hold st ws s).rspq = s.rspq := rfl
@[simp] theorem hold_resps (st : Bool) (ws : List Word) (s : State) : (hold st ws s).resps = s.resps := rfl
@[simp] theorem hold_ctl (st : Bool) (ws : List Word) (s : State) : (hold st ws s).ctl = s.ctl := rfl
@[simp] theorem hold_hist (st : Bool) (ws : List Word) (s : State) : (hold st ws s).hist = s.hist := rfl
@[simp] theorem hold_mem (st : Bool) (ws : List Word) (s : State) : (hold st ws s).mem = s.mem := rfl
@[simp] theorem hold_misuse (st : Bool) (ws : List Word) (s : State) : (hold st ws s).misuse = s.misuse := rfl
@[simp] theorem hold_streaming (st : Bool) (ws : List Word) (s : State) : (hold st ws s).streaming = st := rfl
@[simp] theorem hold_part (st : Bool) (ws : List Word) (s : State) : (hold st ws s).part = ws := rfl
@[simp] theorem hold_latches (st : Bool) (ws : List Word) (s : State) : (hold st ws s).latches = s.latches := rfl
@[simp] theorem hold_draws (st : Bool) (ws : List Word) (s : State) : (hold st ws s).draws = s.draws := rfl
@[simp] theorem hold_fbDraw (st : Bool) (ws : List Word) (s : State) : (hold st ws s).fbDraw = s.fbDraw := rfl
@[simp] theorem hold_par (st : Bool) (ws : List Word) (s : State) : (hold st ws s).par = s.par := rfl

/-! `hostSend` -/

@[simp] theorem hostSend_phase (ws : List Word) (s : State) : (hostSend ws s).phase = s.phase := rfl
@[simp] theorem hostSend_fault (ws : List Word) (s : State) : (hostSend ws s).fault = s.fault := rfl
@[simp] theorem hostSend_faultCode (ws : List Word) (s : State) : (hostSend ws s).faultCode = s.faultCode := rfl
@[simp] theorem hostSend_busy (ws : List Word) (s : State) : (hostSend ws s).busy = s.busy := rfl
@[simp] theorem hostSend_empty (ws : List Word) (s : State) : (hostSend ws s).empty = s.empty := rfl
@[simp] theorem hostSend_cmdq (ws : List Word) (s : State) : (hostSend ws s).cmdq = s.cmdq ++ ws := rfl
@[simp] theorem hostSend_rspq (ws : List Word) (s : State) : (hostSend ws s).rspq = s.rspq := rfl
@[simp] theorem hostSend_resps (ws : List Word) (s : State) : (hostSend ws s).resps = s.resps := rfl
@[simp] theorem hostSend_ctl (ws : List Word) (s : State) : (hostSend ws s).ctl = s.ctl := rfl
@[simp] theorem hostSend_hist (ws : List Word) (s : State) : (hostSend ws s).hist = s.hist := rfl
@[simp] theorem hostSend_mem (ws : List Word) (s : State) : (hostSend ws s).mem = s.mem := rfl
@[simp] theorem hostSend_misuse (ws : List Word) (s : State) : (hostSend ws s).misuse = s.misuse := rfl
@[simp] theorem hostSend_streaming (ws : List Word) (s : State) : (hostSend ws s).streaming = s.streaming := rfl
@[simp] theorem hostSend_part (ws : List Word) (s : State) : (hostSend ws s).part = s.part := rfl
@[simp] theorem hostSend_latches (ws : List Word) (s : State) : (hostSend ws s).latches = s.latches := rfl
@[simp] theorem hostSend_draws (ws : List Word) (s : State) : (hostSend ws s).draws = s.draws := rfl
@[simp] theorem hostSend_fbDraw (ws : List Word) (s : State) : (hostSend ws s).fbDraw = s.fbDraw := rfl
@[simp] theorem hostSend_par (ws : List Word) (s : State) : (hostSend ws s).par = s.par := rfl

/-! `hostTake` -/

@[simp] theorem hostTake_phase (n : Nat) (s : State) : (hostTake n s).phase = s.phase := rfl
@[simp] theorem hostTake_fault (n : Nat) (s : State) : (hostTake n s).fault = s.fault := rfl
@[simp] theorem hostTake_faultCode (n : Nat) (s : State) : (hostTake n s).faultCode = s.faultCode := rfl
@[simp] theorem hostTake_busy (n : Nat) (s : State) : (hostTake n s).busy = s.busy := rfl
@[simp] theorem hostTake_empty (n : Nat) (s : State) : (hostTake n s).empty = s.empty := rfl
@[simp] theorem hostTake_cmdq (n : Nat) (s : State) : (hostTake n s).cmdq = s.cmdq := rfl
@[simp] theorem hostTake_rspq (n : Nat) (s : State) : (hostTake n s).rspq = s.rspq.drop n := rfl
@[simp] theorem hostTake_resps (n : Nat) (s : State) : (hostTake n s).resps = s.resps := rfl
@[simp] theorem hostTake_ctl (n : Nat) (s : State) : (hostTake n s).ctl = s.ctl := rfl
@[simp] theorem hostTake_hist (n : Nat) (s : State) : (hostTake n s).hist = s.hist := rfl
@[simp] theorem hostTake_mem (n : Nat) (s : State) : (hostTake n s).mem = s.mem := rfl
@[simp] theorem hostTake_misuse (n : Nat) (s : State) : (hostTake n s).misuse = s.misuse := rfl
@[simp] theorem hostTake_streaming (n : Nat) (s : State) : (hostTake n s).streaming = s.streaming := rfl
@[simp] theorem hostTake_part (n : Nat) (s : State) : (hostTake n s).part = s.part := rfl
@[simp] theorem hostTake_latches (n : Nat) (s : State) : (hostTake n s).latches = s.latches := rfl
@[simp] theorem hostTake_draws (n : Nat) (s : State) : (hostTake n s).draws = s.draws := rfl
@[simp] theorem hostTake_fbDraw (n : Nat) (s : State) : (hostTake n s).fbDraw = s.fbDraw := rfl
@[simp] theorem hostTake_par (n : Nat) (s : State) : (hostTake n s).par = s.par := rfl

/-! `fbWrite`: everything but the framebuffer, the misuse record and the draw it reads from. -/

@[simp] theorem fbWrite_phase (x y : Word) (d : Pixel) (s : State) : (fbWrite x y d s).phase = s.phase := by
  unfold fbWrite; split <;> rfl
@[simp] theorem fbWrite_fault (x y : Word) (d : Pixel) (s : State) : (fbWrite x y d s).fault = s.fault := by
  unfold fbWrite; split <;> rfl
@[simp] theorem fbWrite_faultCode (x y : Word) (d : Pixel) (s : State) : (fbWrite x y d s).faultCode = s.faultCode := by
  unfold fbWrite; split <;> rfl
@[simp] theorem fbWrite_busy (x y : Word) (d : Pixel) (s : State) : (fbWrite x y d s).busy = s.busy := by
  unfold fbWrite; split <;> rfl
@[simp] theorem fbWrite_empty (x y : Word) (d : Pixel) (s : State) : (fbWrite x y d s).empty = s.empty := by
  unfold fbWrite; split <;> rfl
@[simp] theorem fbWrite_cmdq (x y : Word) (d : Pixel) (s : State) : (fbWrite x y d s).cmdq = s.cmdq := by
  unfold fbWrite; split <;> rfl
@[simp] theorem fbWrite_rspq (x y : Word) (d : Pixel) (s : State) : (fbWrite x y d s).rspq = s.rspq := by
  unfold fbWrite; split <;> rfl
@[simp] theorem fbWrite_resps (x y : Word) (d : Pixel) (s : State) : (fbWrite x y d s).resps = s.resps := by
  unfold fbWrite; split <;> rfl
@[simp] theorem fbWrite_ctl (x y : Word) (d : Pixel) (s : State) : (fbWrite x y d s).ctl = s.ctl := by
  unfold fbWrite; split <;> rfl
@[simp] theorem fbWrite_hist (x y : Word) (d : Pixel) (s : State) : (fbWrite x y d s).hist = s.hist := by
  unfold fbWrite; split <;> rfl
@[simp] theorem fbWrite_streaming (x y : Word) (d : Pixel) (s : State) : (fbWrite x y d s).streaming = s.streaming := by
  unfold fbWrite; split <;> rfl
@[simp] theorem fbWrite_part (x y : Word) (d : Pixel) (s : State) : (fbWrite x y d s).part = s.part := by
  unfold fbWrite; split <;> rfl
@[simp] theorem fbWrite_latches (x y : Word) (d : Pixel) (s : State) : (fbWrite x y d s).latches = s.latches := by
  unfold fbWrite; split <;> rfl
@[simp] theorem fbWrite_draws (x y : Word) (d : Pixel) (s : State) : (fbWrite x y d s).draws = s.draws := by
  unfold fbWrite; split <;> rfl
@[simp] theorem fbWrite_par (x y : Word) (d : Pixel) (s : State) : (fbWrite x y d s).par = s.par := by
  unfold fbWrite; split <;> rfl

/-! `handlePerforms`: everything but the handle's own state and the framebuffer. -/

@[simp] theorem handlePerforms_phase (t : Txn) (s : State) : (handlePerforms t s).phase = s.phase := by
  cases t <;> simp [handlePerforms]
@[simp] theorem handlePerforms_fault (t : Txn) (s : State) : (handlePerforms t s).fault = s.fault := by
  cases t <;> simp [handlePerforms]
@[simp] theorem handlePerforms_faultCode (t : Txn) (s : State) : (handlePerforms t s).faultCode = s.faultCode := by
  cases t <;> simp [handlePerforms]
@[simp] theorem handlePerforms_busy (t : Txn) (s : State) : (handlePerforms t s).busy = s.busy := by
  cases t <;> simp [handlePerforms]
@[simp] theorem handlePerforms_empty (t : Txn) (s : State) : (handlePerforms t s).empty = s.empty := by
  cases t <;> simp [handlePerforms]
@[simp] theorem handlePerforms_cmdq (t : Txn) (s : State) : (handlePerforms t s).cmdq = s.cmdq := by
  cases t <;> simp [handlePerforms]
@[simp] theorem handlePerforms_rspq (t : Txn) (s : State) : (handlePerforms t s).rspq = s.rspq := by
  cases t <;> simp [handlePerforms]
@[simp] theorem handlePerforms_resps (t : Txn) (s : State) : (handlePerforms t s).resps = s.resps := by
  cases t <;> simp [handlePerforms]
@[simp] theorem handlePerforms_hist (t : Txn) (s : State) : (handlePerforms t s).hist = s.hist := by
  cases t <;> simp [handlePerforms]
@[simp] theorem handlePerforms_streaming (t : Txn) (s : State) : (handlePerforms t s).streaming = s.streaming := by
  cases t <;> simp [handlePerforms]
@[simp] theorem handlePerforms_part (t : Txn) (s : State) : (handlePerforms t s).part = s.part := by
  cases t <;> simp [handlePerforms]
@[simp] theorem handlePerforms_latches (t : Txn) (s : State) : (handlePerforms t s).latches = s.latches := by
  cases t <;> simp [handlePerforms]
@[simp] theorem handlePerforms_draws (t : Txn) (s : State) : (handlePerforms t s).draws = s.draws := by
  cases t <;> simp [handlePerforms]
@[simp] theorem handlePerforms_par (t : Txn) (s : State) : (handlePerforms t s).par = s.par := by
  cases t <;> simp [handlePerforms]

end Sys2Proof.Machine
end

