-- ==== Sys2Proof/Laws/Ops.lean ====
section
/-! SUPPORT. What each shared operation can do, said once: colours and mode words, the frame of a command, one
transaction, one pixel. -/

namespace Sys2Proof.Machine

/-! ### Sequencing -/

@[simp] theorem andThen_next (s : State) (f : State → Out) : andThen (.next s) f = f s := rfl
@[simp] theorem andThen_fault (r : Fault) (f : State → Out) : andThen (.fault r) f = .fault r := rfl
@[simp] theorem andThen_refused (r : Refusal) (f : State → Out) : andThen (.refused r) f = .refused r := rfl

theorem andThen_assoc (o : Out) (f g : State → Out) :
    andThen (andThen o f) g = andThen o (fun s => andThen (f s) g) := by
  cases o <;> rfl

/-- A sequence answers a next state only through a next state of its first part. -/
theorem andThen_eq_next {o : Out} {f : State → Out} {t : State} (h : andThen o f = .next t) :
    ∃ s, o = .next s ∧ f s = .next t := by
  cases o with
  | next s => exact ⟨s, rfl, h⟩
  | fault r => cases h
  | refused r => cases h

/-! ### Operand words -/

/-- Bit by bit, the reserved mask of a `COLOR` word covers exactly what `colorOf` does not read. -/
theorem colorOf_colorWord (c : Color) : colorOf (colorWord c) = some c := by
  obtain ⟨r, g, b⟩ := c
  have h : colorWord ⟨r, g, b⟩ &&& colorReserved = 0 := by
    ext i hi
    simp only [colorWord, colorReserved]
    interval_cases i <;> simp
  simp only [colorOf, h, if_true, Option.some.injEq, Color.mk.injEq]
  refine ⟨?_, ?_, ?_⟩ <;>
  · ext i hi
    simp only [colorWord, BitVec.getElem_extractLsb']
    interval_cases i <;> simp

theorem colorOf_eq_some {cw : Word} {c : Color} : colorOf cw = some c ↔ cw = colorWord c := by
  constructor
  · intro h
    unfold colorOf at h
    split at h
    · rename_i h0
      simp only [Option.some.injEq] at h
      subst h
      have hb : ∀ i, (hi : i < 32) → colorReserved[i] = true → cw[i] = false := by
        intro i hi h1
        have := congrArg (fun v : Word => v.getLsbD i) h0
        simpa [BitVec.getLsbD_eq_getElem hi, h1] using this
      ext i hi
      have := hb i hi
      simp only [colorWord]
      interval_cases i <;> simp_all [colorReserved]
    · cases h
  · rintro rfl; exact colorOf_colorWord c

theorem clkmOf_eq_some {m : Word} {b : BitVec 1} : clkmOf m = some b ↔ m = b.setWidth 32 := by
  constructor
  · intro h
    unfold clkmOf at h
    split at h
    · rename_i h0
      simp only [Option.some.injEq] at h
      subst h
      have hb : ∀ i, (hi : i < 32) → clkmReserved[i] = true → m[i] = false := by
        intro i hi h1
        have := congrArg (fun v : Word => v.getLsbD i) h0
        simpa [BitVec.getLsbD_eq_getElem hi, h1] using this
      ext i hi
      have := hb i hi
      interval_cases i <;> simp_all [clkmReserved, BitVec.getElem_setWidth]
    · cases h
  · rintro rfl
    have : b = 0 ∨ b = 1 := by revert b; decide
    rcases this with rfl | rfl <;> decide

@[simp] theorem takeColor_colorWord (c : Color) (ws : List Word) (use : Color → State → Out) (s : State) :
    takeColor (colorWord c) ws use s = use c (loadColor c s) := by
  simp [takeColor, colorOf_colorWord]

theorem takeColor_bad {cw : Word} (h : colorOf cw = none) (ws : List Word) (use : Color → State → Out) (s : State) :
    takeColor cw ws use s = .next (raiseFault codeReservedNonzero ws s) := by
  simp [takeColor, h]

/-- A `COLOR` word is the word of a colour, or refused. -/
theorem colorWord_or_bad (cw : Word) : (∃ c, cw = colorWord c) ∨ colorOf cw = none := by
  cases h : colorOf cw with
  | none => exact .inr rfl
  | some c => exact .inl ⟨c, colorOf_eq_some.1 h⟩

/-- A colour word that is taken is used, or it is malformed and the command stops. -/
theorem takeColor_next {cw : Word} {ws : List Word} {use : Color → State → Out} {s t : State}
    (h : takeColor cw ws use s = .next t) :
    (∃ c, cw = colorWord c ∧ use c (loadColor c s) = .next t) ∨ (colorOf cw = none ∧ t = raiseFault codeReservedNonzero ws s) := by
  rcases colorWord_or_bad cw with ⟨c, rfl⟩ | hb
  · exact .inl ⟨c, rfl, by simpa using h⟩
  · rw [takeColor_bad hb] at h
    cases h
    exact .inr ⟨hb, rfl⟩

/-! ### Boxes and coordinates -/

theorem contains_iff (b : Box) (x y : Int) :
    contains b (x, y) = true ↔ b.x0 ≤ x ∧ x < b.x1 ∧ b.y0 ≤ y ∧ y < b.y1 := by
  simp [contains, and_assoc]

theorem boxEmpty_iff (b : Box) : boxEmpty b = true ↔ b.x1 ≤ b.x0 ∨ b.y1 ≤ b.y0 := by
  simp [boxEmpty]

theorem boxEmpty_eq_false (b : Box) : boxEmpty b = false ↔ b.x0 < b.x1 ∧ b.y0 < b.y1 := by
  simp [boxEmpty]

theorem inRange_iff (p : Params) (x y : Word) :
    inRange p x y = true ↔ 0 ≤ x.toInt ∧ x.toInt < p.W ∧ 0 ≤ y.toInt ∧ y.toInt < p.H := by
  simp [inRange, and_assoc]

/-! ### The frame of a command -/

theorem command_run {i : Instr} {s : State} (hi : Idle s) (hp : phaseOk i.opcode s.phase = true)
    (body : State → Out) : command i body s = body (takeHeader i.opcode.code s) := by
  simp [command, hi.1, hi.2, hp]

theorem command_wrong_phase {i : Instr} {s : State} (hi : Idle s) (hp : phaseOk i.opcode s.phase = false)
    (body : State → Out) :
    command i body s = .next (raiseFault codeProtocol i.operandWords (takeHeader i.opcode.code s)) := by
  simp [command, hi.1, hi.2, hp]

theorem command_not_idle {i : Instr} {s : State} (hi : ¬ Idle s) (body : State → Out) :
    command i body s = .next (untake (encode i) s) := by
  unfold command
  rw [if_pos]
  rcases s.fault.eq_false_or_eq_true with h | h
  · exact .inl h
  · exact .inr (by simpa [Idle, h] using hi)

/-- Everything a command can do. -/
theorem command_cases (i : Instr) (body : State → Out) (s : State) :
    (¬ Idle s ∧ command i body s = .next (untake (encode i) s)) ∨
    (Idle s ∧ phaseOk i.opcode s.phase = true ∧ command i body s = body (takeHeader i.opcode.code s)) ∨
    (Idle s ∧ phaseOk i.opcode s.phase = false ∧
      command i body s = .next (raiseFault codeProtocol i.operandWords (takeHeader i.opcode.code s))) := by
  by_cases hi : Idle s
  · cases hp : phaseOk i.opcode s.phase with
    | true => exact .inr (.inl ⟨hi, rfl, command_run hi hp body⟩)
    | false => exact .inr (.inr ⟨hi, rfl, command_wrong_phase hi hp body⟩)
  · exact .inl ⟨hi, command_not_idle hi body⟩

/-! ### One transaction -/

theorem ctl_eq_next {t : Txn} {s : State} (h : handleAccepts t s = true) :
    ctl t s = .next (handlePerforms t (record t s)) := by
  simp [ctl, h]

theorem ctl_eq_fault {t : Txn} {s : State} (h : handleAccepts t s = false) : ctl t s = .fault .handleOrder := by
  simp [ctl, h]

theorem ctl_cases (t : Txn) (s : State) :
    (handleAccepts t s = true ∧ ctl t s = .next (handlePerforms t (record t s))) ∨
    (handleAccepts t s = false ∧ ctl t s = .fault .handleOrder) := by
  cases h : handleAccepts t s with
  | true => exact .inl ⟨rfl, ctl_eq_next h⟩
  | false => exact .inr ⟨rfl, ctl_eq_fault h⟩

/-- What is known of the framebuffer after a write is what the replay of its transaction makes of what was known. -/
theorem fbWrite_replay (l : BitVec 8) (x y : Word) (d : Pixel) (s : State) :
    ((fbWrite x y d s).misuse, (fbWrite x y d s).mem) = replayFb s.par (s.misuse, s.mem) (.writePixel l x y d) := by
  unfold fbWrite replayFb
  split <;> simp_all

/-- An in-range write (R126). -/
theorem fbWrite_inRange {x y : Word} {s : State} (hr : inRange s.par x y = true) (d : Pixel) :
    fbWrite x y d s = { s with mem := Memory.writePixel s.mem (pixelIndex s.par x y) d } := by
  simp [fbWrite, hr]

/-- The draw of free values after a write: a fresh one after an out-of-range write only (R138). -/
theorem fbWrite_draw (l : BitVec 8) (x y : Word) (d : Pixel) (s : State) :
    (fbWrite x y d s).fbDraw = s.fbDraw + [Txn.writePixel l x y d].countP (stray s.par) := by
  unfold fbWrite
  split <;> simp_all [stray]

/-! ### Parts of a state that a drawing loop may change -/

/-- `t` is `s` but for the history, the framebuffer and the latches. -/
structure OnlyDraws (s t : State) : Prop where
  phase : t.phase = s.phase
  fault : t.fault = s.fault
  faultCode : t.faultCode = s.faultCode
  busy : t.busy = s.busy
  empty : t.empty = s.empty
  cmdq : t.cmdq = s.cmdq
  rspq : t.rspq = s.rspq
  resps : t.resps = s.resps
  ctl : t.ctl = s.ctl
  streaming : t.streaming = s.streaming
  part : t.part = s.part
  draws : t.draws = s.draws
  par : t.par = s.par
  op : t.latches.op = s.latches.op
  n : t.latches.n = s.latches.n

theorem OnlyDraws.refl (s : State) : OnlyDraws s s := by constructor <;> rfl

theorem OnlyDraws.trans {s t u : State} (h : OnlyDraws s t) (g : OnlyDraws t u) : OnlyDraws s u := by
  constructor
  · rw [g.phase, h.phase]
  · rw [g.fault, h.fault]
  · rw [g.faultCode, h.faultCode]
  · rw [g.busy, h.busy]
  · rw [g.empty, h.empty]
  · rw [g.cmdq, h.cmdq]
  · rw [g.rspq, h.rspq]
  · rw [g.resps, h.resps]
  · rw [g.ctl, h.ctl]
  · rw [g.streaming, h.streaming]
  · rw [g.part, h.part]
  · rw [g.draws, h.draws]
  · rw [g.par, h.par]
  · rw [g.op, h.op]
  · rw [g.n, h.n]

theorem Performs.trans {ts us : List Txn} {s t u : State} (hp : t.par = s.par) (h : Performs ts s t)
    (g : Performs us t u) : Performs (ts ++ us) s u := by
  obtain ⟨h1, h2, h3⟩ := h
  obtain ⟨g1, g2, g3⟩ := g
  refine ⟨by rw [g1, h1, List.append_assoc], by rw [g2, h2], ?_⟩
  rw [g3, hp, h3, List.foldl_append]

/-! ### One pixel -/

/-- The state after one pixel has left CPCU (R99, R126). -/
def putPixel (x y : Word) (c : Color) (s : State) : State :=
  fbWrite x y (pack c) (record (.writePixel s.par.layerId x y (pack c)) (loadColor c (loadPoint x y s)))

theorem emit_eq_next {s : State} (h : s.ctl.session = true) (x y : Word) (c : Color) :
    emit x y c s = .next (putPixel x y c s) := by
  simp [emit, ctl, handleAccepts, handlePerforms, putPixel, h]

theorem emit_eq_fault {s : State} (h : s.ctl.session = false) (x y : Word) (c : Color) :
    emit x y c s = .fault .handleOrder := by
  simp [emit, ctl, handleAccepts, h]

/-- A pixel loads its colour itself (R99), whichever stood in `COL` before. -/
@[simp] theorem emit_loadColor (x y : Word) (c : Color) (s : State) : emit x y c (loadColor c s) = emit x y c s := rfl

theorem putPixel_onlyDraws (x y : Word) (c : Color) (s : State) : OnlyDraws s (putPixel x y c s) := by
  constructor <;> simp [putPixel]

@[simp] theorem putPixel_k (x y : Word) (c : Color) (s : State) : (putPixel x y c s).latches.k = s.latches.k := by
  simp [putPixel]

theorem putPixel_performs (x y : Word) (c : Color) (s : State) :
    Performs [.writePixel s.par.layerId x y (pack c)] s (putPixel x y c s) :=
  ⟨by simp [putPixel], by simp [putPixel],
    by simpa [putPixel] using fbWrite_replay s.par.layerId x y (pack c)
        (record (.writePixel s.par.layerId x y (pack c)) (loadColor c (loadPoint x y s)))⟩

end Sys2Proof.Machine
end

