-- ==== Sys2Proof/Laws/Draw.lean ====
section
/-! SUPPORT. What the loops of the drawing commands can do, said once each: the state after the elements that are well
formed, and the three ways a loop ends. -/

namespace Sys2Proof.Machine

theorem OnlyDraws.loadColor (c : Color) (s : State) : OnlyDraws s (loadColor c s) := by constructor <;> simp

theorem OnlyDraws.advance (s : State) : OnlyDraws s (advance s) := by constructor <;> simp

theorem Performs.refl (s : State) : Performs [] s s := ⟨(List.append_nil _).symm, rfl, rfl⟩

theorem advance_performs (s : State) : Performs [] s (advance s) := ⟨(List.append_nil _).symm, rfl, rfl⟩

/-! ### DRAWPX -/

/-- The state after the pixels `px` of a DRAWPX stream. -/
def drawn : List (Word × Word × Color) → State → State
  | [], s => s
  | p :: ps, s => drawn ps (advance (putPixel p.1 p.2.1 p.2.2 s))

theorem drawn_append (ps qs : List (Word × Word × Color)) (s : State) : drawn (ps ++ qs) s = drawn qs (drawn ps s) := by
  induction ps generalizing s with
  | nil => rfl
  | cons p ps ih => exact ih _

theorem drawn_onlyDraws (ps : List (Word × Word × Color)) (s : State) : OnlyDraws s (drawn ps s) := by
  induction ps generalizing s with
  | nil => exact .refl s
  | cons p ps ih => exact ((putPixel_onlyDraws _ _ _ s).trans (.advance _)).trans (ih _)

theorem drawn_k (ps : List (Word × Word × Color)) (s : State) :
    (drawn ps s).latches.k = s.latches.k + BitVec.ofNat 64 ps.length := by
  induction ps generalizing s with
  | nil => simp [drawn]
  | cons p ps ih =>
    simp only [drawn, ih, advance_latches, putPixel_k, List.length_cons]
    rw [BitVec.add_assoc, ← BitVec.ofNat_add_ofNat ps.length 1, BitVec.add_comm (BitVec.ofNat 64 ps.length)]
    rfl

theorem drawn_performs (ps : List (Word × Word × Color)) (s : State) :
    Performs (ps.map (pixelOf s.par)) s (drawn ps s) := by
  induction ps generalizing s with
  | nil => exact .refl s
  | cons p ps ih =>
    have h1 := putPixel_performs p.1 p.2.1 p.2.2 s
    have hp := (putPixel_onlyDraws p.1 p.2.1 p.2.2 s).par
    have h2 := h1.trans hp (advance_performs _)
    have h3 := ih (advance (putPixel p.1 p.2.1 p.2.2 s))
    have := h2.trans (by simp [hp]) h3
    simpa [drawn, pixelOf, hp] using this

/-- With the controller handle constructed, the well-formed elements at the head of a stream are drawn. -/
theorem drawElems_good {s : State} (hs : s.ctl.session = true) (ps : List (Word × Word × Color)) (es : List Elem) :
    drawElems (ps.map elemOf ++ es) s = drawElems es (drawn ps s) := by
  induction ps generalizing s with
  | nil => rfl
  | cons p ps ih =>
    have := (putPixel_onlyDraws p.1 p.2.1 p.2.2 s).ctl
    simp only [List.map_cons, List.cons_append, drawElems, elemOf, takeColor_colorWord, emit_loadColor, emit_eq_next hs,
      andThen_next, drawn]
    exact ih (by simpa [this] using hs)

/-- A stream is the elements with legal colour words up to the first without one. -/
theorem elems_cases (es : List Elem) :
    (∃ ps : List (Word × Word × Color), es = ps.map elemOf) ∨
    (∃ (ps : List (Word × Word × Color)) (e : Elem) (fs : List Elem),
      es = ps.map elemOf ++ e :: fs ∧ colorOf e.c = none) := by
  induction es with
  | nil => exact .inl ⟨[], rfl⟩
  | cons e es ih =>
    rcases colorWord_or_bad e.c with ⟨c, hc⟩ | hb
    · have he : e = elemOf (e.x, e.y, c) := by simp [elemOf, ← hc]
      rcases ih with ⟨ps, h⟩ | ⟨ps, f, fs, h, hf⟩
      · exact .inl ⟨(e.x, e.y, c) :: ps, by simp [← he, h]⟩
      · exact .inr ⟨(e.x, e.y, c) :: ps, f, fs, by simp [← he, h], hf⟩
    · exact .inr ⟨[], e, es, rfl, hb⟩

/-- Everything the loop of DRAWPX can do. -/
theorem drawElems_cases (es : List Elem) (s : State) :
    (∃ ps : List (Word × Word × Color), es = ps.map elemOf ∧ (ps = [] ∨ s.ctl.session = true) ∧
      drawElems es s = .next (drawn ps s)) ∨
    (∃ (ps : List (Word × Word × Color)) (e : Elem) (fs : List Elem),
      es = ps.map elemOf ++ e :: fs ∧ colorOf e.c = none ∧ (ps = [] ∨ s.ctl.session = true) ∧
      drawElems es s = .next (raiseFault codeReservedNonzero (elemWords fs) (drawn ps s))) ∨
    (s.ctl.session = false ∧ drawElems es s = .fault .handleOrder) := by
  have hbad : ∀ (e : Elem) (fs : List Elem) (s : State), colorOf e.c = none →
      drawElems (e :: fs) s = .next (raiseFault codeReservedNonzero (elemWords fs) s) := by
    intro e fs s he
    simp [drawElems, takeColor_bad he]
  rcases Bool.eq_false_or_eq_true s.ctl.session with hs | hs
  · rcases elems_cases es with ⟨ps, rfl⟩ | ⟨ps, e, fs, rfl, he⟩
    · refine .inl ⟨ps, rfl, .inr hs, ?_⟩
      have := drawElems_good hs ps []
      simpa [drawElems] using this
    · refine .inr (.inl ⟨ps, e, fs, rfl, he, .inr hs, ?_⟩)
      rw [drawElems_good hs, hbad e fs _ he]
  · cases es with
    | nil => exact .inl ⟨[], rfl, .inl rfl, rfl⟩
    | cons e es =>
      rcases colorWord_or_bad e.c with ⟨c, hc⟩ | hb
      · exact .inr (.inr ⟨hs, by simp [drawElems, hc, emit_eq_fault hs]⟩)
      · exact .inr (.inl ⟨[], e, es, rfl, hb, .inl rfl, hbad e es s hb⟩)

/-! ### FILLA -/

/-- The state after one well-formed colour word of FILLA: `COL` is loaded, and the pixel drawn if it has a place. -/
def fillaPut (c : Color) (s : State) : State :=
  let r := latchedRect s.latches
  let k := s.latches.k.toNat
  if s.empty = false ∧ k < r.w * r.h ∧ contains (latchedBox s.latches) (point r k) = true then
    putPixel (BitVec.ofInt 32 (point r k).1) (BitVec.ofInt 32 (point r k).2) c s
  else loadColor c s

theorem fillaPoint_eq_next {s : State} (hs : s.ctl.session = true) (c : Color) :
    fillaPoint c (loadColor c s) = .next (fillaPut c s) := by
  simp only [fillaPoint, fillaPut, emitAt, emit_loadColor, emit_eq_next hs]
  exact (apply_ite Host.Outcome.next _ _ _).symm

theorem fillaPoint_cases (c : Color) (s : State) :
    (fillaPoint c (loadColor c s) = .next (fillaPut c s) ∧ (s.ctl.session = true ∨ fillaPut c s = loadColor c s)) ∨
    (s.ctl.session = false ∧ fillaPoint c (loadColor c s) = .fault .handleOrder) := by
  rcases Bool.eq_false_or_eq_true s.ctl.session with hs | hs
  · exact .inl ⟨fillaPoint_eq_next hs c, .inl hs⟩
  · simp only [fillaPoint, fillaPut, emitAt, emit_loadColor, emit_eq_fault hs]
    by_cases hd : s.empty = false ∧ s.latches.k.toNat < (latchedRect s.latches).w * (latchedRect s.latches).h ∧
        contains (latchedBox s.latches) (point (latchedRect s.latches) s.latches.k.toNat) = true
    · exact .inr ⟨hs, if_pos hd⟩
    · exact .inl ⟨(if_neg hd).trans (by rw [if_neg hd]), .inr (if_neg hd)⟩

/-- The latches the loop of FILLA reads, which it does not write. -/
structure SameGeometry (s t : State) : Prop where
  rect : latchedRect t.latches = latchedRect s.latches
  box : latchedBox t.latches = latchedBox s.latches

theorem SameGeometry.refl (s : State) : SameGeometry s s := ⟨rfl, rfl⟩

theorem SameGeometry.trans {s t u : State} (h : SameGeometry s t) (g : SameGeometry t u) : SameGeometry s u :=
  ⟨by rw [g.rect, h.rect], by rw [g.box, h.box]⟩

theorem putPixel_sameGeometry (x y : Word) (c : Color) (s : State) : SameGeometry s (putPixel x y c s) := by
  constructor <;> simp [putPixel, latchedRect, latchedBox]

theorem advance_sameGeometry (s : State) : SameGeometry s (advance s) := by
  constructor <;> simp [latchedRect, latchedBox]

theorem fillaPut_onlyDraws (c : Color) (s : State) : OnlyDraws s (fillaPut c s) := by
  unfold fillaPut; simp only; split
  · exact putPixel_onlyDraws _ _ _ s
  · exact .loadColor c s

theorem fillaPut_sameGeometry (c : Color) (s : State) : SameGeometry s (fillaPut c s) := by
  unfold fillaPut; simp only; split
  · exact putPixel_sameGeometry _ _ _ s
  · exact ⟨rfl, rfl⟩

@[simp] theorem fillaPut_k (c : Color) (s : State) : (fillaPut c s).latches.k = s.latches.k := by
  unfold fillaPut; simp only; split <;> simp

/-- The state after the colours `cs` of a FILLA stream. -/
def fillaDrawn : List Color → State → State
  | [], s => s
  | c :: cs, s => fillaDrawn cs (advance (fillaPut c s))

theorem fillaDrawn_append (cs ds : List Color) (s : State) :
    fillaDrawn (cs ++ ds) s = fillaDrawn ds (fillaDrawn cs s) := by
  induction cs generalizing s with
  | nil => rfl
  | cons c cs ih => exact ih _

theorem fillaDrawn_onlyDraws (cs : List Color) (s : State) : OnlyDraws s (fillaDrawn cs s) := by
  induction cs generalizing s with
  | nil => exact .refl s
  | cons c cs ih => exact ((fillaPut_onlyDraws c s).trans (.advance _)).trans (ih _)

theorem fillaDrawn_sameGeometry (cs : List Color) (s : State) : SameGeometry s (fillaDrawn cs s) := by
  induction cs generalizing s with
  | nil => exact .refl s
  | cons c cs ih => exact ((fillaPut_sameGeometry c s).trans (advance_sameGeometry _)).trans (ih _)

theorem fillaDrawn_k (cs : List Color) (s : State) :
    (fillaDrawn cs s).latches.k = s.latches.k + BitVec.ofNat 64 cs.length := by
  induction cs generalizing s with
  | nil => simp [fillaDrawn]
  | cons c cs ih =>
    simp only [fillaDrawn, ih, advance_latches, fillaPut_k, List.length_cons]
    rw [BitVec.add_assoc, ← BitVec.ofNat_add_ofNat cs.length 1, BitVec.add_comm (BitVec.ofNat 64 cs.length)]
    rfl

theorem fillaColors_good {s : State} (hs : s.ctl.session = true) (cs : List Color) (ws : List Word) :
    fillaColors (cs.map colorWord ++ ws) s = fillaColors ws (fillaDrawn cs s) := by
  induction cs generalizing s with
  | nil => rfl
  | cons c cs ih =>
    have := (fillaPut_onlyDraws c s).ctl
    simp only [List.map_cons, List.cons_append, fillaColors, takeColor_colorWord, fillaPoint_eq_next hs, andThen_next,
      fillaDrawn]
    exact ih (by simpa [this] using hs)

theorem colors_cases (ws : List Word) :
    (∃ cs : List Color, ws = cs.map colorWord) ∨
    (∃ (cs : List Color) (w : Word) (vs : List Word), ws = cs.map colorWord ++ w :: vs ∧ colorOf w = none) := by
  induction ws with
  | nil => exact .inl ⟨[], rfl⟩
  | cons w ws ih =>
    rcases colorWord_or_bad w with ⟨c, rfl⟩ | hb
    · rcases ih with ⟨cs, h⟩ | ⟨cs, v, vs, h, hv⟩
      · exact .inl ⟨c :: cs, by simp [h]⟩
      · exact .inr ⟨c :: cs, v, vs, by simp [h], hv⟩
    · exact .inr ⟨[], w, ws, rfl, hb⟩

theorem fillaColors_bad {w : Word} (h : colorOf w = none) (vs : List Word) (s : State) :
    fillaColors (w :: vs) s = .next (raiseFault codeReservedNonzero vs s) := by
  simp [fillaColors, takeColor_bad h]

/-- Everything the loop of FILLA can do. -/
theorem fillaColors_cases (ws : List Word) (s : State) :
    (∃ cs : List Color, ws = cs.map colorWord ∧ fillaColors ws s = .next (fillaDrawn cs s)) ∨
    (∃ (cs : List Color) (w : Word) (vs : List Word),
      ws = cs.map colorWord ++ w :: vs ∧ colorOf w = none ∧
      fillaColors ws s = .next (raiseFault codeReservedNonzero vs (fillaDrawn cs s))) ∨
    (s.ctl.session = false ∧ fillaColors ws s = .fault .handleOrder) := by
  induction ws generalizing s with
  | nil => exact .inl ⟨[], rfl, rfl⟩
  | cons w ws ih =>
    rcases colorWord_or_bad w with ⟨c, rfl⟩ | hb
    · rcases fillaPoint_cases c s with ⟨h, hs⟩ | ⟨hs, h⟩
      · have hctl := (fillaPut_onlyDraws c s).ctl
        rcases ih (advance (fillaPut c s)) with ⟨cs, hw, hn⟩ | ⟨cs, v, vs, hw, hv, hn⟩ | ⟨hf, hn⟩
        · exact .inl ⟨c :: cs, by simp [hw], by simp [fillaColors, h, hn, fillaDrawn]⟩
        · exact .inr (.inl ⟨c :: cs, v, vs, by simp [hw], hv, by simp [fillaColors, h, hn, fillaDrawn]⟩)
        · exact .inr (.inr ⟨by simpa [hctl] using hf, by simp [fillaColors, h, hn]⟩)
      · exact .inr (.inr ⟨hs, by simp [fillaColors, h]⟩)
    · exact .inr (.inl ⟨[], w, ws, rfl, hb, fillaColors_bad hb ws s⟩)

/-! ### FILLS and CLEAR -/

/-- The state after one colour at each of the points `pts`. -/
def painted : List (Int × Int) → Color → State → State
  | [], _, s => s
  | pt :: pts, c, s => painted pts c (putPixel (BitVec.ofInt 32 pt.1) (BitVec.ofInt 32 pt.2) c s)

theorem painted_onlyDraws (pts : List (Int × Int)) (c : Color) (s : State) : OnlyDraws s (painted pts c s) := by
  induction pts generalizing s with
  | nil => exact .refl s
  | cons pt pts ih => exact (putPixel_onlyDraws _ _ _ s).trans (ih _)

theorem painted_performs (pts : List (Int × Int)) (c : Color) (s : State) :
    Performs (pts.map (pixelAt s.par c)) s (painted pts c s) := by
  induction pts generalizing s with
  | nil => exact .refl s
  | cons pt pts ih =>
    have hp := (putPixel_onlyDraws (BitVec.ofInt 32 pt.1) (BitVec.ofInt 32 pt.2) c s).par
    have := (putPixel_performs (BitVec.ofInt 32 pt.1) (BitVec.ofInt 32 pt.2) c s).trans hp (ih _)
    simpa [painted, pixelAt, hp] using this

theorem emitAll_eq_next {s : State} (hs : s.ctl.session = true) (pts : List (Int × Int)) (c : Color) :
    emitAll pts c s = .next (painted pts c s) := by
  induction pts generalizing s with
  | nil => rfl
  | cons pt pts ih =>
    have := (putPixel_onlyDraws (BitVec.ofInt 32 pt.1) (BitVec.ofInt 32 pt.2) c s).ctl
    simp only [emitAll, emitAt, emit_eq_next hs, andThen_next, painted]
    exact ih (by simpa [this] using hs)

/-- Everything painting a list of points can do. -/
theorem emitAll_cases (pts : List (Int × Int)) (c : Color) (s : State) :
    ((pts = [] ∨ s.ctl.session = true) ∧ emitAll pts c s = .next (painted pts c s)) ∨
    (s.ctl.session = false ∧ emitAll pts c s = .fault .handleOrder) := by
  rcases Bool.eq_false_or_eq_true s.ctl.session with hs | hs
  · exact .inl ⟨.inr hs, emitAll_eq_next hs pts c⟩
  · cases pts with
    | nil => exact .inl ⟨.inl rfl, rfl⟩
    | cons pt pts => exact .inr ⟨hs, by simp [emitAll, emitAt, emit_eq_fault hs]⟩

/-! ### The clip unit in the state -/

theorem toInt_ofInt_34 {v : Int} (h1 : -2 ^ 33 ≤ v) (h2 : v < 2 ^ 33) : (BitVec.ofInt 34 v).toInt = v := by
  rw [BitVec.toInt_ofInt]
  exact Int.bmod_eq_of_le (by norm_num; omega) (by norm_num; omega)

@[simp] theorem clip_latchedRect (s : State) : latchedRect (clip s).latches = latchedRect s.latches := rfl


@[simp] theorem clip_k (s : State) : (clip s).latches.k = s.latches.k := rfl

@[simp] theorem clip_n (s : State) : (clip s).latches.n = s.latches.n := rfl

@[simp] theorem clip_op (s : State) : (clip s).latches.op = s.latches.op := rfl

end Sys2Proof.Machine
end

