-- ==== Sys2Proof/Laws/PerInstr.lean ====
section
/-! SUPPORT. Statements about every command as syntax, one lemma per constructor: how long its packet is (R70), and
that its packet's header is its own. -/

namespace Sys2Proof.Laws.PacketLen

/-- R70: the packet has as many words as the format says. -/
def Statement (i : Instr) : Prop := (encode i).length = packetLength i

theorem init (clkFreq clkMode : Word) : Statement (.init clkFreq clkMode) := rfl
theorem getcfg : Statement .getcfg := rfl
theorem bbox : Statement .bbox := rfl
theorem pack (c : Word) : Statement (.pack c) := rfl
theorem isect (x0 y0 w h : Word) : Statement (.isect x0 y0 w h) := rfl
theorem drawpx (elems : List Elem) : Statement (.drawpx elems) := by
  simp [Statement, encode, Instr.operandWords, packetLength]; omega
theorem filla (x0 y0 w h : Word) (colors : List Word) : Statement (.filla x0 y0 w h colors) := by
  simp [Statement, encode, Instr.operandWords, packetLength]; omega
theorem fills (x0 y0 w h c : Word) : Statement (.fills x0 y0 w h c) := rfl
theorem clear (c : Word) : Statement (.clear c) := rfl

end Sys2Proof.Laws.PacketLen

namespace Sys2Proof.Laws.OwnHeader

/-- R61, R71: the header alone selects the command: it decodes like the command's own operand words after it. -/
def Statement (i : Instr) : Prop :=
  decode (encode i) = decodeOperands i.opcode i.operandWords ∧ opcodeOf (opField (headerWord i.opcode)) = some i.opcode

theorem init (clkFreq clkMode : Word) : Statement (.init clkFreq clkMode) := ⟨decode_header _ _, by simp⟩
theorem getcfg : Statement .getcfg := ⟨decode_header _ _, by simp⟩
theorem bbox : Statement .bbox := ⟨decode_header _ _, by simp⟩
theorem pack (c : Word) : Statement (.pack c) := ⟨decode_header _ _, by simp⟩
theorem isect (x0 y0 w h : Word) : Statement (.isect x0 y0 w h) := ⟨decode_header _ _, by simp⟩
theorem drawpx (elems : List Elem) : Statement (.drawpx elems) := ⟨decode_header _ _, by simp⟩
theorem filla (x0 y0 w h : Word) (colors : List Word) : Statement (.filla x0 y0 w h colors) :=
  ⟨decode_header _ _, by simp⟩
theorem fills (x0 y0 w h c : Word) : Statement (.fills x0 y0 w h c) := ⟨decode_header _ _, by simp⟩
theorem clear (c : Word) : Statement (.clear c) := ⟨decode_header _ _, by simp⟩

end Sys2Proof.Laws.OwnHeader
end

