-- ==== Sys2Proof/Laws/Step.lean ====
section
/-! SUPPORT. What a step can do, said once: which of CPCU's activities it is, by the flags and the words at hand. -/

namespace Sys2Proof.Machine

theorem step_fault {s : State} (h : s.fault = true) : step s = .next s := by
  simp [step, cpcuStep, h]

theorem step_idle {s : State} (h : Idle s) : step s = fetchCommand s := by
  simp [step, cpcuStep, h.1, h.2]

theorem step_operands {s : State} (hf : s.fault = false) (hb : s.busy = true) (hs : s.streaming = false) :
    step s = fetchCommand (giveBack s) := by
  simp [step, cpcuStep, hf, hb, hs, resumeOperands]

theorem step_stream {s : State} (hf : s.fault = false) (hb : s.busy = true) (hs : s.streaming = true) :
    step s = resumeStream s := by
  simp [step, cpcuStep, hf, hb, hs]

/-- Everything a step can be. -/
theorem step_cases (s : State) :
    (s.fault = true ∧ step s = .next s) ∨
    (Idle s ∧ step s = fetchCommand s) ∨
    (s.fault = false ∧ s.busy = true ∧ s.streaming = false ∧ step s = fetchCommand (giveBack s)) ∨
    (s.fault = false ∧ s.busy = true ∧ s.streaming = true ∧ step s = resumeStream s) := by
  cases hf : s.fault
  · cases hb : s.busy
    · exact .inr (.inl ⟨⟨hf, hb⟩, step_idle ⟨hf, hb⟩⟩)
    · cases hs : s.streaming
      · exact .inr (.inr (.inl ⟨rfl, rfl, rfl, step_operands hf hb hs⟩))
      · exact .inr (.inr (.inr ⟨rfl, rfl, rfl, step_stream hf hb hs⟩))
  · exact .inl ⟨rfl, step_fault hf⟩

theorem fetch_noWord {s : State} (h : s.cmdq = []) : fetchCommand s = .next s := by
  simp [fetchCommand, h, decode]

theorem fetch_illegal {s : State} {h : Word} {ws : List Word} (hc : s.cmdq = h :: ws)
    (ho : opcodeOf (opField h) = none) :
    fetchCommand s = .next (raiseFault codeIllegalOpcode ws (takeHeader (opField h) (setCmdq [] s))) := by
  simp only [fetchCommand, hc, decode, ho]

theorem fetch_reserved {s : State} {h : Word} {ws : List Word} {o : Opcode} (hc : s.cmdq = h :: ws)
    (ho : opcodeOf (opField h) = some o) (ha : argField h ≠ 0) :
    fetchCommand s = .next (raiseFault codeReservedNonzero ws (takeHeader o.code (setCmdq [] s))) := by
  simp only [fetchCommand, hc, decode, ho]
  rw [if_neg ha]

theorem fetch_instr {s : State} {i : Instr} {rest : List Word} (hd : decode s.cmdq = .instr i rest) :
    fetchCommand s = exec i (setCmdq rest s) := by
  simp only [fetchCommand, hd]

theorem fetch_incomplete {s : State} {o : Opcode} {ws : List Word} (hd : decode s.cmdq = .incomplete o ws) :
    fetchCommand s = startIncomplete o ws (setCmdq [] s) := by
  simp only [fetchCommand, hd]

/-- A packet is whole, or all of its words that there are stand behind its header. -/
theorem decodeOperands_cases (o : Opcode) (ws : List Word) :
    (∃ i rest, decodeOperands o ws = .instr i rest ∧ i.opcode = o) ∨ decodeOperands o ws = .incomplete o ws := by
  cases o <;> simp only [decodeOperands] <;> (repeat' split) <;>
    first
    | exact .inr rfl
    | exact .inl ⟨_, _, rfl, rfl⟩

/-- Everything fetching a command can do. -/
theorem fetch_cases (s : State) :
    (s.cmdq = [] ∧ fetchCommand s = .next s) ∨
    (∃ h ws, s.cmdq = h :: ws ∧ opcodeOf (opField h) = none ∧
      fetchCommand s = .next (raiseFault codeIllegalOpcode ws (takeHeader (opField h) (setCmdq [] s)))) ∨
    (∃ h ws o, s.cmdq = h :: ws ∧ opcodeOf (opField h) = some o ∧ argField h ≠ 0 ∧
      fetchCommand s = .next (raiseFault codeReservedNonzero ws (takeHeader o.code (setCmdq [] s)))) ∨
    (∃ o ws i rest, s.cmdq = headerWord o :: ws ∧ decodeOperands o ws = .instr i rest ∧ i.opcode = o ∧
      fetchCommand s = exec i (setCmdq rest s)) ∨
    (∃ o ws, s.cmdq = headerWord o :: ws ∧ decodeOperands o ws = .incomplete o ws ∧
      fetchCommand s = startIncomplete o ws (setCmdq [] s)) := by
  cases hc : s.cmdq with
  | nil => exact .inl ⟨rfl, fetch_noWord hc⟩
  | cons h ws =>
    rcases decode_cons_cases h ws with ⟨ho, _⟩ | ⟨o, ho, ha, _⟩ | ⟨o, rfl, hd⟩
    · exact .inr (.inl ⟨h, ws, rfl, ho, fetch_illegal hc ho⟩)
    · exact .inr (.inr (.inl ⟨h, ws, o, rfl, ho, ha, fetch_reserved hc ho ha⟩))
    · rcases decodeOperands_cases o ws with ⟨i, rest, h1, h2⟩ | h1
      · exact .inr (.inr (.inr (.inl ⟨o, ws, i, rest, rfl, h1, h2, fetch_instr (by rw [hc, hd, h1])⟩)))
      · exact .inr (.inr (.inr (.inr ⟨o, ws, rfl, h1, fetch_incomplete (by rw [hc, hd, h1])⟩)))

theorem exec_not_idle (i : Instr) {s : State} (h : ¬ Idle s) : exec i s = .next (untake (encode i) s) := by
  cases i <;> exact command_not_idle h _

theorem exec_wrong_phase (i : Instr) {s : State} (hi : Idle s) (hp : phaseOk i.opcode s.phase = false) :
    exec i s = .next (raiseFault codeProtocol i.operandWords (takeHeader i.opcode.code s)) := by
  cases i <;> exact command_wrong_phase hi hp _

/-- What stands behind the frame of a command, by command. -/
def body : Instr → State → Out
  | .init f m => initBody f m
  | .getcfg => getcfgBody
  | .bbox => bboxBody
  | .pack c => packBody c
  | .isect x0 y0 w h => isectBody x0 y0 w h
  | .drawpx es => drawpxBody es
  | .filla x0 y0 w h cs => fillaBody x0 y0 w h cs
  | .fills x0 y0 w h c => fillsBody x0 y0 w h c
  | .clear c => clearBody c

theorem exec_eq_command (i : Instr) (s : State) : exec i s = command i (body i) s := by
  cases i <;> rfl

theorem exec_run (i : Instr) {s : State} (hi : Idle s) (hp : phaseOk i.opcode s.phase = true) :
    exec i s = body i (takeHeader i.opcode.code s) := by
  rw [exec_eq_command, command_run hi hp]

end Sys2Proof.Machine
end

