-- ==== Sys2Proof/Laws/Responses.lean ====
section
/-! SUPPORT. What a step can do to the response stream, said once: nothing, or one packet, put at its end and at the end
of the record of all packets. -/

namespace Sys2Proof.Machine

/-- `t` is `s` but, in the response stream and in the record of packets, for at most one packet more (R72). -/
def Responds (s t : State) : Prop :=
  (t.rspq = s.rspq ∧ t.resps = s.resps) ∨ ∃ ws, t.rspq = s.rspq ++ ws ∧ t.resps = s.resps ++ [ws]

theorem Responds.same {s t : State} (h : t.rspq = s.rspq) (g : t.resps = s.resps) : Responds s t := .inl ⟨h, g⟩

/-- Nothing of what a command does before its end touches the responses. -/
theorem Responds.after {s t u : State} (h : t.rspq = s.rspq) (g : t.resps = s.resps) (r : Responds t u) :
    Responds s u := by
  rwa [Responds, ← h, ← g]

theorem complete_responds (o : Opcode) (ws : List Word) (s : State) : Responds s (complete o ws s) :=
  .inr ⟨response o ws, rfl, rfl⟩

theorem OnlyDraws.responds {s t u : State} (h : OnlyDraws s t) (r : Responds t u) : Responds s u :=
  r.after h.rspq h.resps

/-! ### The loops and the ends of the commands -/

theorem endStream_responds {o : Opcode} {s t : State} (h : endStream o s = .next t) : Responds s t := by
  unfold endStream at h
  split at h <;> cases h
  · exact .same rfl rfl
  · exact complete_responds o [] s

theorem endOrHold_responds {o : Opcode} {s t : State} (h : endOrHold o s = .next t) : Responds s t := by
  unfold endOrHold at h
  split at h
  · cases h
    exact .same rfl rfl
  · split at h <;> cases h
    · exact complete_responds o [] s
    · exact .same rfl rfl

theorem drawElems_responses {es : List Elem} {s t : State} (h : drawElems es s = .next t) :
    t.rspq = s.rspq ∧ t.resps = s.resps := by
  rcases drawElems_cases es s with ⟨ps, _, _, h'⟩ | ⟨ps, _, _, _, _, _, h'⟩ | ⟨_, h'⟩ <;> rw [h'] at h <;> cases h
  · exact ⟨(drawn_onlyDraws ps s).rspq, (drawn_onlyDraws ps s).resps⟩
  · exact ⟨(drawn_onlyDraws ps s).rspq, (drawn_onlyDraws ps s).resps⟩

theorem fillaColors_responses {ws : List Word} {s t : State} (h : fillaColors ws s = .next t) :
    t.rspq = s.rspq ∧ t.resps = s.resps := by
  rcases fillaColors_cases ws s with ⟨cs, _, h'⟩ | ⟨cs, _, _, _, _, h'⟩ | ⟨_, h'⟩ <;> rw [h'] at h <;> cases h
  · exact ⟨(fillaDrawn_onlyDraws cs s).rspq, (fillaDrawn_onlyDraws cs s).resps⟩
  · exact ⟨(fillaDrawn_onlyDraws cs s).rspq, (fillaDrawn_onlyDraws cs s).resps⟩

theorem fillBox_responds {c : Color} {o : Opcode} {s t : State}
    (h : andThen (fillBox c s) (fun s => .next (complete o [] s)) = .next t) : Responds s t := by
  obtain ⟨u, h1, h2⟩ := andThen_eq_next h
  cases h2
  rcases emitAll_cases (if s.empty = true then [] else boxPoints (latchedBox s.latches)) c s with ⟨_, h'⟩ | ⟨_, h'⟩
  · cases h'.symm.trans h1
    exact (painted_onlyDraws _ c s).responds (complete_responds o [] _)
  · cases h'.symm.trans h1

theorem ctlAll_responses {ts : List Txn} {s t : State} (h : ctlAll ts s = .next t) :
    t.rspq = s.rspq ∧ t.resps = s.resps := by
  induction ts generalizing s with
  | nil =>
    cases h
    exact ⟨rfl, rfl⟩
  | cons u ts ih =>
    obtain ⟨v, h1, h2⟩ := andThen_eq_next h
    rcases ctl_cases u s with ⟨_, h'⟩ | ⟨_, h'⟩ <;> cases h'.symm.trans h1
    simpa using ih h2

/-! ### The commands -/

theorem body_responds {i : Instr} {s t : State} (h : body i s = .next t) : Responds s t := by
  cases i with
  | init f m =>
    simp only [body, initBody] at h
    split at h
    · cases h
      exact .same rfl rfl
    · obtain ⟨u, h1, h2⟩ := andThen_eq_next h
      cases h2
      exact (complete_responds .init [] (setReady u)).after (ctlAll_responses h1).1 (ctlAll_responses h1).2
  | getcfg =>
    cases h
    exact complete_responds _ _ _
  | bbox =>
    cases h
    exact complete_responds _ _ _
  | pack c =>
    simp only [body, packBody] at h
    rcases takeColor_next h with ⟨c, _, h1⟩ | ⟨_, rfl⟩
    · cases h1
      exact complete_responds _ _ (loadColor c s)
    · exact .same rfl rfl
  | isect x0 y0 w h' =>
    cases h
    exact complete_responds _ _ (clip (loadRect x0 y0 w h' s))
  | drawpx es =>
    obtain ⟨u, h1, h2⟩ := andThen_eq_next h
    exact (endStream_responds h2).after (drawElems_responses h1).1 (drawElems_responses h1).2
  | filla x0 y0 w h' cs =>
    obtain ⟨u, h1, h2⟩ := andThen_eq_next h
    exact (endStream_responds h2).after (fillaColors_responses h1).1 (fillaColors_responses h1).2
  | fills x0 y0 w h' c =>
    simp only [body, fillsBody] at h
    rcases takeColor_next h with ⟨c, _, h1⟩ | ⟨_, rfl⟩
    · exact (fillBox_responds h1).after rfl rfl
    · exact .same rfl rfl
  | clear c =>
    simp only [body, clearBody] at h
    rcases takeColor_next h with ⟨c, _, h1⟩ | ⟨_, rfl⟩
    · exact (fillBox_responds h1).after rfl rfl
    · exact .same rfl rfl

theorem exec_responds {i : Instr} {s t : State} (h : exec i s = .next t) : Responds s t := by
  rw [exec_eq_command] at h
  rcases command_cases i (body i) s with ⟨_, h'⟩ | ⟨_, _, h'⟩ | ⟨_, _, h'⟩ <;> rw [h'] at h
  · cases h
    exact .same rfl rfl
  · exact body_responds (s := takeHeader i.opcode.code s) h
  · cases h
    exact .same rfl rfl

/-! ### Packets that arrive in parts, and the step -/

theorem streamDrawpx_responds {ws : List Word} {s t : State} (h : streamDrawpx ws s = .next t) : Responds s t := by
  obtain ⟨u, h1, h2⟩ := andThen_eq_next h
  exact (endOrHold_responds h2).after (drawElems_responses h1).1 (drawElems_responses h1).2

theorem streamFilla_responds {ws : List Word} {s t : State} (h : streamFilla ws s = .next t) : Responds s t := by
  obtain ⟨u, h1, h2⟩ := andThen_eq_next h
  exact (endOrHold_responds h2).after (fillaColors_responses h1).1 (fillaColors_responses h1).2

theorem startIncomplete_responds {o : Opcode} {ws : List Word} {s t : State}
    (h : startIncomplete o ws s = .next t) : Responds s t := by
  unfold startIncomplete at h
  simp only at h
  split at h
  · split at h
    · exact (streamDrawpx_responds h).after rfl rfl
    · exact (streamFilla_responds h).after rfl rfl
    · cases h
      cases o <;> exact .same rfl rfl
  · cases h
    exact .same rfl rfl

theorem fetchCommand_responds {s t : State} (h : fetchCommand s = .next t) : Responds s t := by
  rcases fetch_cases s with ⟨_, h'⟩ | ⟨_, _, _, _, h'⟩ | ⟨_, _, _, _, _, _, h'⟩ | ⟨_, _, i, rest, _, _, _, h'⟩ |
    ⟨o, ws, _, _, h'⟩ <;> rw [h'] at h
  · cases h
    exact .same rfl rfl
  · cases h
    exact .same rfl rfl
  · cases h
    exact .same rfl rfl
  · exact exec_responds (s := setCmdq rest s) h
  · exact startIncomplete_responds (s := setCmdq [] s) h

/-- Everything a step can do to the responses (R15 (b), R72). -/
theorem step_responds {s t : State} (h : step s = .next t) : Responds s t := by
  rcases step_cases s with ⟨_, h'⟩ | ⟨_, h'⟩ | ⟨_, _, _, h'⟩ | ⟨_, _, _, h'⟩ <;> rw [h'] at h
  · cases h
    exact .same rfl rfl
  · exact fetchCommand_responds h
  · exact fetchCommand_responds (s := giveBack s) h
  · unfold resumeStream at h
    split at h
    · exact streamDrawpx_responds (s := clearPart s) h
    · exact streamFilla_responds (s := clearPart s) h
    · cases h
      exact .same rfl rfl

end Sys2Proof.Machine
end

