-- ==== Sys2Proof/Laws/Trace.lean ====
section
/-! SUPPORT. What a step does to the world outside CPCU, said once: nothing, pixel writes in READY, or construction. Every
invariant about the history, the controller handle and the framebuffer follows from `step_happens`. -/

namespace Sys2Proof.Machine

/-- `t` is `s` after the transactions `ts`, with CPCU's own registers as they may be. -/
structure Trace (s t : State) (ts : List Txn) : Prop where
  par : t.par = s.par
  hist : t.hist = s.hist ++ ts
  ctl : t.ctl = ts.foldl replayCtl s.ctl
  fb : (t.misuse, t.mem) = ts.foldl (replayFb s.par) (s.misuse, s.mem)
  draw : t.fbDraw = s.fbDraw + ts.countP (stray s.par)

/-- Nothing but pixel writes on the one layer. -/
def PixelWrites (p : Params) (ts : List Txn) : Prop := ∀ t ∈ ts, ∃ x y d, t = Txn.writePixel p.layerId x y d

/-- `t` is `s` but for the latches, the flags and the streams. -/
structure Quiet (s t : State) : Prop where
  par : t.par = s.par
  hist : t.hist = s.hist
  ctl : t.ctl = s.ctl
  misuse : t.misuse = s.misuse
  mem : t.mem = s.mem
  phase : t.phase = s.phase
  draw : t.fbDraw = s.fbDraw

/-- `t` is `s` after pixel writes, in the same phase. -/
structure Drawing (s t : State) : Prop where
  trace : ∃ ts, PixelWrites s.par ts ∧ Trace s t ts
  phase : t.phase = s.phase

/-- Everything a step can do to the world. -/
def Happens (s t : State) : Prop :=
  Quiet s t ∨
  ((s.phase = .ready ∨ (s.busy = true ∧ s.streaming = true)) ∧ Drawing s t) ∨
  (s.phase = .unconstructed ∧ t.phase = .ready ∧ ∃ f b, Trace s t (initTxns s.par f b))

/-! ### Composition -/

theorem Quiet.trace {s t : State} (h : Quiet s t) : Trace s t [] :=
  ⟨h.par, by simp [h.hist], by simp [h.ctl], by simp [h.misuse, h.mem], by simp [h.draw]⟩

theorem Trace.trans {s t u : State} {ts us : List Txn} (h : Trace s t ts) (g : Trace t u us) : Trace s u (ts ++ us) where
  par := by rw [g.par, h.par]
  hist := by rw [g.hist, h.hist, List.append_assoc]
  ctl := by rw [g.ctl, h.ctl, List.foldl_append]
  fb := by rw [g.fb, h.fb, h.par, List.foldl_append]
  draw := by rw [g.draw, h.draw, h.par, List.countP_append, Nat.add_assoc]

theorem pixelWrites_append {p : Params} {a b : List Txn} (h : PixelWrites p a) (g : PixelWrites p b) :
    PixelWrites p (a ++ b) := fun t ht => (List.mem_append.1 ht).elim (h t) (g t)

theorem pixelWrites_nil (p : Params) : PixelWrites p [] := fun _ h => nomatch h

theorem Quiet.drawing {s t : State} (h : Quiet s t) : Drawing s t := ⟨⟨[], pixelWrites_nil _, h.trace⟩, h.phase⟩

theorem Quiet.trans {s t u : State} (h : Quiet s t) (g : Quiet t u) : Quiet s u :=
  ⟨by rw [g.1, h.1], by rw [g.2, h.2], by rw [g.3, h.3], by rw [g.4, h.4], by rw [g.5, h.5], by rw [g.6, h.6],
    by rw [g.7, h.7]⟩

theorem Drawing.trans {s t u : State} (h : Drawing s t) (g : Drawing t u) : Drawing s u := by
  obtain ⟨ts, h1, h2⟩ := h.trace
  obtain ⟨us, g1, g2⟩ := g.trace
  rw [h2.par] at g1
  exact ⟨⟨_, pixelWrites_append h1 g1, h2.trans g2⟩, by rw [g.phase, h.phase]⟩

theorem Quiet.happens {s u t : State} (h : Quiet s u) (g : Happens u t)
    (hb : (u.busy = true ∧ u.streaming = true) → (s.busy = true ∧ s.streaming = true)) : Happens s t := by
  rcases g with g | ⟨h1, g⟩ | ⟨h1, h2, f, b, g⟩
  · exact .inl (h.trans g)
  · exact .inr (.inl ⟨h1.imp (fun x => by rw [← h.phase, x]) hb, h.drawing.trans g⟩)
  · have := h.trace.trans g
    rw [h.par] at this
    exact .inr (.inr ⟨by rw [← h.phase, h1], h2, f, b, this⟩)

/-! ### The shared operations -/

theorem ctl_trace {t : Txn} {s u : State} (h : ctl t s = .next u) : Trace s u [t] ∧ u.phase = s.phase := by
  rcases ctl_cases t s with ⟨_, h'⟩ | ⟨_, h'⟩
  · rw [h'] at h
    cases h
    refine ⟨⟨by simp, by simp, ?_, ?_, ?_⟩, by simp⟩
    · cases t <;> simp [handlePerforms, replayCtl]
    · cases t with
      | writePixel l x y d => simpa [handlePerforms] using fbWrite_replay l x y d (record (.writePixel l x y d) s)
      | _ => rfl
    · cases t with
      | writePixel l x y d => simpa [handlePerforms] using fbWrite_draw l x y d (record (.writePixel l x y d) s)
      | _ => rfl
  · rw [h'] at h
    cases h

theorem ctlAll_trace {ts : List Txn} {s u : State} (h : ctlAll ts s = .next u) : Trace s u ts ∧ u.phase = s.phase := by
  induction ts generalizing s with
  | nil =>
    cases h
    exact ⟨⟨rfl, by simp, rfl, rfl, rfl⟩, rfl⟩
  | cons t ts ih =>
    obtain ⟨v, h1, h2⟩ := andThen_eq_next h
    obtain ⟨a1, a2⟩ := ctl_trace h1
    obtain ⟨b1, b2⟩ := ih h2
    exact ⟨a1.trans b1, by rw [b2, a2]⟩

theorem emit_drawing {x y : Word} {c : Color} {s t : State} (h : emit x y c s = .next t) : Drawing s t := by
  obtain ⟨h1, h2⟩ := ctl_trace h
  have q : Quiet s (loadColor c (loadPoint x y s)) := ⟨rfl, rfl, rfl, rfl, rfl, rfl, rfl⟩
  refine q.drawing.trans ⟨⟨_, ?_, h1⟩, h2⟩
  intro u hu
  exact ⟨x, y, pack c, List.mem_singleton.1 hu⟩

theorem raiseFault_quiet (c : BitVec 4) (ws : List Word) (s : State) : Quiet s (raiseFault c ws s) :=
  ⟨rfl, rfl, rfl, rfl, rfl, rfl, rfl⟩

theorem loadColor_quiet (c : Color) (s : State) : Quiet s (loadColor c s) := ⟨rfl, rfl, rfl, rfl, rfl, rfl, rfl⟩

theorem advance_quiet (s : State) : Quiet s (advance s) := ⟨rfl, rfl, rfl, rfl, rfl, rfl, rfl⟩

/-! ### The loops -/

theorem drawElems_drawing {es : List Elem} {s t : State} (h : drawElems es s = .next t) : Drawing s t := by
  induction es generalizing s with
  | nil =>
    cases h
    exact Quiet.drawing ⟨rfl, rfl, rfl, rfl, rfl, rfl, rfl⟩
  | cons e es ih =>
    rcases takeColor_next h with ⟨c, _, h1⟩ | ⟨_, rfl⟩
    · obtain ⟨u, h2, h3⟩ := andThen_eq_next h1
      exact (((loadColor_quiet c s).drawing.trans (emit_drawing h2)).trans (advance_quiet u).drawing).trans (ih h3)
    · exact (raiseFault_quiet _ _ _).drawing

theorem fillaPoint_drawing {c : Color} {s t : State} (h : fillaPoint c s = .next t) : Drawing s t := by
  unfold fillaPoint at h
  simp only at h
  split at h
  · exact emit_drawing h
  · cases h
    exact Quiet.drawing ⟨rfl, rfl, rfl, rfl, rfl, rfl, rfl⟩

theorem fillaColors_drawing {ws : List Word} {s t : State} (h : fillaColors ws s = .next t) : Drawing s t := by
  induction ws generalizing s with
  | nil =>
    cases h
    exact Quiet.drawing ⟨rfl, rfl, rfl, rfl, rfl, rfl, rfl⟩
  | cons w ws ih =>
    rcases takeColor_next h with ⟨c, _, h1⟩ | ⟨_, rfl⟩
    · obtain ⟨u, h2, h3⟩ := andThen_eq_next h1
      exact (((loadColor_quiet c s).drawing.trans (fillaPoint_drawing h2)).trans (advance_quiet u).drawing).trans (ih h3)
    · exact (raiseFault_quiet _ _ _).drawing

theorem emitAll_drawing {pts : List (Int × Int)} {c : Color} {s t : State} (h : emitAll pts c s = .next t) :
    Drawing s t := by
  induction pts generalizing s with
  | nil =>
    cases h
    exact Quiet.drawing ⟨rfl, rfl, rfl, rfl, rfl, rfl, rfl⟩
  | cons pt pts ih =>
    obtain ⟨u, h1, h2⟩ := andThen_eq_next h
    exact (emit_drawing h1).trans (ih h2)

theorem endStream_quiet {o : Opcode} {s t : State} (h : endStream o s = .next t) : Quiet s t := by
  unfold endStream at h
  split at h <;> cases h <;> exact ⟨rfl, rfl, rfl, rfl, rfl, rfl, rfl⟩

theorem endOrHold_quiet {o : Opcode} {s t : State} (h : endOrHold o s = .next t) : Quiet s t := by
  unfold endOrHold at h
  split at h
  · cases h
    exact ⟨rfl, rfl, rfl, rfl, rfl, rfl, rfl⟩
  · split at h <;> cases h <;> exact ⟨rfl, rfl, rfl, rfl, rfl, rfl, rfl⟩

/-! ### The commands -/

theorem drawpxBody_drawing {es : List Elem} {s t : State} (h : drawpxBody es s = .next t) : Drawing s t := by
  obtain ⟨u, h1, h2⟩ := andThen_eq_next h
  have q : Quiet s (loadCount (countWord es.length) s) := ⟨rfl, rfl, rfl, rfl, rfl, rfl, rfl⟩
  exact q.drawing.trans ((drawElems_drawing h1).trans (endStream_quiet h2).drawing)

theorem fillaBody_drawing {x0 y0 w h : Word} {cs : List Word} {s t : State} (he : fillaBody x0 y0 w h cs s = .next t) :
    Drawing s t := by
  obtain ⟨u, h1, h2⟩ := andThen_eq_next he
  have q : Quiet s (fillaStart x0 y0 w h (countWord cs.length) s) := ⟨rfl, rfl, rfl, rfl, rfl, rfl, rfl⟩
  exact q.drawing.trans ((fillaColors_drawing h1).trans (endStream_quiet h2).drawing)

theorem fillBox_drawing {c : Color} {o : Opcode} {s t : State}
    (he : andThen (fillBox c s) (fun s => .next (complete o [] s)) = .next t) : Drawing s t := by
  obtain ⟨u, h1, h2⟩ := andThen_eq_next he
  cases h2
  exact (emitAll_drawing h1).trans (Quiet.drawing ⟨rfl, rfl, rfl, rfl, rfl, rfl, rfl⟩)

theorem fillsBody_drawing {x0 y0 w h c : Word} {s t : State} (he : fillsBody x0 y0 w h c s = .next t) : Drawing s t := by
  rcases takeColor_next he with ⟨c, _, h1⟩ | ⟨_, rfl⟩
  · refine Drawing.trans ?_ (fillBox_drawing h1)
    exact Quiet.drawing ⟨rfl, rfl, rfl, rfl, rfl, rfl, rfl⟩
  · exact Quiet.drawing ⟨rfl, rfl, rfl, rfl, rfl, rfl, rfl⟩

theorem clearBody_drawing {c : Word} {s t : State} (he : clearBody c s = .next t) : Drawing s t := by
  rcases takeColor_next he with ⟨c, _, h1⟩ | ⟨_, rfl⟩
  · refine Drawing.trans ?_ (fillBox_drawing h1)
    exact Quiet.drawing ⟨rfl, rfl, rfl, rfl, rfl, rfl, rfl⟩
  · exact (raiseFault_quiet _ _ _).drawing

theorem phaseOk_drawing {p : Phase} {o : Opcode} (h : phaseOk o p = true)
    (ho : o ∈ [Opcode.drawpx, .filla, .fills, .clear]) : p = .ready := by
  cases p
  · simp at ho
    rcases ho with rfl | rfl | rfl | rfl <;> cases h
  · rfl

theorem initBody_happens {f m : Word} {s t : State} (hp : s.phase = .unconstructed) (h : initBody f m s = .next t) :
    Happens s t := by
  unfold initBody at h
  split at h
  · cases h
    exact .inl ⟨rfl, rfl, rfl, rfl, rfl, rfl, rfl⟩
  · rename_i b _
    obtain ⟨u, h1, h2⟩ := andThen_eq_next h
    cases h2
    have q : Quiet s (loadClkm b (loadClkf f s)) := ⟨rfl, rfl, rfl, rfl, rfl, rfl, rfl⟩
    have a := (ctlAll_trace h1).1
    exact .inr (.inr ⟨hp, rfl, f, b, q.trace.trans ⟨a.par, a.hist, a.ctl, a.fb, a.draw⟩⟩)

theorem body_happens {i : Instr} {s t : State} (hp : phaseOk i.opcode s.phase = true) (h : body i s = .next t) :
    Happens s t := by
  cases i with
  | init f m => exact initBody_happens (by cases hs : s.phase <;> simp_all [Instr.opcode, phaseOk]) h
  | getcfg =>
    cases h
    exact .inl ⟨rfl, rfl, rfl, rfl, rfl, rfl, rfl⟩
  | bbox =>
    cases h
    exact .inl ⟨rfl, rfl, rfl, rfl, rfl, rfl, rfl⟩
  | pack c =>
    simp only [body, packBody] at h
    rcases takeColor_next h with ⟨c, _, h1⟩ | ⟨_, rfl⟩
    · cases h1
      exact .inl ⟨rfl, rfl, rfl, rfl, rfl, rfl, rfl⟩
    · exact .inl (raiseFault_quiet _ _ _)
  | isect x0 y0 w h' =>
    cases h
    exact .inl ⟨rfl, rfl, rfl, rfl, rfl, rfl, rfl⟩
  | drawpx es => exact .inr (.inl ⟨.inl (phaseOk_drawing hp (by simp [Instr.opcode])), drawpxBody_drawing h⟩)
  | filla x0 y0 w h' cs => exact .inr (.inl ⟨.inl (phaseOk_drawing hp (by simp [Instr.opcode])), fillaBody_drawing h⟩)
  | fills x0 y0 w h' c => exact .inr (.inl ⟨.inl (phaseOk_drawing hp (by simp [Instr.opcode])), fillsBody_drawing h⟩)
  | clear c => exact .inr (.inl ⟨.inl (phaseOk_drawing hp (by simp [Instr.opcode])), clearBody_drawing h⟩)

theorem exec_happens {i : Instr} {s t : State} (h : exec i s = .next t) : Happens s t := by
  rw [exec_eq_command] at h
  rcases command_cases i (body i) s with ⟨_, h'⟩ | ⟨_, hp, h'⟩ | ⟨_, _, h'⟩ <;> rw [h'] at h
  · cases h
    exact .inl ⟨rfl, rfl, rfl, rfl, rfl, rfl, rfl⟩
  · exact Quiet.happens (u := takeHeader i.opcode.code s) ⟨rfl, rfl, rfl, rfl, rfl, rfl, rfl⟩ (body_happens hp h)
      (by simp)
  · cases h
    exact .inl ⟨rfl, rfl, rfl, rfl, rfl, rfl, rfl⟩

/-! ### Packets that arrive in parts, and the step -/

theorem streamDrawpx_drawing {ws : List Word} {s t : State} (h : streamDrawpx ws s = .next t) : Drawing s t := by
  obtain ⟨u, h1, h2⟩ := andThen_eq_next h
  have q (v : List Word) : Quiet s (setCmdq v s) := ⟨rfl, rfl, rfl, rfl, rfl, rfl, rfl⟩
  exact (q _).drawing.trans ((drawElems_drawing h1).trans (endOrHold_quiet h2).drawing)

theorem streamFilla_drawing {ws : List Word} {s t : State} (h : streamFilla ws s = .next t) : Drawing s t := by
  obtain ⟨u, h1, h2⟩ := andThen_eq_next h
  have q (v : List Word) : Quiet s (setCmdq v s) := ⟨rfl, rfl, rfl, rfl, rfl, rfl, rfl⟩
  exact (q _).drawing.trans ((fillaColors_drawing h1).trans (endOrHold_quiet h2).drawing)

theorem loadArrived_quiet (o : Opcode) (ws : List Word) (s : State) : Quiet s (loadArrived o ws s) := by
  cases o <;> exact ⟨rfl, rfl, rfl, rfl, rfl, rfl, rfl⟩

theorem startIncomplete_happens {o : Opcode} {ws : List Word} {s t : State} (h : startIncomplete o ws s = .next t) :
    Happens s t := by
  unfold startIncomplete at h
  simp only at h
  split at h
  · rename_i hp
    split at h
    · have q (n : Word) : Quiet s (loadCount n (takeHeader Opcode.drawpx.code s)) := ⟨rfl, rfl, rfl, rfl, rfl, rfl, rfl⟩
      exact .inr (.inl ⟨.inl (phaseOk_drawing hp (by simp)), (q _).drawing.trans (streamDrawpx_drawing h)⟩)
    · have q (x0 y0 w h n : Word) : Quiet s (fillaStart x0 y0 w h n (takeHeader Opcode.filla.code s)) :=
        ⟨rfl, rfl, rfl, rfl, rfl, rfl, rfl⟩
      exact .inr (.inl ⟨.inl (phaseOk_drawing hp (by simp)), (q _ _ _ _ _).drawing.trans (streamFilla_drawing h)⟩)
    · cases h
      have q := loadArrived_quiet o ws (takeHeader o.code s)
      exact .inl ⟨q.par, q.hist, q.ctl, q.misuse, q.mem, q.phase, q.draw⟩
  · cases h
    exact .inl ⟨rfl, rfl, rfl, rfl, rfl, rfl, rfl⟩

theorem fetchCommand_happens {s t : State} (h : fetchCommand s = .next t) : Happens s t := by
  rcases fetch_cases s with ⟨_, h'⟩ | ⟨_, _, _, _, h'⟩ | ⟨_, _, _, _, _, _, h'⟩ | ⟨_, _, i, rest, _, _, _, h'⟩ |
    ⟨o, ws, _, _, h'⟩ <;> rw [h'] at h
  · cases h
    exact .inl ⟨rfl, rfl, rfl, rfl, rfl, rfl, rfl⟩
  · cases h
    exact .inl ⟨rfl, rfl, rfl, rfl, rfl, rfl, rfl⟩
  · cases h
    exact .inl ⟨rfl, rfl, rfl, rfl, rfl, rfl, rfl⟩
  · exact Quiet.happens (u := setCmdq rest s) ⟨rfl, rfl, rfl, rfl, rfl, rfl, rfl⟩ (exec_happens h) (by simp)
  · exact Quiet.happens (u := setCmdq [] s) ⟨rfl, rfl, rfl, rfl, rfl, rfl, rfl⟩ (startIncomplete_happens h) (by simp)

/-- Everything a step can do to the world outside CPCU. -/
theorem step_happens {s t : State} (h : step s = .next t) : Happens s t := by
  rcases step_cases s with ⟨_, h'⟩ | ⟨_, h'⟩ | ⟨_, _, _, h'⟩ | ⟨_, hb, hs, h'⟩ <;> rw [h'] at h
  · cases h
    exact .inl ⟨rfl, rfl, rfl, rfl, rfl, rfl, rfl⟩
  · exact fetchCommand_happens h
  · exact Quiet.happens (u := giveBack s) ⟨rfl, rfl, rfl, rfl, rfl, rfl, rfl⟩ (fetchCommand_happens h) (by simp)
  · have q : Quiet s (clearPart s) := ⟨rfl, rfl, rfl, rfl, rfl, rfl, rfl⟩
    unfold resumeStream at h
    split at h
    · exact .inr (.inl ⟨.inr ⟨hb, hs⟩, q.drawing.trans (streamDrawpx_drawing h)⟩)
    · exact .inr (.inl ⟨.inr ⟨hb, hs⟩, q.drawing.trans (streamFilla_drawing h)⟩)
    · cases h
      exact .inl ⟨rfl, rfl, rfl, rfl, rfl, rfl, rfl⟩

theorem Happens.trace {s t : State} (h : Happens s t) : ∃ ts, Trace s t ts := by
  rcases h with h | ⟨_, h⟩ | ⟨_, _, f, b, h⟩
  · exact ⟨[], h.trace⟩
  · obtain ⟨ts, _, h⟩ := h.trace
    exact ⟨ts, h⟩
  · exact ⟨_, h⟩

end Sys2Proof.Machine
end

