-- ==== Sys2Proof/Tests/Slice0.lean ====
section
/-! SUPPORT. Tests: the spec's own vectors (95_test_vectors.md), well-formedness, and a witness for the hypotheses of
every statement that has some. -/

namespace Sys2Proof.Tests

open Sys2Proof.Machine

/-! ### States -/

/-- The `W = 8`, `H = 4` implementation of the spec's programs P2 to P6. -/
def small : Params :=
  { cfg := ⟨8, 4, 1, 1, 1, 1, 1, 1, 60, true, false, true, false⟩, layerId := 0, pixFmt := 0, fbBase := 0x1000 }

/-- The `W = 480`, `H = 272` implementation of the spec's clip vectors. -/
def wide : Params :=
  { cfg := ⟨480, 272, 1, 1, 1, 1, 1, 1, 60, true, false, true, false⟩, layerId := 0, pixFmt := 0, fbBase := 0x1000 }

/-- Right after reset. -/
def fresh (p : Params) : State := State.resetOf p

/-- After `INIT 8000000, crystal`. -/
def ready (p : Params) : State :=
  { fresh p with phase := .ready, ctl := ⟨true, true, true, true⟩, hist := initTxns p 8000000 0 }

/-- A fault stands. -/
def faulted : State := { ready small with fault := true, faultCode := 2 }

/-- PACK holds for its colour word. -/
def holding : State := { fresh small with busy := true, part := [0x04000000], latches := { Latches.zero with op := 0x04 } }

/-- DRAWPX holds in its one element, after its `x`. -/
def midStream : State :=
  { ready small with
    busy := true, streaming := true, part := [3], latches := { Latches.zero with op := 0x10, n := 1, k := 0 } }

/-- What an outcome's next state satisfies; false of a fault or a refusal. -/
def after (o : Out) (p : State → Bool) : Bool :=
  match o with
  | .next s => p s
  | .fault _ => false
  | .refused _ => false

theorem next_of_after {o : Out} {p : State → Bool} (h : after o p = true) : ∃ t, o = .next t ∧ p t = true := by
  cases o with
  | next t => exact ⟨t, rfl, h⟩
  | fault _ => cases h
  | refused _ => cases h

/-! ### Well-formedness (R60 `CNT`, R68, R69): a stream of `2^32` elements has no packet -/

theorem test_wellFormed_accepts :
    (Instr.drawpx []).wellFormed = true ∧ (Instr.filla 0 0 1 1 [0]).wellFormed = true ∧
      countFits (2 ^ 32 - 1) = true := by decide

theorem test_wellFormed_refuses_long_drawpx :
    (Instr.drawpx (List.replicate (2 ^ 32) ⟨0, 0, 0⟩)).wellFormed = false := by
  rw [Instr.wellFormed, List.length_replicate]; decide

theorem test_wellFormed_refuses_long_filla :
    (Instr.filla 0 0 1 1 (List.replicate (2 ^ 32) 0)).wellFormed = false := by
  rw [Instr.wellFormed, List.length_replicate]; decide

/-! ### Decoding: each command's words, bit by bit from R59 to R69 -/

theorem test_decode_init :
    decode [0b00000001000000000000000000000000, 0b00000001011111010111100001000000, 0b1] =
      .instr (.init 25000000 1) [] := by decide

theorem test_decode_getcfg : decode [0b00000010000000000000000000000000] = .instr .getcfg [] := by decide

theorem test_decode_bbox : decode [0b00000011000000000000000000000000, 5] = .instr .bbox [5] := by decide

theorem test_decode_pack :
    decode [0b00000100000000000000000000000000, 0b00000000000010100010000100000111] = .instr (.pack 0x000A2107) [] ∧
      colorOf 0b00000000000010100010000100000111 = some ⟨10, 33, 7⟩ := by decide

theorem test_decode_isect :
    decode [0b00000101000000000000000000000000, 0xFFFFFFF6, 0x00000104, 0x000001F4, 0x00000032] =
      .instr (.isect (-10) 260 500 50) [] := by decide

theorem test_decode_drawpx :
    decode [0b00010000000000000000000000000000, 2, 8, 0, 0x001F0000, 0, 1, 0x00003F00, 9] =
      .instr (.drawpx [⟨8, 0, 0x001F0000⟩, ⟨0, 1, 0x00003F00⟩]) [9] := by decide

theorem test_decode_filla :
    decode [0b00010001000000000000000000000000, 1, 2, 3, 4, 2, 0x000A2107, 0x0000001F, 9] =
      .instr (.filla 1 2 3 4 [0x000A2107, 0x0000001F]) [9] := by decide

theorem test_decode_fills :
    decode [0b00010010000000000000000000000000, 0x1D6, 0, 0x14, 0xA, 0x001F0000] =
      .instr (.fills 470 0 20 10 0x001F0000) [] := by decide

theorem test_decode_clear :
    decode [0b00010011000000000000000000000000, 0b00000000000000000000000000011111] = .instr (.clear 31) [] := by decide

/-- R158: a packet short of a word, of each stream format. -/
theorem test_decode_incomplete :
    decode [0x10000000, 2, 8, 0, 0x001F0000, 0, 1] = .incomplete .drawpx [2, 8, 0, 0x001F0000, 0, 1] ∧
      decode [0x11000000, 1, 2, 3, 4, 2, 0] = .incomplete .filla [1, 2, 3, 4, 2, 0] := by decide

/-- The host's two questions, on a few rows of the opcode table: the header's 32 bits, operand words zero. -/
theorem test_decodeTableWord :
    decodeTableWord 32 0x01000000 = some (.init 0 0) ∧ decodeTableWord 32 0x02000000 = some .getcfg ∧
      decodeTableWord 32 0x05000000 = some (.isect 0 0 0 0) ∧ decodeTableWord 32 0x10000000 = some (.drawpx []) ∧
      decodeTableWord 32 0x11000000 = some (.filla 0 0 0 0 []) ∧ decodeTableWord 32 0x14000000 = none ∧
      decodeTableWord 64 0x1F04000000 = some (.pack 0x1F) := by decide

theorem test_withFetchWord :
    ((fresh small).withFetchWord 32 0x05000000).cmdq = [0x05000000, 0, 0, 0, 0] ∧
      ((fresh small).withFetchWord 32 0x02000000).cmdq = [0x02000000] ∧
      after (step ((fresh small).withFetchWord 32 0x04000000)) (fun t => decide (t.rspq = [0x04000001, 0])) = true := by
  decide

/-- Each command as the first after reset: taken, and PROTOCOL where it needs READY. -/
theorem test_withFetchWord_after_reset :
    ([(0x01000000, false), (0x02000000, false), (0x03000000, true), (0x04000000, false), (0x05000000, false),
      (0x10000000, true), (0x11000000, true), (0x12000000, true), (0x13000000, true)] : List (Nat × Bool)).all
      (fun v => after (step (State.reset.withFetchWord 32 v.1)) (fun t => t.fault == v.2 && !t.busy)) = true := by
  decide

/-! ### Packer and PACK (95, section 2.1) -/

theorem test_pack_vectors :
    ([(0x00000000, 0x0000), (0x001F3F1F, 0xFFFF), (0x001F0000, 0xF800), (0x00003F00, 0x07E0), (0x0000001F, 0x001F),
      (0x00010101, 0x0821), (0x00102010, 0x8410), (0x00152A15, 0xAD55), (0x000A150A, 0x52AA), (0x000A2107, 0x5427),
      (0x00050911, 0x2931), (0x001F001F, 0xF81F), (0x00003F1F, 0x07FF), (0x001F3F00, 0xFFE0)] : List (Word × Pixel)).all
      (fun v => (colorOf v.1).map pack == some v.2) = true := by decide

theorem test_unpack_vectors :
    unpack 0x5427 = ⟨10, 33, 7⟩ ∧ unpack 0xAD55 = ⟨21, 42, 21⟩ ∧ unpack 0x0821 = ⟨1, 1, 1⟩ := by decide

theorem test_color_malformed :
    ([0x00200000, 0x00004000, 0x00000020, 0x01000000, 0xFFFFFFFF] : List Word).all (fun w => colorOf w == none) = true := by
  decide

theorem test_pack_answers :
    after (exec (.pack 0x000A2107) (fresh small))
      (fun t => decide (t.rspq = [0x04000001, 0x00005427] ∧ status t = 0)) = true := by decide

/-! ### Clip unit (95, section 2.2), ISECT and BBOX -/

theorem test_isect_vectors :
    ([([0x1D6, 0, 0x14, 0xA], [0, 470, 0, 10, 10]), ([0, 0, 0x1E0, 0x110], [0, 0, 0, 480, 272]),
      ([0xA, 0x14, 0x1E, 0x28], [0, 10, 20, 30, 40]), ([0xFFFFFFFF, 0xFFFFFFFF, 3, 3], [0, 0, 0, 2, 2]),
      ([0xFFFFFFF6, 0x104, 0x1F4, 0x32], [0, 0, 260, 480, 12]), ([0x1DF, 0x10F, 1, 1], [0, 479, 271, 1, 1]),
      ([0xFFFFFFFB, 0xFFFFFFFB, 6, 6], [0, 0, 0, 1, 1]), ([0xFFFFFFFB, 0xFFFFFFFB, 5, 5], [1, 0, 0, 0, 0]),
      ([0x1E0, 0, 1, 1], [1, 0, 0, 0, 0]), ([0, 0x110, 0x1E0, 1], [1, 0, 0, 0, 0]),
      ([0x64, 0x64, 0, 7], [1, 0, 0, 0, 0]), ([0x64, 0x64, 7, 0], [1, 0, 0, 0, 0]),
      ([0x80000000, 0x80000000, 0xFFFFFFFF, 0xFFFFFFFF], [0, 0, 0, 480, 272]),
      ([0x7FFFFFFF, 0x7FFFFFFF, 0xFFFFFFFF, 0xFFFFFFFF], [1, 0, 0, 0, 0]),
      ([0x1DF, 0, 0xFFFFFFFF, 1], [0, 479, 0, 1, 1])] : List (List Word × List Word)).all
      (fun v => after (exec (.isect (v.1.getD 0 0) (v.1.getD 1 0) (v.1.getD 2 0) (v.1.getD 3 0)) (fresh wide))
        (fun t => decide (t.rspq = 0x05000005 :: v.2) && (t.empty == (v.2.getD 0 0 == 1)))) = true := by decide

theorem test_bbox_answers :
    after (exec .bbox (ready small)) (fun t => decide (t.rspq = [0x03000004, 0, 0, 8, 4])) = true := by decide

/-! ### Queries and construction -/

theorem test_getcfg_answers :
    after (exec .getcfg (fresh small))
      (fun t => decide (t.rspq = [0x0200000D, 8, 4, 1, 1, 1, 1, 1, 1, 60, 1, 0, 1, 0] ∧ status t = 0)) = true := by decide

theorem test_init_transactions :
    after (exec (.init 25000000 0) (fresh small))
      (fun t => decide (t.hist = [.ctlInit small.cfg 25000000 0, .configureLayer 0 0x1000 0, .enableLayer 0, .reload] ∧
        t.rspq = [0x01000000] ∧ status t = 1)) = true := by decide

/-! ### Drawing (95, sections 2.3, 2.4, 2.6, programs P2, P3, P5, S4) -/

/-- R38, R39: pixel indexes on the wide panel. -/
theorem test_framebuffer_addressing :
    pixelIndex wide 479 0 = 479 ∧ 2 * pixelIndex wide 479 0 = 0x3BE ∧ pixelIndex wide 0 1 = 480 ∧
      2 * pixelIndex wide 470 9 = 0x256C ∧ 2 * pixelIndex wide 479 271 = 0x3FBFE ∧
      pixelAddr wide (pixelIndex wide 479 271) = 0x40BFE := by decide

theorem test_drawpx_last_write_stands :
    after (exec (.drawpx [⟨2, 1, 0x001F0000⟩, ⟨5, 3, 0x00003F00⟩, ⟨2, 1, 0x001F3F1F⟩]) (ready small))
      (fun t => decide (t.hist.drop 4 = [.writePixel 0 2 1 0xF800, .writePixel 0 5 3 0x07E0, .writePixel 0 2 1 0xFFFF] ∧
        t.readPixel 10 = 0xFFFF ∧ t.readByte 58 = 0xE0 ∧ t.readByte 59 = 0x07)) = true := by decide

/-- U1 frees what stood there before; R126 stores the in-range pixel after it. -/
theorem test_drawpx_misuse :
    after (exec (.drawpx [⟨8, 0, 0x001F0000⟩, ⟨0, 0, 0x001F0000⟩]) (ready small))
      (fun t => decide (t.hist.drop 4 = [.writePixel 0 8 0 0xF800, .writePixel 0 0 0 0xF800] ∧
        t.rspq = [0x10000000] ∧ status t = 1 ∧ t.misuse = true ∧ t.mem = [(0, 0x00), (1, 0xF8)])) = true := by
  decide

/-- P2: a negative origin pairs the colours with the unclipped rectangle. -/
theorem test_filla_pairing :
    after (exec (.filla (-1) (-1) 3 3 [0x00010102, 0x00020303, 0x00030504, 0x00040705, 0x00050906, 0x00060B07,
        0x00070D08, 0x00080F09, 0x0009110A]) (ready small))
      (fun t => decide (t.hist.drop 4 = [.writePixel 0 0 0 0x2926, .writePixel 0 1 0 0x3167, .writePixel 0 0 1 0x41E9,
        .writePixel 0 1 1 0x4A2A] ∧ t.rspq = [0x11000000] ∧ status t = 1)) = true := by decide

/-- P5: a malformed word in the stream; one word of the packet stays untaken. -/
theorem test_filla_precise_fault :
    after (exec (.filla 0 0 2 2 [0x001F0000, 0x00003F00, 0x00200000, 0x0000001F])
        { ready small with cmdq := [0x13000000, 0x001F3F1F] })
      (fun t => decide (t.hist.drop 4 = [.writePixel 0 0 0 0xF800, .writePixel 0 1 0 0x07E0] ∧ t.rspq = [] ∧
        t.cmdq = [0x0000001F, 0x13000000, 0x001F3F1F] ∧ status t = 0x25)) = true := by decide

/-- S4, in the columns and rows it names. -/
theorem test_fills_clips :
    after (exec (.fills 470 0 20 10 0x001F0000) (ready wide))
      (fun t => decide ((t.hist.drop 4).length = 100 ∧ (t.hist.drop 4).head? = some (.writePixel 0 470 0 0xF800) ∧
        t.hist.getLast? = some (.writePixel 0 479 9 0xF800)) &&
        (t.hist.drop 4).all (fun u => match u with
          | .writePixel _ x _ _ => decide (470 ≤ x.toNat ∧ x.toNat < 480)
          | _ => false)) = true := by decide +kernel

/-- P6: a solid fill wholly outside. -/
theorem test_fills_empty :
    after (exec (.fills 8 0 5 5 0x001F0000) (ready small))
      (fun t => decide (t.hist.drop 4 = [] ∧ t.rspq = [0x12000000] ∧ status t = 9)) = true := by decide

theorem test_clear_order :
    after (exec (.clear 0x0000001F) (ready small))
      (fun t => decide (t.hist.length = 36 ∧ t.hist.getD 13 .reload = .writePixel 0 1 1 0x001F ∧
        t.readPixel 31 = 0x001F ∧ t.mem.length = 64 ∧ status t = 1)) = true := by decide

/-- R50, R52: scan-out in the middle of the same command, after it, and past the last pixel. -/
theorem test_scan_between_writes :
    after (exec (.clear 0x0000001F) (ready small))
      (fun t => decide (scanReadAt t 14 9 = some 0x001F ∧ scanReadAt t 14 32 = none ∧
        scanRead t 31 = some 0x001F)) = true := by decide

/-- R50: scan-out is not held back until construction; before it a pixel has its unspecified initial value. -/
theorem test_scan_before_init : scanRead (fresh small) 31 = some ((fresh small).readPixel 31) := rfl

/-- R23: `COL` and `PIX` are loaded for each element of FILLA, drawn or not; here the second has no place, and the third
has not come. -/
theorem test_filla_loads_color :
    after (step (hostSend [0x11000000, 0, 0, 1, 1, 3, 0x001F0000, 0x00003F00] (ready small)))
      (fun t => decide (t.hist.drop 4 = [.writePixel 0 0 0 0xF800] ∧ t.busy = true ∧ t.latches.col = ⟨0, 63, 0⟩ ∧
        t.latches.pix = 0x07E0)) = true := by decide

/-- R15 (b): a response is observable for good, also when the host has taken its words. -/
theorem test_responses_stay_observable :
    after (exec (.pack 0x001F0000) (fresh small)) (fun t =>
      decide ((hostTake 2 t).rspq = [] ∧ (observation (hostTake 2 t)).2.1 = [[0x04000001, 0x0000F800]])) = true := by
  decide

theorem test_clear_before_init :
    after (exec (.clear 0) (fresh small)) (fun t => decide (t.cmdq = [0] ∧ t.hist = [] ∧ status t = 0x34)) = true := by
  decide

/-! ### Faults (95, section 2.5): the words sent, how many stay, STATUS after one step from reset -/

theorem test_fault_vectors :
    ([([0x00000000], 0, 0x14), ([0xFFFFFFFF], 0, 0x14), ([0x06000000], 0, 0x14), ([0x14000000, 1], 1, 0x14),
      ([0x02000001], 0, 0x24), ([0x10000001], 0, 0x24), ([0x10000000], 0, 0x34), ([0x03000000], 0, 0x34),
      ([0x01000000, 1, 2], 0, 0x24), ([0x02000000], 0, 0), ([0x04000000, 0x000A2107], 0, 0),
      ([0x04000000, 0x00200000], 0, 0x24)] :
        List (List Word × Nat × Word)).all
      (fun v => after (step (hostSend v.1 (fresh small)))
        (fun t => decide (t.cmdq.length = v.2.1 ∧ status t = v.2.2 ∧ t.hist = []))) = true := by decide

theorem test_second_init_faults :
    after (step (hostSend [0x01000000, 1, 0] (ready small)))
      (fun t => decide (t.cmdq = [1, 0] ∧ t.hist.length = 4 ∧ status t = 0x35)) = true := by decide

/-! ### Holds (R58, R158): BUSY is 1, nothing is answered, the missing word ends the command -/

theorem test_hold_takes_words :
    after (step (hostSend [0x04000000] (fresh small)))
      (fun t => decide (t.cmdq = [] ∧ t.rspq = [] ∧ status t = 2)) = true := by decide

theorem test_hold_resumes :
    after (step (hostSend [0x000A2107] holding))
      (fun t => decide (t.rspq = [0x04000001, 0x00005427] ∧ status t = 0)) = true := by decide

theorem test_stream_hold_resumes :
    after (step (hostSend [1, 0x001F0000] midStream))
      (fun t => decide (t.hist.drop 4 = [.writePixel 0 3 1 0xF800] ∧ t.rspq = [0x10000000] ∧ status t = 1)) = true := by
  decide

/-! ### Witnesses: the hypotheses of each statement are met, clause by clause -/

theorem witness_DecodeInvertsEncode :
    (Instr.clear 0xFFFFFFFF).wellFormed = true ∧ (Instr.drawpx []).wellFormed = true ∧
      (Instr.drawpx [⟨8, 0, 0x001F0000⟩]).wellFormed = true ∧ (Instr.filla 0 0 1 1 [0, 0xFFFFFFFF]).wellFormed = true := by
  decide

theorem witness_DecodeInvertsEncode_longest :
    (Instr.filla 0 0 1 1 (List.replicate (2 ^ 32 - 1) 0)).wellFormed = true := by
  rw [Instr.wellFormed, List.length_replicate]; decide

theorem witness_EncodeInvertsDecode :
    decode [0x13000000, 0x1F, 7] = .instr (.clear 0x1F) [7] ∧
      decode [0x11000000, 0, 0, 0, 0, 0] = .instr (.filla 0 0 0 0 []) [] := by decide

theorem witness_StepRunsDecodedPacket :
    (Idle (hostSend [0x02000000, 5] (fresh small)) ∧
      decode (hostSend [0x02000000, 5] (fresh small)).cmdq = .instr .getcfg [5]) ∧
    ((hostSend [0x1F] holding).fault = false ∧ (hostSend [0x1F] holding).busy = true ∧
      (hostSend [0x1F] holding).streaming = false ∧
      decode ((hostSend [0x1F] holding).part ++ (hostSend [0x1F] holding).cmdq) = .instr (.pack 0x1F) []) := by decide

theorem witness_WaitsForHeader : Idle (ready small) ∧ (ready small).cmdq = [] := by decide

theorem witness_PacketNotTakenUnlessIdle :
    (faulted.fault = true ∧ faulted.busy = false) ∧ (holding.fault = false ∧ holding.busy = true) ∧
      midStream.busy = true := by decide

/-- The opcode numbers beside the nine. -/
theorem witness_IllegalOpcodeStopsStep :
    ([0x00000000, 0x06000000, 0x0F000000, 0x14000000, 0x20000000, 0x81000000, 0xFFFFFFFF] : List Word).all (fun h =>
      decide (Idle (hostSend [h, 1] (ready small)) ∧ (hostSend [h, 1] (ready small)).cmdq = h :: [1] ∧
        h.extractLsb' 24 8 ∉ [0x01#8, 0x02#8, 0x03#8, 0x04#8, 0x05#8, 0x10#8, 0x11#8, 0x12#8, 0x13#8])) = true := by
  decide

/-- Each end of the `arg` field, in both phases. -/
theorem witness_ReservedHeaderStopsStep :
    ([0x01000001, 0x05800000, 0x10000001, 0x13FFFFFF] : List Word).all (fun h =>
      decide (Idle (hostSend [h] (fresh small)) ∧ Idle (hostSend [h] (ready small)) ∧
        (hostSend [h] (ready small)).cmdq = h :: [] ∧
        h.extractLsb' 24 8 ∈ [0x01#8, 0x02#8, 0x03#8, 0x04#8, 0x05#8, 0x10#8, 0x11#8, 0x12#8, 0x13#8] ∧
        h.extractLsb' 0 24 ≠ 0)) = true := by decide

theorem witness_WrongPhaseStopsOnHeader :
    (Idle (hostSend [0x13000000] (fresh small)) ∧ (hostSend [0x13000000] (fresh small)).cmdq = 0x13000000 :: [] ∧
      (fresh small).phase = .unconstructed ∧
      0x13000000#32 ∈ [0x03000000#32, 0x10000000#32, 0x11000000#32, 0x12000000#32, 0x13000000#32]) ∧
    (Idle (hostSend [0x01000000, 1] (ready small)) ∧ (ready small).phase = .ready) ∧
    (Idle (hostSend [0x05000000] (fresh small)) ∧
      0x05000000#32 ∈ [0x02000000#32, 0x04000000#32, 0x05000000#32]) := by decide

theorem witness_WrongPhaseOutranksOperands :
    (Idle (fresh small) ∧ (fresh small).phase = .unconstructed ∧
      (Instr.fills 0 0 1 1 0xFFFFFFFF).opcode ∈ [Opcode.bbox, .drawpx, .filla, .fills, .clear]) ∧
    (Idle (ready small) ∧ (ready small).phase = .ready ∧ (Instr.init 0 0xFFFFFFFF).opcode = .init) := by decide

/-- One reserved bit at a time: bits 21, 14 and 5 of `COLOR`, bit 1 of `CLKM`. -/
theorem witness_MalformedOperandStopsCommand :
    (Idle (fresh small) ∧ (0x00200000#32) &&& 0xFFE0C0E0 ≠ 0) ∧
    (Idle (ready small) ∧ (ready small).phase = .ready ∧ (0x00004000#32) &&& 0xFFE0C0E0 ≠ 0) ∧
    (0x00000020#32) &&& 0xFFE0C0E0 ≠ 0 ∧
    ((fresh small).phase = .unconstructed ∧ (2#32) &&& 0xFFFFFFFE ≠ 0) := by decide

theorem witness_StreamFaultIsPrecise :
    Idle (ready small) ∧ Session (ready small) ∧ (⟨0, 0, 0x00200000⟩ : Elem).c &&& 0xFFE0C0E0 ≠ 0 ∧
      (0x00000020#32) &&& 0xFFE0C0E0 ≠ 0 ∧ [(⟨31, 0, 0⟩ : Color)].length + 1 + [0#32].length < 2 ^ 32 := by decide

theorem witness_FaultIsTerminal : faulted.fault = true := by decide

theorem witness_StatusWordLayout :
    (ready small).phase = .ready ∧ (fresh small).phase ≠ .ready ∧ holding.busy = true ∧ faulted.fault = true := by decide

theorem witness_PackLaws :
    (pack ⟨10, 33, 7⟩ = pack (unpack 0x5427)) ∧
      ((10#5).toNat ≤ (31#5).toNat ∧ (33#6).toNat ≤ (63#6).toNat ∧ (7#5).toNat ≤ (7#5).toNat) ∧
      colorOf 0x001F3F1F = some ⟨31, 63, 31⟩ := by decide

/-- Both sides of each reserved mask. -/
theorem witness_ColorWordCheck :
    colorOf 0x001F3F1F = some ⟨31, 63, 31⟩ ∧ colorOf 0x00200000 = none ∧ (0x00200000#32) &&& 0xFFE0C0E0 ≠ 0 ∧
      0x001F3F1F#32 = ((31#5).setWidth 32 <<< 16) ||| ((63#6).setWidth 32 <<< 8) ||| (31#5).setWidth 32 := by decide

theorem witness_PackCompletes : Idle (fresh small) ∧ Idle (ready small) := by decide

theorem witness_GetcfgCompletes : Idle (fresh wide) ∧ Idle (ready wide) := by decide

theorem witness_ParametersNeverChange :
    (∃ t, step (hostSend [0x02000000] (fresh small)) = .next t) ∧ (∃ t, exec (.pack 0x1F) (fresh small) = .next t) :=
  ⟨(next_of_after (p := fun t => t.rspq.length == 14) (by decide)).imp fun _ h => h.1,
    (next_of_after (p := fun t => t.rspq.length == 2) (by decide)).imp fun _ h => h.1⟩

/-- Each clause at the edge of its range. -/
theorem witness_IsectProperties :
    1 ≤ small.W ∧ 1 ≤ small.H ∧
    contains (isect small ⟨7, 3, 5, 5⟩) (7, 3) = true ∧
    ((⟨2, 2, 0, 7⟩ : Rect).w = 0 ∧ (⟨2, 2, 7, 0⟩ : Rect).h = 0) ∧
    ((small.W : Int) ≤ (⟨8, 0, 1, 1⟩ : Rect).x0 ∧ (small.H : Int) ≤ (⟨0, 4, 1, 1⟩ : Rect).y0 ∧
      (-5 : Int) + (5 : Nat) ≤ 0) ∧
    (0 ≤ (⟨0, 0, 8, 4⟩ : Rect).x0 ∧ (0 : Int) + (8 : Nat) ≤ small.W ∧ (0 : Int) + (4 : Nat) ≤ small.H) ∧
    ((7 : Int) + (1 : Nat) ≤ small.W ∧ (3 : Int) + (1 : Nat) ≤ small.H) := by decide

/-- Saturation at the panel's own edge and at 32 bits. -/
theorem witness_IsectProperties_saturation :
    ((∀ v : Int, v ≤ (small.W : Int) → (fun v => min v 0xFFFFFFFF) v = v) ∧
      (∀ v : Int, ¬ v ≤ (small.W : Int) → (small.W : Int) ≤ (fun v => min v 0xFFFFFFFF) v)) ∧
    ((∀ v : Int, v ≤ (small.H : Int) → (fun v => min v (small.H : Int)) v = v) ∧
      (∀ v : Int, ¬ v ≤ (small.H : Int) → (small.H : Int) ≤ (fun v => min v (small.H : Int)) v)) := by
  have hW : small.W = 8 := by decide
  have hH : small.H = 4 := by decide
  simp only [hW, hH]
  exact ⟨⟨fun v hv => by omega, fun v hv => by omega⟩, fun v hv => by omega, fun v hv => by omega⟩

theorem witness_RowMajorPoints :
    ((2 : Nat) < (⟨-1, -1, 3, 3⟩ : Rect).w ∧ (2 : Nat) < (⟨-1, -1, 3, 3⟩ : Rect).h) ∧
      (8 < (⟨-1, -1, 3, 3⟩ : Rect).w * (⟨-1, -1, 3, 3⟩ : Rect).h) ∧
      boxEmpty (isect small ⟨-1, -1, 3, 3⟩) = false ∧ boxEmpty (isect small ⟨-5, -5, 6, 6⟩) = false := by decide

/-- Both branches: the last pixel, and a rectangle one past it. -/
theorem witness_IsectCompletes :
    Idle (fresh wide) ∧
      ¬ (min ((479#32).toInt + (1#32).toNat) (fresh wide).par.cfg.width.toNat ≤ max (479#32).toInt 0 ∨
        min ((271#32).toInt + (1#32).toNat) (fresh wide).par.cfg.height.toNat ≤ max (271#32).toInt 0) ∧
      min ((480#32).toInt + (1#32).toNat) (fresh wide).par.cfg.width.toNat ≤ max (480#32).toInt 0 := by decide

theorem witness_BboxCompletes : Idle (ready small) ∧ (ready small).phase = .ready := by decide

theorem witness_DrawpxCompletes :
    Idle (ready small) ∧ Session (ready small) ∧ ([] : List (Word × Word × Color)).length < 2 ^ 32 ∧
      [((3 : Word), (1 : Word), (⟨31, 0, 0⟩ : Color))].length < 2 ^ 32 := by decide

/-- The corners of the panel; one coordinate drawn, one not. -/
theorem witness_DrawpxWritesItsPixels :
    Idle (ready small) ∧ Session (ready small) ∧ (ready small).misuse = false ∧
      (∀ q ∈ [((0 : Word), (0 : Word), (⟨31, 0, 0⟩ : Color)), (7, 3, ⟨0, 63, 0⟩)],
        inRange (ready small).par q.1 q.2.1 = true) ∧
      inRange (ready small).par 0 3 = true := by decide

/-- One past each edge, and a negative coordinate; an in-range pixel behind it, which is found. -/
theorem witness_DrawpxMisuseIsRecorded :
    Idle (ready small) ∧ Session (ready small) ∧
      ([(8, 0), (0, 4), (0xFFFFFFFF, 0), (0, 0x80000000)] : List (Word × Word)).all
        (fun q => inRange (ready small).par q.1 q.2 == false) = true ∧
      [((8 : Word), (0 : Word), (⟨31, 0, 0⟩ : Color)), (7, 3, ⟨0, 63, 0⟩)].length < 2 ^ 32 ∧
      (∀ q ∈ [((7 : Word), (3 : Word), (⟨0, 63, 0⟩ : Color))], inRange (ready small).par q.1 q.2.1 = true) ∧
      [((7 : Word), (3 : Word), (⟨0, 63, 0⟩ : Color))].reverse.find? (fun q => q.1 == 7 && q.2.1 == 3) =
        some (7, 3, ⟨0, 63, 0⟩) := by decide

theorem witness_FillaCompletes :
    Idle (ready small) ∧ Session (ready small) ∧ [(⟨1, 1, 1⟩ : Color)].length < 2 ^ 32 ∧
      ([] : List Color).length < 2 ^ 32 := by decide

/-- For clause (b): the whole panel, and a rectangle at its far corner. -/
theorem witness_FillaDrawsInsideOnce :
    Idle (ready small) ∧ Session (ready small) ∧ (ready small).par.Legal ∧
      boxEmpty (isect small (rectOf 8 0 2 2)) = true ∧
      (0 ≤ (rectOf 0 0 8 4).x0 ∧ (rectOf 0 0 8 4).x0 + (rectOf 0 0 8 4).w ≤ small.W ∧ 0 ≤ (rectOf 0 0 8 4).y0 ∧
        (rectOf 0 0 8 4).y0 + (rectOf 0 0 8 4).h ≤ small.H ∧
        (rectOf 0 0 8 4).w * (rectOf 0 0 8 4).h ≤ (List.replicate 32 (⟨1, 1, 1⟩ : Color)).length) ∧
      (List.replicate 32 (⟨1, 1, 1⟩ : Color)).length < 2 ^ 32 := by decide

/-- A short sequence, with a point that has a colour, and one that is just long enough. -/
theorem witness_FillaStopsAtShorterSequence :
    Idle (ready small) ∧ Session (ready small) ∧ (ready small).par.Legal ∧
      (0 < min [(⟨1, 1, 1⟩ : Color)].length ((rectOf 7 3 2 2).w * (rectOf 7 3 2 2).h) ∧
        contains (isect small (rectOf 7 3 2 2)) (point (rectOf 7 3 2 2) 0) = true) ∧
      [(⟨1, 1, 1⟩ : Color)].length + [(⟨2, 2, 2⟩ : Color)].length < 2 ^ 32 ∧
      (rectOf 7 3 1 1).w * (rectOf 7 3 1 1).h ≤ [(⟨1, 1, 1⟩ : Color)].length := by decide

/-- A covered pixel with a colour, a covered one without, and one beside the rectangle. -/
theorem witness_FillaWritesItsPixels :
    Idle (ready small) ∧ Session (ready small) ∧ (ready small).misuse = false ∧ (ready small).par.Legal ∧
      (inRange small 1 1 = true ∧ Covers (rectOf 1 1 2 2) ((1#32).toInt, (1#32).toInt) ∧
        pointNumber (rectOf 1 1 2 2) ((1#32).toInt, (1#32).toInt) < [(⟨1, 1, 1⟩ : Color)].length) ∧
      (inRange small 2 1 = true ∧ ¬ pointNumber (rectOf 1 1 2 2) ((2#32).toInt, (1#32).toInt) < 1) ∧
      (inRange small 0 0 = true ∧ ¬ Covers (rectOf 1 1 2 2) ((0#32).toInt, (0#32).toInt)) := by decide

theorem witness_FillsCompletes :
    Idle (ready small) ∧ Session (ready small) ∧ boxEmpty (isect small (rectOf 8 0 5 5)) = true ∧
      boxEmpty (isect small (rectOf 7 3 5 5)) = false := by decide

theorem witness_FillsWritesItsPixels :
    Idle (ready small) ∧ Session (ready small) ∧ (ready small).misuse = false ∧ (ready small).par.Legal ∧
      (inRange small 7 3 = true ∧ Covers (rectOf 7 3 5 5) ((7#32).toInt, (3#32).toInt)) ∧
      (inRange small 6 3 = true ∧ ¬ Covers (rectOf 7 3 5 5) ((6#32).toInt, (3#32).toInt)) := by decide

/-- Exactly as many copies as points, and no point at all. -/
theorem witness_FillEquivalences :
    Idle (ready small) ∧ Session (ready small) ∧ ((4#32).toNat * (4#32).toNat ≤ 16 ∧ 16 ≤ 2 ^ 32 - 1) ∧
      (0#32).toNat * (9#32).toNat ≤ 0 := by decide

theorem witness_ClearCompletes : Idle (ready small) ∧ Session (ready small) ∧ (ready small).par.Legal := by decide

theorem witness_ClearSetsEveryPixel :
    Idle (ready small) ∧ Session (ready small) ∧ (ready small).misuse = false ∧ (ready small).par.Legal ∧
      inRange small 0 0 = true ∧ inRange small 7 3 = true ∧ 31 < small.W * small.H ∧ 2 * (small.W * small.H) ≤ 64 := by
  decide

theorem witness_TransactionCounts :
    Idle (ready small) ∧ Session (ready small) ∧ (ready small).par.Legal ∧
      [((3 : Word), (1 : Word), (⟨31, 0, 0⟩ : Color))].length < 2 ^ 32 ∧ [(⟨1, 1, 1⟩ : Color)].length < 2 ^ 32 := by decide

theorem witness_InitCompletes :
    Idle (fresh small) ∧ (fresh small).phase = .unconstructed ∧ (fresh small).ctl.inited = false := by decide

theorem witness_WritePixelContract :
    (ready small).ctl = ⟨true, true, true, true⟩ ∧
      (0 ≤ (7#32).toInt ∧ (7#32).toInt < (ready small).par.W ∧ 0 ≤ (3#32).toInt ∧ (3#32).toInt < (ready small).par.H) ∧
      (0 ≤ (0#32).toInt ∧ (0#32).toInt < (ready small).par.W) := by decide

/-- Both sides of each precondition. -/
theorem witness_HandleRefusesOutOfOrder :
    ((ready small).ctl.inited = true ∧ (fresh small).ctl.inited = false) ∧
      ((ready small).ctl.bound = true ∧ (fresh small).ctl.bound = false) ∧
      ((ready small).ctl.enabled = true ∧ (fresh small).ctl.enabled = false) ∧
      ((ready small).ctl = ⟨true, true, true, true⟩ ∧ (0#8) = (ready small).par.layerId ∧
        (1#8) ≠ (ready small).par.layerId) := by decide

/-- A state with a command to take, in the phase READY. -/
def working : State := hostSend [0x12000000, 7, 3, 5, 5, 0x001F0000, 0x10000000] (ready small)

theorem step_working_next : ∃ t, step working = .next t :=
  (next_of_after (p := fun t => t.hist.length == 5) (by decide)).imp fun _ h => h.1

theorem working_holdForm : HoldForm working := by decide

theorem working_historyForm : HistoryForm working := ⟨8000000, 0, [], rfl, by simp⟩

theorem working_handleReplay : HandleIsReplay working := by decide

theorem witness_StepKeepsResponsesForm : ResponsesForm working ∧ ∃ t, step working = .next t :=
  ⟨⟨0, rfl⟩, step_working_next⟩

theorem witness_StepKeepsFramebufferForm : FramebufferForm working ∧ ∃ t, step working = .next t :=
  ⟨by decide, step_working_next⟩

theorem witness_StepKeepsFramebufferReplay : FramebufferIsReplay working ∧ ∃ t, step working = .next t :=
  ⟨by decide, step_working_next⟩

theorem witness_StepKeepsHandleReplay : HandleIsReplay working ∧ ∃ t, step working = .next t :=
  ⟨working_handleReplay, step_working_next⟩

theorem witness_StepKeepsHistoryForm : HistoryForm working ∧ HoldForm working ∧ ∃ t, step working = .next t :=
  ⟨working_historyForm, working_holdForm, step_working_next⟩

theorem witness_StepKeepsHandlePhase : HandleMatchesPhase working ∧ HoldForm working ∧ ∃ t, step working = .next t :=
  ⟨rfl, working_holdForm, step_working_next⟩

theorem witness_StepKeepsFaultForm : FaultForm working ∧ FaultForm faulted ∧ ∃ t, step working = .next t :=
  ⟨by decide, by decide, step_working_next⟩

/-- A hold in a stream, a hold among the fixed operands, and no hold. -/
theorem witness_StepKeepsHoldForm :
    HoldForm midStream ∧ HoldForm holding ∧ HoldForm working ∧ ∃ t, step working = .next t :=
  ⟨by decide, by decide, working_holdForm, step_working_next⟩

theorem witness_HostKeepsEveryForm :
    FramebufferForm working ∧ FramebufferIsReplay working ∧ HandleIsReplay working ∧ HistoryForm working ∧
      HandleMatchesPhase working ∧ FaultForm working ∧ HoldForm working ∧ ResponsesForm working :=
  ⟨by decide, by decide, working_handleReplay, working_historyForm, rfl, by decide, working_holdForm, 0, rfl⟩

theorem witness_StepAlwaysAnswers :
    (HandleMatchesPhase working ∧ HoldForm working) ∧ (HandleMatchesPhase (fresh small) ∧ HoldForm (fresh small)) ∧
      (HandleMatchesPhase midStream ∧ HoldForm midStream) :=
  ⟨⟨rfl, working_holdForm⟩, ⟨rfl, by decide⟩, rfl, by decide⟩

theorem witness_CommandsNeverFail :
    (Idle (ready small) ∧ HandleMatchesPhase (ready small) ∧ phaseOk .drawpx (ready small).phase = true ∧
      (Instr.drawpx [⟨7, 3, 0x001F0000⟩]).wellFormed = true ∧
      keepsContract small (.drawpx [⟨7, 3, 0x001F0000⟩]) = true ∧ small.Legal) ∧
    (Idle (fresh small) ∧ HandleMatchesPhase (fresh small) ∧ phaseOk .init (fresh small).phase = true ∧
      keepsContract small (.init 8000000 1) = true) :=
  ⟨⟨by decide, rfl, by decide, by decide, by decide, by decide⟩, by decide, rfl, by decide, by decide⟩

/-- A step that writes a pixel in range, and one that writes one out of range. -/
theorem witness_ScanOutSeesOldOrNewPixels :
    31 < small.W * small.H ∧ FramebufferIsReplay working ∧
      (∃ t, step working = .next t ∧ t.hist[4]? = some (.writePixel 0 7 3 0xF800) ∧ inRange small 7 3 = true) ∧
      FramebufferIsReplay (hostSend [0x10000000, 1, 8, 0, 0] (ready small)) ∧
      ∃ t, step (hostSend [0x10000000, 1, 8, 0, 0] (ready small)) = .next t ∧
        t.hist[4]? = some (.writePixel 0 8 0 0) ∧ inRange small 8 0 = false :=
  ⟨by decide, by decide,
    (next_of_after (p := fun t => t.hist[4]? == some (.writePixel 0 7 3 0xF800)) (by decide)).imp fun _ h =>
      ⟨h.1, by simpa using h.2, by decide⟩,
    by decide,
    (next_of_after (p := fun t => t.hist[4]? == some (.writePixel 0 8 0 0)) (by decide)).imp fun _ h =>
      ⟨h.1, by simpa using h.2, by decide⟩⟩

/-- A command that completes, and, in a state no run from reset reaches, one the controller handle stops. -/
theorem witness_NothingCarriesOverInLatches :
    (Idle (ready small) ∧ ∃ t, exec (.pack 0x1F) (ready small) = .next t) ∧
      (Idle { ready small with ctl := ⟨false, false, false, false⟩ } ∧
        exec (.drawpx [⟨0, 0, 0⟩]) { ready small with ctl := ⟨false, false, false, false⟩ } = .fault .handleOrder) :=
  ⟨⟨by decide, (next_of_after (p := fun t => t.rspq.length == 2) (by decide)).imp fun _ h => h.1⟩, by decide, rfl⟩

theorem witness_HoldResumesWhereItStopped :
    Idle (hostSend [0x10000000, 1, 3] (ready small)) ∧
      ∃ t, step (hostSend [0x10000000, 1, 3] (ready small)) = .next t ∧ t.busy = true :=
  ⟨by decide, next_of_after (p := fun t => t.busy) (by decide)⟩

theorem witness_EarlyWordsAreHarmless :
    Idle working ∧ working.cmdq ≠ [] ∧ ∃ t, step working = .next t ∧ t.busy = false :=
  ⟨by decide, by decide, (next_of_after (p := fun t => t.busy == false) (by decide)).imp fun _ h =>
    ⟨h.1, by simpa using h.2⟩⟩

end Sys2Proof.Tests
end

/-! ### Proofs: the replay of the history and the form of the responses -/

namespace Sys2Proof.Machine

/-- The replay of a longer history goes on from the replay of its beginning. -/
theorem replayMem_append (p : Params) (h ts : List Txn) :
    replayMem p (h ++ ts) = ts.foldl (replayFb p) (replayMem p h) :=
  List.foldl_append

/-- Transactions performed by the handle and entered in the history keep the framebuffer to the history's replay. -/
theorem Trace.framebufferIsReplay {s t : State} {ts : List Txn} (h : Trace s t ts) (hs : FramebufferIsReplay s) :
    FramebufferIsReplay t :=
  calc (t.misuse, t.mem)
    _ = ts.foldl (replayFb s.par) (s.misuse, s.mem) := h.fb
    _ = ts.foldl (replayFb s.par) (replayMem s.par s.hist) := by rw [hs]
    _ = replayMem s.par (s.hist ++ ts) := (replayMem_append s.par s.hist ts).symm
    _ = replayMem t.par t.hist := by rw [h.par, h.hist]

/-- Settles O45: whatever a step does to the world is a trace of transactions, and a trace keeps the replay. -/
theorem stepKeepsFramebufferReplay : Obligations.StepKeepsFramebufferReplay := by
  intro s t hs hstep
  obtain ⟨ts, htrace⟩ := (step_happens hstep).trace
  exact htrace.framebufferIsReplay hs

/-- The packets of a step as a list: none, or the one it emits (R72). -/
theorem Responds.packets {s t : State} (h : Responds s t) :
    ∃ ps : List (List Word), ps.length ≤ 1 ∧ t.resps = s.resps ++ ps ∧ t.rspq = s.rspq ++ ps.flatten := by
  rcases h with ⟨hq, hr⟩ | ⟨ws, hq, hr⟩
  · exact ⟨[], by simp, by simp [hr], by simp [hq]⟩
  · exact ⟨[ws], by simp, hr, by simp [hq]⟩

/-- What is appended to a list is appended to each of its ends; where more than all was dropped, that end is empty, and
dropping exactly the list leaves what is appended. -/
theorem exists_drop_append {α : Type} (xs ys : List α) (k : Nat) : ∃ j, xs.drop k ++ ys = (xs ++ ys).drop j := by
  rcases Nat.le_total k xs.length with hk | hk
  · exact ⟨k, (List.drop_append_of_le_length hk).symm⟩
  · exact ⟨xs.length, by rw [List.drop_eq_nil_of_le hk, List.nil_append, List.drop_left]⟩

/-- Packets put at the end of both records keep the words not yet taken the last of all emitted. -/
theorem ResponsesForm.append {s t : State} {ps : List (List Word)} (hs : ResponsesForm s)
    (hr : t.resps = s.resps ++ ps) (hq : t.rspq = s.rspq ++ ps.flatten) : ResponsesForm t := by
  obtain ⟨k, hk⟩ := hs
  rw [ResponsesForm, hq, hr, hk, List.flatten_append]
  exact exists_drop_append _ _ k

/-- Settles O51: the packets a step emits are those of `step_responds`, and they go to the end of both records. -/
theorem stepKeepsResponsesForm : Obligations.StepKeepsResponsesForm := by
  intro s t hstep
  obtain ⟨ps, hlen, hr, hq⟩ := (step_responds hstep).packets
  exact ⟨⟨ps, hlen, hr, hq⟩, fun hs => ResponsesForm.append hs hr hq⟩

end Sys2Proof.Machine

/-! ### Proofs: the controller handle and the parameters along a step -/

namespace Sys2Proof.Machine

/-- The replay of the handle's state goes on along a trace. -/
theorem Trace.handleIsReplay {s t : State} {ts : List Txn} (h : Trace s t ts) (hs : HandleIsReplay s) :
    HandleIsReplay t := by
  rw [HandleIsReplay, h.ctl, h.hist, List.foldl_append, ← hs]

/-- Settles O46: whatever a step does to the world is a trace of transactions, and a trace keeps the replay. -/
theorem stepKeepsHandleReplay : Obligations.StepKeepsHandleReplay := by
  intro s t hs hstep
  obtain ⟨ts, htrace⟩ := (step_happens hstep).trace
  exact htrace.handleIsReplay hs

/-- R126: a pixel write leaves the handle's contract state as it is. -/
theorem PixelWrites.replayCtl {p : Params} {ts : List Txn} (h : PixelWrites p ts) (c : Ctl) :
    ts.foldl replayCtl c = c := by
  induction ts with
  | nil => rfl
  | cons t ts ih =>
    obtain ⟨x, y, d, rfl⟩ := h t (by simp)
    exact ih fun u hu => h u (by simp [hu])

theorem Drawing.ctl {s t : State} (h : Drawing s t) : t.ctl = s.ctl := by
  obtain ⟨ts, hts, htrace⟩ := h.trace
  rw [htrace.ctl, hts.replayCtl]

theorem handleMatchesPhase_congr {s t : State} (hp : t.phase = s.phase) (hc : t.ctl = s.ctl)
    (hs : HandleMatchesPhase s) : HandleMatchesPhase t := by
  rwa [HandleMatchesPhase, hp, hc]

/-- Settles O48: only construction changes the handle's state or PHASE, and its four transactions change both. -/
theorem stepKeepsHandlePhase : Obligations.StepKeepsHandlePhase := by
  intro s t hs _ hstep
  rcases step_happens hstep with hq | ⟨_, hd⟩ | ⟨hu, hr, f, b, htrace⟩
  · exact handleMatchesPhase_congr hq.phase hq.ctl hs
  · exact handleMatchesPhase_congr hd.phase hd.ctl hs
  · have hc : s.ctl = ⟨false, false, false, false⟩ := by simpa [HandleMatchesPhase, hu] using hs
    simp [HandleMatchesPhase, hr, htrace.ctl, hc, initTxns, replayCtl]

theorem Happens.par {s t : State} (h : Happens s t) : t.par = s.par := by
  obtain ⟨ts, htrace⟩ := h.trace
  exact htrace.par

/-- Settles O21: whatever a step or a command does to the world is a trace, and a trace has the same parameters. -/
theorem parametersNeverChange : Obligations.ParametersNeverChange :=
  ⟨fun _ _ h => (step_happens h).par, fun _ _ _ h => (exec_happens h).par, fun _ => rfl⟩

/-- Settles O4: a whole packet at the head of the words is fetched and executed, whether it starts or is read again. -/
theorem stepRunsDecodedPacket : Obligations.StepRunsDecodedPacket := by
  refine ⟨fun s i rest hi hd => ?_, fun s i rest hf hb hs hd => ?_⟩
  · rw [step_idle hi, fetch_instr hd]
    rfl
  · rw [step_operands hf hb hs, fetch_instr (s := giveBack s) hd]
    simp [giveBack, setCmdq, hs]

/-- Settles O6: the frame of every command leaves the packet where it stands unless CPCU is idle. -/
theorem packetNotTakenUnlessIdle : Obligations.PacketNotTakenUnlessIdle := by
  intro i s h
  exact exec_not_idle i (by rintro ⟨hf, hb⟩; simp [hf, hb] at h)

end Sys2Proof.Machine

/-! ### Proofs: STATUS, the clip registers and the reset values -/

namespace Sys2Proof.Machine

/-- R22: the bits of STATUS, from bit 0 up. -/
theorem status_getLsbD (s : State) (i : Nat) :
    (status s).getLsbD i =
      if i < 1 then (BitVec.ofBool (readyFlag s.phase)).getLsbD i
      else if i - 1 < 1 then (BitVec.ofBool s.busy).getLsbD (i - 1)
      else if i - 1 - 1 < 1 then (BitVec.ofBool s.fault).getLsbD (i - 1 - 1)
      else if i - 1 - 1 - 1 < 1 then (BitVec.ofBool s.empty).getLsbD (i - 1 - 1 - 1)
      else if i - 1 - 1 - 1 - 1 < 4 then s.faultCode.getLsbD (i - 1 - 1 - 1 - 1)
      else (0 : BitVec 24).getLsbD (i - 1 - 1 - 1 - 1 - 4) := by
  simp only [← BitVec.getLsbD_append]
  rfl

/-- Settles O14: each field is where `status_getLsbD` has its bits. -/
theorem statusWordLayout : Obligations.StatusWordLayout := by
  refine ⟨fun s => ⟨?_, ?_, ?_, ?_, ?_, ?_⟩, by decide⟩
  · rw [status_getLsbD]; simp [readyFlag]
  · rw [status_getLsbD]; simp
  · rw [status_getLsbD]; simp
  · rw [status_getLsbD]; simp
  · ext i hi
    simp [status_getLsbD, BitVec.getLsbD_eq_getElem, hi, show ¬ 4 + i < 1 by omega]
  · ext i hi
    simp [status_getLsbD]

/-- R98: every corner of an intersection of operand words with the panel lies well within 34 signed bits. -/
theorem isect_bounds (p : Params) (x0 y0 w h : Word) :
    let b := isect p (rectOf x0 y0 w h)
    (-2 ^ 33 ≤ b.x0 ∧ b.x0 < 2 ^ 33) ∧ (-2 ^ 33 ≤ b.y0 ∧ b.y0 < 2 ^ 33) ∧
    (-2 ^ 33 ≤ b.x1 ∧ b.x1 < 2 ^ 33) ∧ (-2 ^ 33 ≤ b.y1 ∧ b.y1 < 2 ^ 33) := by
  have hx := BitVec.le_toInt x0
  have hx' := BitVec.toInt_lt (x := x0)
  have hy := BitVec.le_toInt y0
  have hy' := BitVec.toInt_lt (x := y0)
  have hw := w.isLt
  have hh := h.isLt
  have hW := p.cfg.width.isLt
  have hH := p.cfg.height.isLt
  simp only [isect, rectOf, Params.W, Params.H]
  omega

/-- R24: 34 signed bits hold every corner of an intersection. -/
theorem clip_latchedBox (s : State) : latchedBox (clip s).latches = isect s.par (latchedRect s.latches) := by
  obtain ⟨⟨hx0, hx0'⟩, ⟨hy0, hy0'⟩, ⟨hx1, hx1'⟩, ⟨hy1, hy1'⟩⟩ :=
    isect_bounds s.par s.latches.rx s.latches.ry s.latches.rw s.latches.rh
  simp only [latchedBox, clip, latchedRect, toInt_ofInt_34, *]

/-- Settles O25: the corners survive the cut to 34 bits, and EMPTY is computed before it. -/
theorem clipRegistersAreExact : Obligations.ClipRegistersAreExact := fun s => ⟨clip_latchedBox s, rfl⟩

theorem status_hostReset (s : State) : status (hostReset s) = 0x00000000 := by
  change status State.reset = 0x00000000
  decide

/-- Settles O15: the reset event rebuilds the state from the parameters and draws free values for the latches alone. -/
theorem resetEventState : Obligations.ResetEventState :=
  ⟨fun s => ⟨rfl, rfl, rfl, rfl, rfl, rfl, status_hostReset s, rfl, rfl, rfl, rfl, rfl, fun _ => rfl⟩,
    rfl, rfl, rfl, rfl, rfl, rfl, rfl, rfl, rfl, rfl, fun _ => rfl⟩

/-- Every invariant of the model. -/
def MeetsEveryForm (s : State) : Prop :=
  FramebufferForm s ∧ FramebufferIsReplay s ∧ HandleIsReplay s ∧ HistoryForm s ∧ HandleMatchesPhase s ∧
    FaultForm s ∧ HoldForm s ∧ ResponsesForm s

theorem resetOf_meetsEveryForm (p : Params) (l : Latches) (d e : Nat) :
    MeetsEveryForm { State.resetOf p with latches := l, draws := d, fbDraw := e } :=
  ⟨⟨rfl, by simp [State.resetOf]⟩, rfl, rfl, rfl, rfl, ⟨fun _ => rfl, nofun⟩, ⟨fun _ => ⟨rfl, rfl⟩, nofun⟩, 0, rfl⟩

theorem positive_ge_one (w : Word) : 1 ≤ (Config.positive w).toNat := by
  unfold Config.positive
  split
  · decide
  · rename_i h
    exact Nat.one_le_iff_ne_zero.2 (BitVec.toNat_ne.1 h)

/-- R9 (c): the board's framebuffer starts at an even address and ends by `2^32`. -/
theorem boardFbBase_legal :
    Config.boardFbBase.toNat % 2 = 0 ∧ Config.boardFbBase.toNat + 2 * (480 * 272) ≤ 2 ^ 32 := by
  simp only [Config.boardFbBase, BitVec.toNat_ofNat]
  omega

theorem board_legal : Config.board.Legal := by
  obtain ⟨heven, hend⟩ := boardFbBase_legal
  have hp := positive_ge_one
  exact ⟨⟨by decide, by decide, hp _, hp _, hp _, hp _, hp _, hp _, hp _⟩, by decide, by decide, heven, hend⟩

/-- Settles O52: the forms hold of a state with nothing in it, and the board is legal by its construction. -/
theorem resetMeetsEveryForm : Obligations.ResetMeetsEveryForm :=
  ⟨fun p => resetOf_meetsEveryForm p Latches.zero 0 0, board_legal, rfl, rfl⟩

theorem ResponsesForm.hostTake {s : State} (h : ResponsesForm s) (n : Nat) : ResponsesForm (hostTake n s) := by
  obtain ⟨k, hk⟩ := h
  exact ⟨k + n, by simp [hk]⟩

/-- Settles O53: sending touches CMDQ alone, which no form reads; taking drops words of RSPQ; resetting starts anew. -/
theorem hostKeepsEveryForm : Obligations.HostKeepsEveryForm := by
  intro s ws n h t ht
  simp only [List.mem_cons, List.not_mem_nil, or_false] at ht
  rcases ht with rfl | rfl | rfl
  · exact h
  · obtain ⟨hform, hfb, hhandle, hhist, hphase, hfault, hhold, hresp⟩ := h
    exact ⟨hform, hfb, hhandle, hhist, hphase, hfault, hhold, hresp.hostTake n⟩
  · exact resetOf_meetsEveryForm s.par (freeLatches s.draws) (s.draws + 1) (s.fbDraw + 1)

end Sys2Proof.Machine

/-! ### Proofs: how a step ends -/

namespace Sys2Proof.Machine

/-- R132: the fault codes there are. -/
def IsFaultCode (code : BitVec 4) : Prop :=
  code = codeIllegalOpcode ∨ code = codeReservedNonzero ∨ code = codeProtocol

/-- How a step that starts without a fault, with `FAULT_CODE = c0`, ends: without a fault, and, where `ok` holds of its
start, in the form a hold needs; or with one, and no command in progress. -/
inductive EndsWell (c0 : BitVec 4) (ok : Prop) (t : State) : Prop where
  | runs (fault : t.fault = false) (code : t.faultCode = c0) (hold : ok → HoldForm t)
  | stops (fault : t.fault = true) (code : IsFaultCode t.faultCode) (busy : t.busy = false) (hold : HoldForm t)

/-- What resuming a stream relies on: in READY, a stream command, with no more elements taken than there are. -/
structure InStream (s : State) : Prop where
  phase : s.phase = .ready
  count : s.latches.k.toNat ≤ s.latches.n.toNat
  op : s.latches.op = Opcode.drawpx.code ∨ s.latches.op = Opcode.filla.code

section

variable {c0 : BitVec 4} {ok : Prop}

theorem holdForm_of_not_busy {s : State} (hb : s.busy = false) (hs : s.streaming = false) (hp : s.part = []) :
    HoldForm s :=
  ⟨fun _ => ⟨hs, hp⟩, fun h => by simp [hb] at h⟩

theorem complete_endsWell {s : State} (hf : s.fault = false) (hc : s.faultCode = c0) (o : Opcode) (ws : List Word) :
    EndsWell c0 ok (complete o ws s) :=
  .runs hf hc fun _ => holdForm_of_not_busy rfl rfl rfl

theorem raiseFault_endsWell {code : BitVec 4} (h : IsFaultCode code) (ws : List Word) (s : State) :
    EndsWell c0 ok (raiseFault code ws s) :=
  .stops rfl h rfl (holdForm_of_not_busy rfl rfl rfl)

theorem isFaultCode_reservedNonzero : IsFaultCode codeReservedNonzero := .inr (.inl rfl)

/-! ### The loops and the ends of the streams -/

/-- What the loop over `n` elements of a stream leaves: all of them taken, or the fault of a malformed word. -/
def Streamed (n : Nat) (s u : State) : Prop :=
  (OnlyDraws s u ∧ u.latches.k = s.latches.k + BitVec.ofNat 64 n) ∨
  ∃ ws v, u = raiseFault codeReservedNonzero ws v

theorem drawElems_streamed {es : List Elem} {s u : State} (h : drawElems es s = .next u) : Streamed es.length s u := by
  rcases drawElems_cases es s with ⟨ps, rfl, _, h'⟩ | ⟨ps, e, fs, _, _, _, h'⟩ | ⟨_, h'⟩ <;> cases h'.symm.trans h
  · exact .inl ⟨drawn_onlyDraws ps s, by simp [drawn_k]⟩
  · exact .inr ⟨_, _, rfl⟩

theorem fillaColors_streamed {ws : List Word} {s u : State} (h : fillaColors ws s = .next u) :
    Streamed ws.length s u := by
  rcases fillaColors_cases ws s with ⟨cs, rfl, h'⟩ | ⟨cs, w, vs, _, _, h'⟩ | ⟨_, h'⟩ <;> cases h'.symm.trans h
  · exact .inl ⟨fillaDrawn_onlyDraws cs s, by simp [fillaDrawn_k]⟩
  · exact .inr ⟨_, _, rfl⟩

theorem endStream_endsWell {n : Nat} {o : Opcode} {s u t : State} (hf : s.fault = false) (hu : Streamed n s u)
    (h : endStream o u = .next t) : EndsWell s.faultCode ok t := by
  rcases hu with ⟨hd, _⟩ | ⟨ws, v, rfl⟩
  · have huf : u.fault = false := hd.fault.trans hf
    simp only [endStream, huf, Bool.false_eq_true, if_false] at h
    cases h
    exact complete_endsWell huf hd.faultCode o []
  · cases h
    exact raiseFault_endsWell isFaultCode_reservedNonzero ws v

/-- The scan cursor does not wrap: a count has 32 bits, the cursor 64. -/
theorem cursor_add_toNat {k : BitVec 64} {n : Word} {m : Nat} (h : k.toNat + m ≤ n.toNat) :
    (k + BitVec.ofNat 64 m).toNat = k.toNat + m := by
  have := n.isLt
  simp only [BitVec.toNat_add, BitVec.toNat_ofNat]
  omega

theorem endOrHold_endsWell {n : Nat} {o : Opcode} {s u t : State} (hf : s.fault = false) (hu : Streamed n s u)
    (hs : ok → InStream s) (hn : n ≤ s.latches.n.toNat - s.latches.k.toNat) (h : endOrHold o u = .next t) :
    EndsWell s.faultCode ok t := by
  rcases hu with ⟨hd, hk⟩ | ⟨ws, v, rfl⟩
  · have huf : u.fault = false := hd.fault.trans hf
    simp only [endOrHold, huf, Bool.false_eq_true, if_false] at h
    split at h <;> cases h
    · exact complete_endsWell huf hd.faultCode o []
    · rename_i hne
      refine .runs huf hd.faultCode fun hok => ⟨nofun, fun _ _ => ?_⟩
      obtain ⟨hphase, hcount, hop⟩ := hs hok
      have hk' : u.latches.k.toNat = s.latches.k.toNat + n := by
        rw [hk]
        exact cursor_add_toNat (n := s.latches.n) (by omega)
      rw [hd.n] at hne
      simp only [hold_phase, hold_latches, hd.phase, hd.n, hd.op]
      exact ⟨hphase, by omega, hop⟩
  · cases h
    exact raiseFault_endsWell isFaultCode_reservedNonzero ws v

theorem streamDrawpx_endsWell {ws : List Word} {s t : State} (hf : s.fault = false) (hs : ok → InStream s)
    (h : streamDrawpx ws s = .next t) : EndsWell s.faultCode ok t := by
  obtain ⟨u, h1, h2⟩ := andThen_eq_next h
  have hlen := (splitElems_spec ws (s.latches.n.toNat - s.latches.k.toNat)).2.1
  exact endOrHold_endsWell (s := setCmdq (splitElems ws _).2 s) hf (drawElems_streamed h1)
    (fun hok => ⟨(hs hok).phase, (hs hok).count, (hs hok).op⟩) hlen h2

theorem streamFilla_endsWell {ws : List Word} {s t : State} (hf : s.fault = false) (hs : ok → InStream s)
    (h : streamFilla ws s = .next t) : EndsWell s.faultCode ok t := by
  obtain ⟨u, h1, h2⟩ := andThen_eq_next h
  have hlen : (ws.take (s.latches.n.toNat - s.latches.k.toNat)).length ≤ s.latches.n.toNat - s.latches.k.toNat :=
    List.length_take_le _ _
  exact endOrHold_endsWell (s := setCmdq (ws.drop _) s) hf (fillaColors_streamed h1)
    (fun hok => ⟨(hs hok).phase, (hs hok).count, (hs hok).op⟩) hlen h2

/-! ### The commands -/

theorem ctlAll_fault {ts : List Txn} {s t : State} (h : ctlAll ts s = .next t) :
    t.fault = s.fault ∧ t.faultCode = s.faultCode := by
  induction ts generalizing s with
  | nil =>
    cases h
    exact ⟨rfl, rfl⟩
  | cons u ts ih =>
    obtain ⟨v, h1, h2⟩ := andThen_eq_next h
    rcases ctl_cases u s with ⟨_, h'⟩ | ⟨_, h'⟩ <;> cases h'.symm.trans h1
    simpa using ih h2

theorem fillBox_endsWell {c : Color} {o : Opcode} {s t : State} (hf : s.fault = false)
    (h : andThen (fillBox c s) (fun s => .next (complete o [] s)) = .next t) : EndsWell s.faultCode ok t := by
  obtain ⟨u, h1, h2⟩ := andThen_eq_next h
  cases h2
  rcases emitAll_cases (if s.empty = true then [] else boxPoints (latchedBox s.latches)) c s with
    ⟨_, h'⟩ | ⟨_, h'⟩ <;> cases h'.symm.trans h1
  exact complete_endsWell ((painted_onlyDraws _ c s).fault.trans hf) (painted_onlyDraws _ c s).faultCode o []

theorem takeColor_endsWell {cw : Word} {ws : List Word} {use : Color → State → Out} {s t : State}
    (h : takeColor cw ws use s = .next t)
    (huse : ∀ c, use c (loadColor c s) = .next t → EndsWell c0 ok t) : EndsWell c0 ok t := by
  rcases takeColor_next h with ⟨c, _, h1⟩ | ⟨_, rfl⟩
  · exact huse c h1
  · exact raiseFault_endsWell isFaultCode_reservedNonzero ws s

theorem body_endsWell {i : Instr} {s t : State} (hf : s.fault = false) (h : body i s = .next t) :
    EndsWell s.faultCode ok t := by
  cases i with
  | init f m =>
    simp only [body, initBody] at h
    split at h
    · cases h
      exact raiseFault_endsWell isFaultCode_reservedNonzero [] _
    · obtain ⟨u, h1, h2⟩ := andThen_eq_next h
      cases h2
      obtain ⟨huf, huc⟩ := ctlAll_fault h1
      exact complete_endsWell (s := setReady u) (huf.trans hf) huc _ _
  | getcfg =>
    cases h
    exact complete_endsWell hf rfl _ _
  | bbox =>
    cases h
    exact complete_endsWell hf rfl _ _
  | pack c =>
    simp only [body, packBody] at h
    refine takeColor_endsWell h fun c h1 => ?_
    cases h1
    exact complete_endsWell (s := loadColor c s) hf rfl _ _
  | isect x0 y0 w h' =>
    cases h
    exact complete_endsWell (s := clip (loadRect x0 y0 w h' s)) hf rfl _ _
  | drawpx es =>
    obtain ⟨u, h1, h2⟩ := andThen_eq_next h
    exact endStream_endsWell (s := loadCount _ s) hf (drawElems_streamed h1) h2
  | filla x0 y0 w h' cs =>
    obtain ⟨u, h1, h2⟩ := andThen_eq_next h
    exact endStream_endsWell (s := fillaStart x0 y0 w h' _ s) hf (fillaColors_streamed h1) h2
  | fills x0 y0 w h' c =>
    simp only [body, fillsBody] at h
    exact takeColor_endsWell h fun c h1 =>
      fillBox_endsWell (s := clip (loadColor c (loadRect x0 y0 w h' s))) hf h1
  | clear c =>
    simp only [body, clearBody] at h
    exact takeColor_endsWell h fun c h1 => fillBox_endsWell (s := clip (loadRect 0 0 _ _ (loadColor c s))) hf h1

theorem exec_endsWell {i : Instr} {s t : State} (hi : Idle s) (h : exec i s = .next t) : EndsWell s.faultCode ok t := by
  rw [exec_eq_command] at h
  rcases command_cases i (body i) s with ⟨hn, _⟩ | ⟨_, _, h'⟩ | ⟨_, _, h'⟩
  · exact absurd hi hn
  · exact body_endsWell (s := takeHeader i.opcode.code s) hi.1 (h'.symm.trans h)
  · cases h'.symm.trans h
    exact raiseFault_endsWell (.inr (.inr rfl)) _ _

/-! ### Packets that arrive in parts, and the step -/

theorem loadArrived_fault (o : Opcode) (ws : List Word) (s : State) :
    (loadArrived o ws s).fault = s.fault ∧ (loadArrived o ws s).faultCode = s.faultCode := by
  cases o <;> exact ⟨rfl, rfl⟩

theorem startIncomplete_endsWell {o : Opcode} {ws : List Word} {s t : State} (hf : s.fault = false)
    (h : startIncomplete o ws s = .next t) : EndsWell s.faultCode ok t := by
  unfold startIncomplete at h
  simp only at h
  split at h
  · rename_i hp
    split at h
    · rename_i n ws
      exact streamDrawpx_endsWell (s := loadCount n (takeHeader Opcode.drawpx.code s)) hf
        (fun _ => ⟨phaseOk_drawing hp (by simp), Nat.zero_le _, .inl rfl⟩) h
    · rename_i x0 y0 w h' n ws
      exact streamFilla_endsWell (s := fillaStart x0 y0 w h' n (takeHeader Opcode.filla.code s)) hf
        (fun _ => ⟨phaseOk_drawing hp (by simp), Nat.zero_le _, .inr rfl⟩) h
    · cases h
      obtain ⟨h1, h2⟩ := loadArrived_fault o ws (takeHeader o.code s)
      exact .runs (h1.trans hf) h2 fun _ => ⟨nofun, nofun⟩
  · cases h
    exact raiseFault_endsWell (.inr (.inr rfl)) _ _

theorem fetchCommand_endsWell {s t : State} (hi : Idle s) (hs : ok → HoldForm s) (h : fetchCommand s = .next t) :
    EndsWell s.faultCode ok t := by
  rcases fetch_cases s with ⟨_, h'⟩ | ⟨_, _, _, _, h'⟩ | ⟨_, _, _, _, _, _, h'⟩ | ⟨_, _, i, rest, _, _, _, h'⟩ |
    ⟨o, ws, _, _, h'⟩ <;> rw [h'] at h
  · cases h
    exact .runs hi.1 rfl hs
  · cases h
    exact raiseFault_endsWell (.inl rfl) _ _
  · cases h
    exact raiseFault_endsWell isFaultCode_reservedNonzero _ _
  · exact exec_endsWell (s := setCmdq rest s) hi h
  · exact startIncomplete_endsWell (s := setCmdq [] s) hi.1 h

theorem HoldForm.inStream {s : State} (hs : HoldForm s) (hb : s.busy = true) (hst : s.streaming = true) :
    InStream s := by
  obtain ⟨hp, hk, ho⟩ := hs.2 hb hst
  exact ⟨hp, hk.le, ho⟩

/-- Everything a step that starts without a fault can leave in the flags and in the fields of a hold. -/
theorem step_endsWell {s t : State} (hf : s.fault = false) (h : step s = .next t) :
    EndsWell s.faultCode (HoldForm s) t := by
  rcases step_cases s with ⟨hf', _⟩ | ⟨hi, h'⟩ | ⟨_, _, _, h'⟩ | ⟨_, hb, hst, h'⟩
  · simp [hf] at hf'
  · exact fetchCommand_endsWell hi id (h'.symm.trans h)
  · exact fetchCommand_endsWell (s := giveBack s) ⟨hf, rfl⟩ (fun _ => holdForm_of_not_busy rfl rfl rfl)
      (h'.symm.trans h)
  · have hin (hs : HoldForm s) : InStream (clearPart s) :=
      have ⟨hp, hk, ho⟩ := hs.inStream hb hst
      ⟨hp, hk, ho⟩
    rw [h'] at h
    unfold resumeStream at h
    split at h
    · exact streamDrawpx_endsWell (s := clearPart s) hf hin h
    · exact streamFilla_endsWell (s := clearPart s) hf hin h
    · cases h
      exact .runs hf rfl id

end

/-- Settles O49: in a fault a step changes nothing; one that starts without keeps FAULT_CODE or enters a code. -/
theorem stepKeepsFaultForm : Obligations.StepKeepsFaultForm := by
  intro s t hs hstep
  cases hf : s.fault with
  | true =>
    cases (step_fault hf).symm.trans hstep
    exact hs
  | false =>
    cases step_endsWell hf hstep with
    | runs fault code _ => exact ⟨fun _ => code.trans (hs.1 hf), by simp [fault]⟩
    | stops fault code busy _ => exact ⟨by simp [fault], fun _ => ⟨busy, code⟩⟩

/-- Settles O50: in a fault a step changes nothing; one that starts without ends its command, or holds in good form. -/
theorem stepKeepsHoldForm : Obligations.StepKeepsHoldForm := by
  intro s t hs hstep
  cases hf : s.fault with
  | true =>
    cases (step_fault hf).symm.trans hstep
    exact hs
  | false =>
    cases step_endsWell hf hstep with
    | runs _ _ hold => exact hold hs
    | stops _ _ _ hold => exact hold

end Sys2Proof.Machine

/-! ### Proofs: commands from two states that correspond -/

namespace Sys2Proof.Machine

/-- Two outcomes of the same kind, their next states related by `R`. -/
inductive Alike (R : State → State → Prop) : Out → Out → Prop where
  | next {s t : State} (h : R s t) : Alike R (.next s) (.next t)
  | fault (r : Fault) : Alike R (.fault r) (.fault r)
  | refused (r : Refusal) : Alike R (.refused r) (.refused r)

/-- What drawing reads outside the latches is the same in related states, and its operations keep them related. -/
structure DrawStable (R : State → State → Prop) : Prop where
  par {s t : State} (h : R s t) : s.par = t.par
  ctl {s t : State} (h : R s t) : s.ctl = t.ctl
  empty {s t : State} (h : R s t) : s.empty = t.empty
  color {s t : State} (c : Color) (h : R s t) : R (loadColor c s) (loadColor c t)
  point {s t : State} (x y : Word) (h : R s t) : R (loadPoint x y s) (loadPoint x y t)
  advance {s t : State} (h : R s t) : R (advance s) (advance t)
  performs {s t : State} (u : Txn) (h : R s t) : R (handlePerforms u (record u s)) (handlePerforms u (record u t))

/-- A fault keeps related states related. -/
def RaiseStable (R : State → State → Prop) : Prop :=
  ∀ (code : BitVec 4) (ws : List Word) {s t : State}, R s t → R (raiseFault code ws s) (raiseFault code ws t)

/-- `s` with its latches changed by a function. -/
def withLatches (f : Latches → Latches) (s : State) : State := { s with latches := f s.latches }

/-- `s` with another EMPTY flag. -/
def withEmpty (e : Bool) (s : State) : State := { s with empty := e }

/-- What every command reads outside the latches is the same in related states, and its operations keep them related. -/
structure CommandStable (R : State → State → Prop) : Prop extends DrawStable R where
  raise : RaiseStable R
  fault {s t : State} (h : R s t) : s.fault = t.fault
  busy {s t : State} (h : R s t) : s.busy = t.busy
  phase {s t : State} (h : R s t) : s.phase = t.phase
  latches {s t : State} (f : Latches → Latches) (h : R s t) : R (withLatches f s) (withLatches f t)
  emptied {s t : State} (e : Bool) (h : R s t) : R (withEmpty e s) (withEmpty e t)
  header {s t : State} (op : BitVec 8) (h : R s t) : R (takeHeader op s) (takeHeader op t)
  untake {s t : State} (ws : List Word) (h : R s t) : R (untake ws s) (untake ws t)
  ready {s t : State} (h : R s t) : R (setReady s) (setReady t)
  complete {s t : State} (o : Opcode) (ws : List Word) (h : R s t) : R (complete o ws s) (complete o ws t)

section

variable {R Q : State → State → Prop}

theorem Alike.mono {o o' : Out} (h : Alike Q o o') (hQ : ∀ {s t}, Q s t → R s t) : Alike R o o' := by
  cases h with
  | next h => exact .next (hQ h)
  | fault r => exact .fault r
  | refused r => exact .refused r

theorem Alike.andThen {o o' : Out} {f g : State → Out} (h : Alike Q o o')
    (hf : ∀ {s t}, Q s t → Alike R (f s) (g t)) : Alike R (andThen o f) (andThen o' g) := by
  cases h with
  | next h => exact hf h
  | fault r => exact .fault r
  | refused r => exact .refused r

theorem Alike.exists_next {s : State} {o : Out} (h : Alike R (.next s) o) : ∃ t, o = .next t ∧ R s t := by
  cases h with
  | next h => exact ⟨_, rfl, h⟩

theorem Alike.eq_fault {r : Fault} {o : Out} (h : Alike R (.fault r) o) : o = .fault r := by
  cases h
  rfl

theorem Alike.eq_refused {r : Refusal} {o : Out} (h : Alike R (.refused r) o) : o = .refused r := by
  cases h
  rfl

/-! ### Pixels and colours -/

theorem takeColor_alike (hraise : RaiseStable R) {s t : State} (h : R s t) (cw : Word)
    (ws : List Word) {f g : Color → State → Out}
    (hf : ∀ c, Alike R (f c (loadColor c s)) (g c (loadColor c t))) :
    Alike R (takeColor cw ws f s) (takeColor cw ws g t) := by
  rcases colorWord_or_bad cw with ⟨c, rfl⟩ | hb
  · simpa using hf c
  · rw [takeColor_bad hb, takeColor_bad hb]
    exact .next (hraise _ ws h)

theorem ctl_alike (hR : DrawStable R) {s t : State} (h : R s t) (u : Txn) : Alike R (ctl u s) (ctl u t) := by
  have ha : handleAccepts u s = handleAccepts u t := by
    cases u <;> simp only [handleAccepts, hR.ctl h, hR.par h]
  unfold ctl
  rw [ha]
  split
  · exact .next (hR.performs u h)
  · exact .fault _

theorem ctlAll_alike (hR : DrawStable R) {s t : State} (h : R s t) (us : List Txn) :
    Alike R (ctlAll us s) (ctlAll us t) := by
  induction us generalizing s t with
  | nil => exact .next h
  | cons u us ih => exact (ctl_alike hR h u).andThen ih

theorem emit_alike (hR : DrawStable R) {s t : State} (h : R s t) (x y : Word) (c : Color) :
    Alike R (emit x y c s) (emit x y c t) := by
  unfold emit
  rw [hR.par h]
  exact ctl_alike hR (hR.color c (hR.point x y h)) _

theorem emitAll_alike (hR : DrawStable R) {s t : State} (h : R s t) (pts : List (Int × Int)) (c : Color) :
    Alike R (emitAll pts c s) (emitAll pts c t) := by
  induction pts generalizing s t with
  | nil => exact .next h
  | cons pt pts ih => exact (emit_alike hR h _ _ c).andThen ih

/-- Related states in which, besides, the latches that the loop of FILLA reads are the same. -/
structure Reading (R : State → State → Prop) (s t : State) : Prop where
  rel : R s t
  rect : latchedRect s.latches = latchedRect t.latches
  box : latchedBox s.latches = latchedBox t.latches
  k : s.latches.k = t.latches.k

theorem DrawStable.reading (hR : DrawStable R) : DrawStable (Reading R) where
  par h := hR.par h.rel
  ctl h := hR.ctl h.rel
  empty h := hR.empty h.rel
  color c h := ⟨hR.color c h.rel, h.rect, h.box, h.k⟩
  point x y h := ⟨hR.point x y h.rel, h.rect, h.box, h.k⟩
  advance h := ⟨hR.advance h.rel, h.rect, h.box, by simp [h.k]⟩
  performs u h := ⟨hR.performs u h.rel, by simpa using h.rect, by simpa using h.box, by simpa using h.k⟩

theorem RaiseStable.reading (hR : RaiseStable R) : RaiseStable (Reading R) :=
  fun code ws _ _ h => ⟨hR code ws h.rel, h.rect, h.box, h.k⟩

theorem fillaPoint_alike (hR : DrawStable R) {s t : State} (h : Reading R s t) (c : Color) :
    Alike (Reading R) (fillaPoint c s) (fillaPoint c t) := by
  simp only [fillaPoint, hR.empty h.rel, h.rect, h.box, h.k]
  split
  · exact emit_alike hR.reading h _ _ c
  · exact .next h

/-! ### The two stream loops as one -/

/-- The loop over the elements of a stream: each has a colour word, checked before the element is acted on; a malformed
one leaves the words of those after it untaken (R137). -/
def streamLoop {α : Type} (color : α → Word) (words : List α → List Word) (act : α → Color → State → Out) :
    List α → State → Out
  | [], s => .next s
  | a :: as, s =>
    takeColor (color a) (words as)
      (fun c s => andThen (act a c s) (fun s => streamLoop color words act as (advance s))) s

theorem drawElems_eq_streamLoop (es : List Elem) (s : State) :
    drawElems es s = streamLoop Elem.c elemWords (fun e => emit e.x e.y) es s := by
  induction es generalizing s with
  | nil => rfl
  | cons e es ih => simp only [drawElems, streamLoop, ih]

theorem fillaColors_eq_streamLoop (ws : List Word) (s : State) :
    fillaColors ws s = streamLoop id id (fun _ => fillaPoint) ws s := by
  induction ws generalizing s with
  | nil => rfl
  | cons w ws ih => simp only [fillaColors, streamLoop, ih, id]

theorem streamLoop_alike {α : Type} {color : α → Word} {words : List α → List Word} {act : α → Color → State → Out}
    (hR : DrawStable R) (hraise : RaiseStable R)
    (hact : ∀ {s t} a c, R s t → Alike R (act a c s) (act a c t)) {s t : State} (h : R s t) (as : List α) :
    Alike R (streamLoop color words act as s) (streamLoop color words act as t) := by
  induction as generalizing s t with
  | nil => exact .next h
  | cons a as ih =>
    exact takeColor_alike hraise h _ _ fun c =>
      (hact a c (hR.color c h)).andThen fun hu => ih (hR.advance hu)

theorem drawElems_alike (hR : DrawStable R) (hraise : RaiseStable R) {s t : State} (h : R s t) (es : List Elem) :
    Alike R (drawElems es s) (drawElems es t) := by
  simp only [drawElems_eq_streamLoop]
  exact streamLoop_alike hR hraise (fun e c h => emit_alike hR h e.x e.y c) h es

theorem fillaColors_alike (hR : DrawStable R) (hraise : RaiseStable R) {s t : State} (h : Reading R s t)
    (ws : List Word) : Alike (Reading R) (fillaColors ws s) (fillaColors ws t) := by
  simp only [fillaColors_eq_streamLoop]
  exact streamLoop_alike hR.reading hraise.reading (fun _ c h => fillaPoint_alike hR h c) h ws

/-! ### The commands -/

/-- The latches after a rectangle has been latched and clipped. -/
def clipRect (p : Params) (x0 y0 w h : Word) (l : Latches) : Latches :=
  { l with
    rx := x0, ry := y0, rw := w, rh := h
    ix0 := BitVec.ofInt 34 (isect p (rectOf x0 y0 w h)).x0
    iy0 := BitVec.ofInt 34 (isect p (rectOf x0 y0 w h)).y0
    ix1 := BitVec.ofInt 34 (isect p (rectOf x0 y0 w h)).x1
    iy1 := BitVec.ofInt 34 (isect p (rectOf x0 y0 w h)).y1 }

/-- Latching and clipping a rectangle, as one change of the latches and of EMPTY. -/
theorem clip_loadRect (x0 y0 w h : Word) (s : State) :
    clip (loadRect x0 y0 w h s) =
      withEmpty (boxEmpty (isect s.par (rectOf x0 y0 w h))) (withLatches (clipRect s.par x0 y0 w h) s) := rfl

namespace CommandStable

theorem clip_loadRect (hR : CommandStable R) {s t : State} (h : R s t) (x0 y0 w h' : Word) :
    R (clip (loadRect x0 y0 w h' s)) (clip (loadRect x0 y0 w h' t)) := by
  rw [Machine.clip_loadRect, Machine.clip_loadRect, hR.par h]
  exact hR.emptied _ (hR.latches _ h)

theorem fillaStart (hR : CommandStable R) {s t : State} (h : R s t) (x0 y0 w h' n : Word) :
    Reading R (fillaStart x0 y0 w h' n s) (fillaStart x0 y0 w h' n t) where
  rel := hR.latches (fun l => { l with n := n, k := 0 }) (hR.clip_loadRect h x0 y0 w h')
  rect := rfl
  box := by
    simp only [Machine.fillaStart, clip_latchedBox, loadCount_par, loadRect_par, hR.par h]
    rfl
  k := rfl

theorem endStream (hR : CommandStable R) {s t : State} (h : R s t) (o : Opcode) :
    Alike R (endStream o s) (endStream o t) := by
  unfold Machine.endStream
  rw [hR.fault h]
  split
  · exact .next h
  · exact .next (hR.complete o [] h)

theorem fillBox (hR : CommandStable R) {s t : State} (h : R s t) (x0 y0 w h' : Word) (c : Color) (o : Opcode) :
    Alike R
      (andThen (fillBox c (clip (loadRect x0 y0 w h' s))) (fun s => .next (Machine.complete o [] s)))
      (andThen (Machine.fillBox c (clip (loadRect x0 y0 w h' t))) (fun s => .next (Machine.complete o [] s))) := by
  have hc := hR.clip_loadRect h x0 y0 w h'
  have hbox :
      latchedBox (clip (loadRect x0 y0 w h' s)).latches = latchedBox (clip (loadRect x0 y0 w h' t)).latches := by
    simp only [clip_latchedBox, loadRect_par, hR.par h]
    rfl
  simp only [Machine.fillBox, hbox, hR.empty hc]
  exact (emitAll_alike hR.toDrawStable hc _ c).andThen fun hu => .next (hR.complete o [] hu)

theorem body (hR : CommandStable R) {s t : State} (h : R s t) (i : Instr) : Alike R (body i s) (body i t) := by
  have hD := hR.toDrawStable
  cases i with
  | init f m =>
    simp only [Machine.body, initBody]
    split
    · exact .next (hR.raise _ [] (hR.latches (fun l => { l with clkf := f }) h))
    · rename_i b _
      rw [hR.par h]
      have hl := hR.latches (fun l => { l with clkf := f, clkm := b }) h
      exact (ctlAll_alike hD hl _).andThen fun hu => .next (hR.complete _ [] (hR.ready hu))
  | getcfg =>
    simp only [Machine.body, getcfgBody, hR.par h]
    exact .next (hR.complete _ _ h)
  | bbox =>
    simp only [Machine.body, bboxBody, hR.par h]
    exact .next (hR.complete _ _ h)
  | pack c =>
    simp only [Machine.body, packBody]
    exact takeColor_alike hR.raise h c [] fun c => .next (hR.complete _ _ (hR.color c h))
  | isect x0 y0 w h' =>
    simp only [Machine.body, isectBody, clip_latchedBox, loadRect_par, loadRect_latches, hR.par h]
    exact .next (hR.complete _ _ (hR.clip_loadRect h x0 y0 w h'))
  | drawpx es =>
    have hl := hR.latches (fun l => { l with n := countWord es.length, k := 0 }) h
    exact (drawElems_alike hD hR.raise hl es).andThen fun hu => hR.endStream hu _
  | filla x0 y0 w h' cs =>
    exact (fillaColors_alike hD hR.raise (hR.fillaStart h x0 y0 w h' _) cs).andThen fun hu => hR.endStream hu.rel _
  | fills x0 y0 w h' c =>
    have hl := hR.latches (fun l => { l with rx := x0, ry := y0, rw := w, rh := h' }) h
    simp only [Machine.body, fillsBody]
    exact takeColor_alike hR.raise hl c [] fun c => hR.fillBox (hR.color c h) x0 y0 w h' c _
  | clear c =>
    simp only [Machine.body, clearBody]
    refine takeColor_alike hR.raise h c [] fun c => ?_
    simp only [loadColor_par, hR.par h]
    exact hR.fillBox (hR.color c h) _ _ _ _ c _

/-- A command from related states ends in related states. -/
theorem exec (hR : CommandStable R) {s t : State} (h : R s t) (i : Instr) : Alike R (exec i s) (exec i t) := by
  simp only [exec_eq_command, command, hR.fault h, hR.busy h, hR.phase h]
  split
  · exact .next (hR.untake _ h)
  · split
    · exact hR.body (hR.header _ h) i
    · exact .next (hR.raise _ _ (hR.header _ h))

end CommandStable

end

/-! ### States that differ in the latches -/

theorem handlePerforms_withLatches (u : Txn) (s : State) (l : Latches) (d : Nat) :
    handlePerforms u (record u { s with latches := l, draws := d }) =
      { handlePerforms u (record u s) with latches := l, draws := d } := by
  cases u with
  | writePixel layer x y c =>
    by_cases hr : inRange s.par x y = true <;> simp [handlePerforms, fbWrite, record, hr]
  | _ => rfl

theorem sameButLatches_commandStable : CommandStable SameButLatches where
  par h := (congrArg State.par h :)
  ctl h := (congrArg State.ctl h :)
  empty h := (congrArg State.empty h :)
  fault h := (congrArg State.fault h :)
  busy h := (congrArg State.busy h :)
  phase h := (congrArg State.phase h :)
  color c h := congrArg (loadColor c) h
  point x y h := congrArg (loadPoint x y) h
  advance h := congrArg Machine.advance h
  performs {s t} u h := by
    have hu := congrArg (fun s => handlePerforms u (record u s)) h
    simpa [SameButLatches, handlePerforms_withLatches] using hu
  raise code ws _ _ h := congrArg (raiseFault code ws) h
  latches f h := congrArg (withLatches f) h
  emptied e h := congrArg (withEmpty e) h
  header op h := congrArg (takeHeader op) h
  untake ws h := congrArg (Machine.untake ws) h
  ready h := congrArg setReady h
  complete o ws h := congrArg (Machine.complete o ws) h

theorem SameButLatches.observation {s t : State} (h : SameButLatches s t) : observation s = observation t :=
  (congrArg Machine.observation h :)

/-- Settles O57: states that differ in the latches correspond, whatever the latches hold. -/
theorem nothingCarriesOverInLatches : Obligations.NothingCarriesOverInLatches := by
  intro i s l d _
  have h : SameButLatches s { s with latches := l, draws := d } := rfl
  have ha := sameButLatches_commandStable.exec h i
  refine ⟨fun t ht => ?_, fun r hr => (hr ▸ ha).eq_fault⟩
  obtain ⟨t', ht', hs⟩ := (ht ▸ ha).exists_next
  exact ⟨t', ht', hs, SameButLatches.observation hs⟩

end Sys2Proof.Machine

/-! ### Proofs: words behind a packet -/

namespace Sys2Proof

/-- R60, R71: behind its header, every well-formed command is read back from its operand words. -/
theorem decodeOperands_operandWords {i : Instr} (hi : i.wellFormed = true) (rest : List Word) :
    decodeOperands i.opcode (i.operandWords ++ rest) = .instr i rest := by
  cases i with
  | drawpx es =>
    have hn : (countWord es.length).toNat = es.length :=
      countWord_toNat (by simpa [Instr.wellFormed, countFits] using hi)
    simp [Instr.opcode, Instr.operandWords, decodeOperands, hn]
  | filla x0 y0 w h cs =>
    have hn : (countWord cs.length).toNat = cs.length :=
      countWord_toNat (by simpa [Instr.wellFormed, countFits] using hi)
    simp [Instr.opcode, Instr.operandWords, decodeOperands, hn]
  | _ => rfl

/-- R70: the operand words of a decoded command are the words it was decoded from. -/
theorem decodeOperands_eq_instr {o : Opcode} {ws rest : List Word} {i : Instr}
    (h : decodeOperands o ws = .instr i rest) :
    i.opcode = o ∧ i.wellFormed = true ∧ i.operandWords ++ rest = ws := by
  cases o with
  | getcfg | bbox =>
    cases h
    exact ⟨rfl, rfl, rfl⟩
  | drawpx =>
    simp only [decodeOperands] at h
    split at h
    · rename_i n ws
      split at h <;> cases h
      rename_i hn
      refine ⟨rfl, ?_, ?_⟩
      · simpa [Instr.wellFormed, countFits, hn] using n.isLt
      · simp [Instr.operandWords, hn, (splitElems_spec ws n.toNat).1]
    · cases h
  | filla =>
    simp only [decodeOperands] at h
    split at h
    · rename_i n ws
      split at h <;> cases h
      rename_i hn
      refine ⟨rfl, ?_, ?_⟩
      · simpa [Instr.wellFormed, countFits, hn] using n.isLt
      · simp only [Instr.operandWords, hn, countWord_toNat_self, List.cons_append, List.take_append_drop]
    · cases h
  | _ =>
    simp only [decodeOperands] at h
    split at h <;> cases h
    exact ⟨rfl, rfl, rfl⟩

/-- R31: a whole packet is read in the same way with more words behind it. -/
theorem decodeOperands_append {o : Opcode} {ws rest : List Word} {i : Instr}
    (h : decodeOperands o ws = .instr i rest) (vs : List Word) :
    decodeOperands o (ws ++ vs) = .instr i (rest ++ vs) := by
  obtain ⟨rfl, hi, rfl⟩ := decodeOperands_eq_instr h
  rw [List.append_assoc]
  exact decodeOperands_operandWords hi _

/-- Splitting a longer stream gives the elements of the shorter one, and goes on behind them. -/
theorem splitElems_append_right (ws vs : List Word) (n : Nat) :
    splitElems (ws ++ vs) n =
      ((splitElems ws n).1 ++ (splitElems ((splitElems ws n).2 ++ vs) (n - (splitElems ws n).1.length)).1,
        (splitElems ((splitElems ws n).2 ++ vs) (n - (splitElems ws n).1.length)).2) := by
  obtain ⟨hws, hlen, _⟩ := splitElems_spec ws n
  have h := splitElems_append (splitElems ws n).1 ((splitElems ws n).2 ++ vs) (n - (splitElems ws n).1.length)
  rwa [← List.append_assoc, hws, Nat.add_sub_cancel' hlen] at h

end Sys2Proof

namespace Sys2Proof.Machine

/-! ### States that differ in the command stream -/

theorem handlePerforms_setCmdq (u : Txn) (s : State) (ws : List Word) :
    handlePerforms u (record u (setCmdq ws s)) = setCmdq ws (handlePerforms u (record u s)) := by
  cases u with
  | writePixel layer x y c =>
    by_cases hr : inRange s.par x y = true <;> simp [handlePerforms, fbWrite, record, setCmdq, hr]
  | _ => rfl

/-- `t` is `s` with the words `ws` sent besides. -/
def Sent (ws : List Word) (s t : State) : Prop := t = hostSend ws s

theorem sent_commandStable (ws : List Word) : CommandStable (Sent ws) where
  par h := (congrArg State.par h :).symm
  ctl h := (congrArg State.ctl h :).symm
  empty h := (congrArg State.empty h :).symm
  fault h := (congrArg State.fault h :).symm
  busy h := (congrArg State.busy h :).symm
  phase h := (congrArg State.phase h :).symm
  color c h := congrArg (loadColor c) h
  point x y h := congrArg (loadPoint x y) h
  advance h := congrArg Machine.advance h
  performs {s t} u h := by
    cases h
    change handlePerforms u (record u (setCmdq (s.cmdq ++ ws) s)) = _
    rw [handlePerforms_setCmdq]
    simp [hostSend, setCmdq]
  raise code vs s t h := by
    cases h
    simp [Sent, raiseFault, hostSend]
  latches f h := congrArg (withLatches f) h
  emptied e h := congrArg (withEmpty e) h
  header op h := congrArg (takeHeader op) h
  untake vs h := by
    cases h
    simp [Sent, Machine.untake, hostSend]
  ready h := congrArg setReady h
  complete o vs h := congrArg (Machine.complete o vs) h

/-- `t` is `s` with the words `ws` in the command stream, whatever stood there. -/
def Requeued (ws : List Word) (s t : State) : Prop := t = setCmdq ws s

theorem requeued_drawStable (ws : List Word) : DrawStable (Requeued ws) where
  par h := (congrArg State.par h :).symm
  ctl h := (congrArg State.ctl h :).symm
  empty h := (congrArg State.empty h :).symm
  color c h := congrArg (loadColor c) h
  point x y h := congrArg (loadPoint x y) h
  advance h := congrArg Machine.advance h
  performs {s t} u h := by
    cases h
    exact handlePerforms_setCmdq u s ws

theorem emit_onlyDraws {x y : Word} {c : Color} {s t : State} (h : emit x y c s = .next t) : OnlyDraws s t := by
  rcases Bool.eq_false_or_eq_true s.ctl.session with hs | hs
  · cases (emit_eq_next hs x y c).symm.trans h
    exact putPixel_onlyDraws x y c s
  · cases (emit_eq_fault hs x y c).symm.trans h

theorem fillaPoint_onlyDraws {c : Color} {s t : State} (h : fillaPoint c s = .next t) : OnlyDraws s t := by
  unfold fillaPoint at h
  simp only at h
  split at h
  · exact emit_onlyDraws h
  · cases h
    exact .refl s

theorem fillaPoint_requeued {ws : List Word} {s t : State} (h : Requeued ws s t) (c : Color) :
    Alike (Requeued ws) (fillaPoint c s) (fillaPoint c t) := by
  have hread : Reading (Requeued ws) s t := by
    cases h
    exact ⟨rfl, rfl, rfl, rfl⟩
  exact (fillaPoint_alike (requeued_drawStable ws) hread c).mono (·.rel)

/-! ### A stream with more words behind it -/

section

variable {α : Type} {color : α → Word} {words : List α → List Word} {act : α → Color → State → Out}

/-- A cursor that has reached the count has gone on by all that was left. -/
theorem taken_all {k : BitVec 64} {n : Word} {m : Nat} (hm : m ≤ n.toNat - k.toNat)
    (h : (k + BitVec.ofNat 64 m).toNat = n.toNat) : n.toNat - k.toNat = m := by
  rcases Nat.le_total k.toNat n.toNat with hk | hk
  · rw [cursor_add_toNat (n := n) (by omega)] at h
    omega
  · omega

/-- The loop over a longer stream: where the shorter one ends in a fault, so does the longer one, with the further words
untaken; else it goes on with the further elements. -/
theorem streamLoop_append (hwords : ∀ as bs, words (as ++ bs) = words as ++ words bs)
    (hkeep : ∀ {a c s u}, act a c s = .next u → OnlyDraws s u)
    (hact : ∀ {ws s t} a c, Requeued ws s t → Alike (Requeued ws) (act a c s) (act a c t))
    {s : State} (hf : s.fault = false) {bs : List α} {r vs : List Word} (hr : words bs ++ r = s.cmdq ++ vs)
    (as : List α) :
    streamLoop color words act (as ++ bs) (setCmdq r s) =
      andThen (streamLoop color words act as s)
        (fun u => if u.fault = true then .next (hostSend vs u) else streamLoop color words act bs (setCmdq r u)) := by
  induction as generalizing s with
  | nil => simp [streamLoop, hf]
  | cons a as ih =>
    rcases colorWord_or_bad (color a) with ⟨c, hc⟩ | hb
    · have ha : Alike (Requeued r) (act a c (loadColor c s)) (act a c (loadColor c (setCmdq r s))) := hact a c rfl
      simp only [List.cons_append, streamLoop, hc, takeColor_colorWord]
      cases hu : act a c (loadColor c s) with
      | next u =>
        obtain ⟨_, ht, rfl⟩ := (hu ▸ ha).exists_next
        have hd := hkeep hu
        have hu' : words bs ++ r = (advance u).cmdq ++ vs := by simpa [hd.cmdq] using hr
        simp only [ht, andThen_next]
        exact ih (s := advance u) (by simpa [hd.fault] using hf) hu'
      | fault e => simp [(hu ▸ ha).eq_fault]
      | refused e => simp [(hu ▸ ha).eq_refused]
    · simp only [List.cons_append, streamLoop, takeColor_bad hb, andThen_next]
      simp [raiseFault, hostSend, setCmdq, hwords, hr]

/-- R31: a stream that ends, by its last element or by a fault, ends in the same way with more words behind it. -/
theorem streamLoop_early (hwords : ∀ as bs, words (as ++ bs) = words as ++ words bs)
    (hkeep : ∀ {a c s u}, act a c s = .next u → OnlyDraws s u)
    (hact : ∀ {ws s t} a c, Requeued ws s t → Alike (Requeued ws) (act a c s) (act a c t))
    (hst : ∀ {as s u}, streamLoop color words act as s = .next u → Streamed as.length s u)
    {s t : State} {o : Opcode} {as bs : List α} {r vs : List Word} (hf : s.fault = false)
    (hr : words bs ++ r = s.cmdq ++ vs) (hlen : as.length ≤ s.latches.n.toNat - s.latches.k.toNat)
    (hbs : s.latches.n.toNat - s.latches.k.toNat = as.length → bs = [])
    (h : andThen (streamLoop color words act as s) (endOrHold o) = .next t) (hb : t.busy = false) :
    andThen (streamLoop color words act (as ++ bs) (setCmdq r s)) (endOrHold o) = .next (hostSend vs t) := by
  obtain ⟨u, h1, h2⟩ := andThen_eq_next h
  rw [streamLoop_append hwords hkeep hact hf hr, h1]
  rcases hst h1 with ⟨hd, hk⟩ | ⟨ws, v, rfl⟩
  · have huf : u.fault = false := hd.fault.trans hf
    simp only [endOrHold, huf, Bool.false_eq_true, if_false] at h2
    split at h2 <;> cases h2
    · rename_i hkn
      have hfull : s.latches.n.toNat - s.latches.k.toNat = as.length :=
        taken_all hlen (by rw [← hk, hkn, hd.n])
      obtain rfl := hbs hfull
      have hw : words [] = [] := by simpa using (hwords [] []).symm
      have hq : setCmdq r u = hostSend vs u := by simp [setCmdq, hostSend, hd.cmdq, ← hr, hw]
      simp only [andThen_next, huf, Bool.false_eq_true, if_false, streamLoop, hq]
      exact (if_neg (by simp [huf])).trans (if_pos hkn)
    · cases hb
  · cases h2
    rfl

end

end Sys2Proof.Machine

namespace Sys2Proof.Machine

theorem streamDrawpx_early {ws : List Word} {s t : State} (hf : s.fault = false) (h : streamDrawpx ws s = .next t)
    (hb : t.busy = false) (vs : List Word) : streamDrawpx (ws ++ vs) s = .next (hostSend vs t) := by
  simp only [streamDrawpx, drawElems_eq_streamLoop] at h ⊢
  rw [splitElems_append_right]
  refine streamLoop_early (s := setCmdq (splitElems ws (s.latches.n.toNat - s.latches.k.toNat)).2 s)
    elemWords_append emit_onlyDraws (fun e c h => emit_alike (requeued_drawStable _) h e.x e.y c)
    (fun h => drawElems_streamed (by rwa [drawElems_eq_streamLoop])) hf ?_ (splitElems_spec _ _).2.1
    (fun hn => ?_) h hb
  · exact (splitElems_spec _ _).1
  · simp only [setCmdq_latches] at hn
    rw [← hn, Nat.sub_self, splitElems_zero]

theorem streamFilla_early {ws : List Word} {s t : State} (hf : s.fault = false) (h : streamFilla ws s = .next t)
    (hb : t.busy = false) (vs : List Word) : streamFilla (ws ++ vs) s = .next (hostSend vs t) := by
  simp only [streamFilla, fillaColors_eq_streamLoop] at h ⊢
  rw [List.take_append, List.drop_append]
  refine streamLoop_early (s := setCmdq (ws.drop (s.latches.n.toNat - s.latches.k.toNat)) s)
    (fun _ _ => rfl) fillaPoint_onlyDraws (fun _ c h => fillaPoint_requeued h c)
    (fun h => fillaColors_streamed (by rwa [fillaColors_eq_streamLoop])) hf ?_ (List.length_take_le _ _)
    (fun hn => ?_) h hb
  · generalize s.latches.n.toNat - s.latches.k.toNat = m
    rcases Nat.le_total m ws.length with hm | hm
    · simp [Nat.sub_eq_zero_of_le hm]
    · simp [List.drop_eq_nil_of_le hm]
  · simp only [setCmdq_latches, List.length_take] at hn
    rw [Nat.sub_eq_zero_of_le (by omega), List.take_zero]

/-! ### The next command, by its header -/

theorem fetch_run {s : State} {i : Instr} {rest : List Word} (hi : Idle s) (hd : decode s.cmdq = .instr i rest)
    (hp : phaseOk i.opcode s.phase = true) :
    fetchCommand s = body i (takeHeader i.opcode.code (setCmdq rest s)) := by
  rw [fetch_instr hd]
  exact exec_run i (s := setCmdq rest s) hi hp

/-- R134: in the wrong phase the header alone decides, whether the packet is whole or not. -/
theorem fetch_wrong_phase {s : State} {o : Opcode} {ws : List Word} (hi : Idle s) (hc : s.cmdq = headerWord o :: ws)
    (hp : phaseOk o s.phase = false) :
    fetchCommand s = .next (raiseFault codeProtocol ws (takeHeader o.code (setCmdq [] s))) := by
  rcases decodeOperands_cases o ws with ⟨i, rest, hd, _⟩ | hd
  · obtain ⟨rfl, _, rfl⟩ := decodeOperands_eq_instr hd
    rw [fetch_instr (by rw [hc, decode_header, hd]), exec_wrong_phase i (s := setCmdq rest s) hi hp]
    simp [raiseFault, takeHeader, setCmdq]
  · rw [fetch_incomplete (by rw [hc, decode_header, hd])]
    simp [startIncomplete, hp]

theorem andThen_congr {o : Out} {f g : State → Out} (h : ∀ s, o = .next s → f s = g s) :
    andThen o f = andThen o g := by
  cases o with
  | next s => exact h s rfl
  | fault r => rfl
  | refused r => rfl

/-- Where a stream is whole its end is that of its command. -/
theorem endOrHold_eq_endStream {n : Nat} {o : Opcode} {s u : State} (hu : Streamed n s u)
    (hn : s.latches.k.toNat + n = s.latches.n.toNat) : endOrHold o u = endStream o u := by
  rcases hu with ⟨hd, hk⟩ | ⟨ws, v, rfl⟩
  · have hend : u.latches.k.toNat = u.latches.n.toNat := by
      rw [hk, hd.n, cursor_add_toNat (n := s.latches.n) (by omega), hn]
    simp only [endOrHold, endStream, hend, if_true]
  · rfl

/-- R100: DRAWPX goes through its stream in one way, whether the packet is whole or not. -/
theorem fetch_drawpx {s : State} {n : Word} {ws : List Word} (hi : Idle s)
    (hc : s.cmdq = headerWord .drawpx :: n :: ws) (hp : s.phase = .ready) :
    fetchCommand s = streamDrawpx ws (loadCount n (takeHeader Opcode.drawpx.code (setCmdq [] s))) := by
  have hd : decode s.cmdq = decodeOperands .drawpx (n :: ws) := by rw [hc, decode_header]
  simp only [decodeOperands] at hd
  split at hd
  · rename_i hn
    rw [fetch_run hi hd (by simp [Instr.opcode, phaseOk, hp])]
    simp only [body, drawpxBody, hn, countWord_toNat_self]
    exact andThen_congr fun u hu => (endOrHold_eq_endStream (drawElems_streamed hu) (by simp [hn])).symm
  · rw [fetch_incomplete hd]
    simp [startIncomplete, phaseOk, hp]

/-- R102: FILLA goes through its stream in one way, whether the packet is whole or not. -/
theorem fetch_filla {s : State} {x0 y0 w h n : Word} {ws : List Word} (hi : Idle s)
    (hc : s.cmdq = headerWord .filla :: x0 :: y0 :: w :: h :: n :: ws) (hp : s.phase = .ready) :
    fetchCommand s = streamFilla ws (fillaStart x0 y0 w h n (takeHeader Opcode.filla.code (setCmdq [] s))) := by
  have hd : decode s.cmdq = decodeOperands .filla (x0 :: y0 :: w :: h :: n :: ws) := by rw [hc, decode_header]
  simp only [decodeOperands] at hd
  split at hd
  · rename_i hn
    rw [fetch_run hi hd (by simp [Instr.opcode, phaseOk, hp])]
    simp only [body, fillaBody, hn, countWord_toNat_self]
    refine andThen_congr fun u hu => (endOrHold_eq_endStream (fillaColors_streamed hu) ?_).symm
    rw [hn]
    exact Nat.zero_add _
  · rw [fetch_incomplete hd]
    simp [startIncomplete, phaseOk, hp]

/-- A packet that has not all arrived, and yet ends its command, ends it in the same way with more words behind it. -/
theorem startIncomplete_early {o : Opcode} {ws : List Word} {s t : State} (hi : Idle s)
    (hc : s.cmdq = headerWord o :: ws) (h : startIncomplete o ws (setCmdq [] s) = .next t) (hb : t.busy = false)
    (vs : List Word) : fetchCommand (hostSend vs s) = .next (hostSend vs t) := by
  have hc' : (hostSend vs s).cmdq = headerWord o :: (ws ++ vs) := by simp [hc]
  cases hp : phaseOk o s.phase with
  | false =>
    rw [fetch_wrong_phase (s := hostSend vs s) hi hc' hp]
    simp only [startIncomplete, takeHeader_phase, setCmdq_phase, hp, Bool.false_eq_true, if_false] at h
    cases h
    simp [raiseFault, takeHeader, setCmdq, hostSend]
  | true =>
    simp only [startIncomplete, takeHeader_phase, setCmdq_phase, hp, if_true] at h
    split at h
    · rename_i n ws
      rw [fetch_drawpx (s := hostSend vs s) hi hc' (phaseOk_drawing hp (by simp))]
      exact streamDrawpx_early (s := loadCount n (takeHeader Opcode.drawpx.code (setCmdq [] s))) hi.1 h hb vs
    · rename_i x0 y0 w h' n ws
      rw [fetch_filla (s := hostSend vs s) hi hc' (phaseOk_drawing hp (by simp))]
      exact streamFilla_early (s := fillaStart x0 y0 w h' n (takeHeader Opcode.filla.code (setCmdq [] s))) hi.1 h hb vs
    · cases h
      cases hb

theorem fetchCommand_early {s t : State} (hi : Idle s) (hne : s.cmdq ≠ []) (h : fetchCommand s = .next t)
    (hb : t.busy = false) (vs : List Word) : fetchCommand (hostSend vs s) = .next (hostSend vs t) := by
  rcases fetch_cases s with ⟨hc, _⟩ | ⟨w, ws, hc, ho, h'⟩ | ⟨w, ws, o, hc, ho, ha, h'⟩ |
    ⟨o, ws, i, rest, hc, hd, _, h'⟩ | ⟨o, ws, hc, _, h'⟩
  · exact absurd hc hne
  · cases h'.symm.trans h
    rw [fetch_illegal (s := hostSend vs s) (ws := ws ++ vs) (by simp [hc]) ho]
    simp [raiseFault, takeHeader, setCmdq, hostSend]
  · cases h'.symm.trans h
    rw [fetch_reserved (s := hostSend vs s) (ws := ws ++ vs) (by simp [hc]) ho ha]
    simp [raiseFault, takeHeader, setCmdq, hostSend]
  · rw [fetch_instr (s := hostSend vs s) (rest := rest ++ vs)
      (by rw [hostSend_cmdq, hc, List.cons_append, decode_header]; exact decodeOperands_append hd vs)]
    have hs : Sent vs (setCmdq rest s) (setCmdq (rest ++ vs) (hostSend vs s)) := rfl
    have ha := (sent_commandStable vs).exec hs i
    rw [← h', h] at ha
    obtain ⟨_, ht, rfl⟩ := ha.exists_next
    exact ht
  · exact startIncomplete_early hi hc (h'.symm.trans h) hb vs

/-- Settles O59: what ends its command does so by words that stand before the further ones. -/
theorem earlyWordsAreHarmless : Obligations.EarlyWordsAreHarmless := by
  intro s t ws hi hne hstep hb
  rw [step_idle hi] at hstep
  rw [step_idle (s := hostSend ws s) hi]
  exact fetchCommand_early hi hne hstep hb ws

end Sys2Proof.Machine

/-! ### Proofs: the framebuffer's form along a step -/

namespace Sys2Proof.Machine

/-- R38: read as unsigned numbers, in-range coordinates lie in the panel too. -/
theorem toNat_lt_of_inRange {p : Params} {x y : Word} (h : inRange p x y = true) : x.toNat < p.W ∧ y.toNat < p.H := by
  obtain ⟨hx0, hx, hy0, hy⟩ := (inRange_iff p x y).1 h
  rw [BitVec.toInt_eq_toNat_of_lt (BitVec.toInt_pos_iff.1 hx0)] at hx
  rw [BitVec.toInt_eq_toNat_of_lt (BitVec.toInt_pos_iff.1 hy0)] at hy
  exact ⟨Int.ofNat_lt.1 hx, Int.ofNat_lt.1 hy⟩

/-- R37, R38: the number of an in-range pixel is one of the panel's. -/
theorem pixelIndex_lt_pixelCount {p : Params} {x y : Word} (h : inRange p x y = true) :
    pixelIndex p x y < pixelCount p := by
  obtain ⟨hx, hy⟩ := toNat_lt_of_inRange h
  calc y.toNat * p.W + x.toNat
    _ < (y.toNat + 1) * p.W := by rw [Nat.succ_mul]; omega
    _ ≤ p.H * p.W := Nat.mul_le_mul_right _ hy
    _ = p.W * p.H := Nat.mul_comm _ _

/-- What `FramebufferForm` asks of the bytes of a panel: they are in canonical form and inside it (R37, R39). -/
def FitsPanel (p : Params) (m : Memory) : Prop :=
  Memory.wf m = true ∧ ∀ cell ∈ m, cell.1 < 2 * pixelCount p

theorem framebufferForm_iff {s : State} : FramebufferForm s ↔ FitsPanel s.par s.mem := Iff.rfl

theorem FitsPanel.nil (p : Params) : FitsPanel p [] := ⟨rfl, by simp⟩

/-- A pixel of the panel has both its bytes inside it. -/
theorem FitsPanel.writePixel {p : Params} {m : Memory} {i : Nat} (hm : FitsPanel p m) (hi : i < pixelCount p)
    (d : Pixel) : FitsPanel p (Memory.writePixel m i d) := by
  obtain ⟨hwf, hin⟩ := hm
  refine ⟨Memory.writePixel_wf m i d hwf, fun cell hcell => ?_⟩
  rcases Memory.mem_writePixel hcell with hhigh | hlow | hlisted
  · omega
  · omega
  · exact hin cell hlisted

/-- One transaction keeps the bytes inside the panel: a write outside it leaves none listed (R126, R138). -/
theorem FitsPanel.afterTxn {p : Params} {fb : Bool × Memory} (h : FitsPanel p fb.2) (u : Txn) :
    FitsPanel p (replayFb p fb u).2 := by
  cases u with
  | writePixel l x y d =>
    simp only [replayFb]
    split
    · exact h.writePixel (pixelIndex_lt_pixelCount ‹_›) d
    · exact FitsPanel.nil p
  | _ => exact h

theorem FitsPanel.afterTxns {p : Params} {fb : Bool × Memory} (h : FitsPanel p fb.2) (ts : List Txn) :
    FitsPanel p (ts.foldl (replayFb p) fb).2 := by
  induction ts generalizing fb with
  | nil => exact h
  | cons u ts ih => exact ih (h.afterTxn u)

theorem Trace.framebufferForm {s t : State} {ts : List Txn} (h : Trace s t ts) (hs : FramebufferForm s) :
    FramebufferForm t := by
  have hfits := (framebufferForm_iff.1 hs).afterTxns (fb := (s.misuse, s.mem)) ts
  rw [← h.fb, ← h.par] at hfits
  exact framebufferForm_iff.2 hfits

/-- Settles O44: whatever a step does to the world is a trace of transactions, and each keeps the bytes' form. -/
theorem stepKeepsFramebufferForm : Obligations.StepKeepsFramebufferForm := by
  intro s t hs hstep
  obtain ⟨ts, htrace⟩ := (step_happens hstep).trace
  exact htrace.framebufferForm hs

end Sys2Proof.Machine

/-! ### Proofs: what scan-out reads between two transactions -/

namespace Sys2Proof.Machine

/-- R40, R44, R49: a stored pixel reads back whole, and every other pixel reads as before. -/
theorem readPixel_writePixel (s : State) (j : Nat) (d : Pixel) (i : Nat) :
    ({ s with mem := Memory.writePixel s.mem j d } : State).readPixel i = if i = j then d else s.readPixel i := by
  by_cases hij : i = j
  · subst hij
    simp [State.readPixel, State.readByte, Memory.read_writePixel, pixel_of_bytes]
  · have hhigh : 2 * i + 1 ≠ 2 * j := by omega
    have hlow : 2 * i ≠ 2 * j + 1 := by omega
    simp [State.readPixel, State.readByte, Memory.read_writePixel, hij, hhigh, hlow]

/-- What scan-out reads is settled by the panel, the known bytes and the draw of free values. -/
theorem scanRead_congr {s t : State} (hp : t.par = s.par) (hm : t.mem = s.mem) (hd : t.fbDraw = s.fbDraw) (i : Nat) :
    scanRead t i = scanRead s i := by
  simp [scanRead, State.readPixel, State.readByte_congr hm hd, hp]

theorem scanRead_writePixel_same {s : State} {i : Nat} (hi : i < pixelCount s.par) (d : Pixel) :
    scanRead { s with mem := Memory.writePixel s.mem i d } i = some d := by
  rw [scanRead, readPixel_writePixel]
  simp [hi]

theorem scanRead_writePixel_ne (s : State) {i j : Nat} (hij : i ≠ j) (d : Pixel) :
    scanRead { s with mem := Memory.writePixel s.mem j d } i = scanRead s i := by
  rw [scanRead, readPixel_writePixel]
  simp [scanRead, hij]

/-- The state scan-out reads when the first `n` transactions of the history have been performed (R52). -/
def scanState (s : State) (n : Nat) : State :=
  { s with
    mem := (replayMem s.par (s.hist.take n)).2
    fbDraw := s.fbDraw - (s.hist.drop n).countP (stray s.par) }

theorem scanReadAt_eq (s : State) (n i : Nat) : scanReadAt s n i = scanRead (scanState s n) i := rfl

/-- One more transaction, not out of range: the known bytes are replayed by it, the draw of free values stays. -/
theorem scanState_succ {s : State} {n : Nat} {u : Txn} (hu : s.hist[n]? = some u) (hin : stray s.par u = false) :
    scanState s (n + 1) =
      { scanState s n with mem := (replayFb s.par (replayMem s.par (s.hist.take n)) u).2 } := by
  obtain ⟨hn, hget⟩ := List.getElem?_eq_some_iff.1 hu
  have hmem : replayMem s.par (s.hist.take (n + 1)) = replayFb s.par (replayMem s.par (s.hist.take n)) u := by
    rw [List.take_succ_eq_append_getElem hn, hget, replayMem_append]
    rfl
  have hdraw : (s.hist.drop n).countP (stray s.par) = (s.hist.drop (n + 1)).countP (stray s.par) := by
    rw [List.drop_eq_getElem_cons hn, hget, List.countP_cons_of_neg (by simp [hin])]
  simp [scanState, hmem, hdraw]

/-- A transaction that writes no pixel leaves what scan-out reads. -/
theorem scanReadAt_succ_of_not_write {s : State} {n : Nat} {u : Txn} (hu : s.hist[n]? = some u)
    (hw : ∀ l x y d, u ≠ .writePixel l x y d) (i : Nat) : scanReadAt s (n + 1) i = scanReadAt s n i := by
  rw [scanReadAt_eq, scanReadAt_eq]
  cases u with
  | writePixel l x y d => exact absurd rfl (hw l x y d)
  | _ => rw [scanState_succ hu rfl]; rfl

/-- R45, R126: after an in-range write scan-out reads the written pixel new, and every other one as it was. -/
theorem scanReadAt_succ_of_write {s : State} {n : Nat} {l : BitVec 8} {x y : Word} {d : Pixel}
    (hu : s.hist[n]? = some (.writePixel l x y d)) (hr : inRange s.par x y = true) (i : Nat) :
    scanReadAt s (n + 1) i = if i = pixelIndex s.par x y then some d else scanReadAt s n i := by
  have hstate : scanState s (n + 1) =
      { scanState s n with mem := Memory.writePixel (scanState s n).mem (pixelIndex s.par x y) d } := by
    rw [scanState_succ hu (by simp [stray, hr])]
    simp [replayFb, hr, scanState]
  rw [scanReadAt_eq, scanReadAt_eq, hstate]
  split
  next hi => rw [hi]; exact scanRead_writePixel_same (s := scanState s n) (pixelIndex_lt_pixelCount hr) d
  next hi => exact scanRead_writePixel_ne (scanState s n) hi d

/-- Before the transactions of a trace, scan-out reads what the state before it holds. -/
theorem Trace.scanReadAt_start {s t : State} {ts : List Txn} (h : Trace s t ts) (hs : FramebufferIsReplay s) (i : Nat) :
    scanReadAt t s.hist.length i = scanRead s i := by
  have hmem : s.mem = (replayMem s.par s.hist).2 := congrArg Prod.snd hs
  refine scanRead_congr (t := scanState t s.hist.length) h.par ?_ ?_ i
  · simp [scanState, h.hist, h.par, hmem]
  · simp [scanState, h.hist, h.par, h.draw]

/-- After the whole history, the empty trace being what is left, scan-out reads what the state holds. -/
theorem scanReadAt_end {s : State} (hs : FramebufferIsReplay s) (i : Nat) :
    scanReadAt s s.hist.length i = scanRead s i :=
  (Quiet.trace ⟨rfl, rfl, rfl, rfl, rfl, rfl, rfl⟩).scanReadAt_start hs i

/-- Settles O56: each transaction of the history writes no pixel, one pixel in range, or one out of range. -/
theorem scanOutSeesOldOrNewPixels : Obligations.ScanOutSeesOldOrNewPixels := by
  refine ⟨fun s i hi => if_pos hi, fun s t hs hstep => ?_⟩
  obtain ⟨ts, htrace⟩ := (step_happens hstep).trace
  refine ⟨htrace.scanReadAt_start hs, scanReadAt_end (htrace.framebufferIsReplay hs), fun n i hn => ?_⟩
  have hu : t.hist[n]? = some t.hist[n] := List.getElem?_eq_getElem hn
  by_cases hw : ∃ l x y d, t.hist[n] = .writePixel l x y d
  · obtain ⟨l, x, y, d, hw⟩ := hw
    rw [hw] at hu
    cases hr : inRange t.par x y with
    | false => exact .inr (.inr ⟨l, x, y, d, hu, hr⟩)
    | true =>
      have hread := scanReadAt_succ_of_write hu hr i
      by_cases hi : i = pixelIndex t.par x y
      · exact .inr (.inl ⟨l, x, y, d, hu, hr, hi, by rw [hread, if_pos hi]⟩)
      · exact .inl (by rw [hread, if_neg hi])
  · exact .inl (scanReadAt_succ_of_not_write hu (fun l x y d h => hw ⟨l, x, y, d, h⟩) i)

end Sys2Proof.Machine

/-! ### Proofs: packets and their commands -/

namespace Sys2Proof

/-- Settles O1: a packet's header leads to its operand words, and these are read back. -/
theorem decodeInvertsEncode : Obligations.DecodeInvertsEncode := by
  intro i rest hi
  rw [encode, List.cons_append, decode_header]
  exact decodeOperands_operandWords hi rest

/-- Settles O2: only a good header leads to a command, and the words behind it are the command's own operand words. -/
theorem encodeInvertsDecode : Obligations.EncodeInvertsDecode := by
  intro ws i rest h
  cases ws with
  | nil => cases h
  | cons w ws =>
    rcases decode_cons_cases w ws with ⟨_, hd⟩ | ⟨_, _, _, hd⟩ | ⟨o, rfl, hd⟩
    · cases hd.symm.trans h
    · cases hd.symm.trans h
    · obtain ⟨rfl, hi, rfl⟩ := decodeOperands_eq_instr (hd.symm.trans h)
      exact ⟨rfl, hi⟩

/-- Settles O3: each packet is a closed list of words, and the decoder is run on it. -/
theorem specPacketsDecode : Obligations.SpecPacketsDecode := by
  refine ⟨?init, ?getcfg, ?bbox, ?pack, ?isect, ?drawpx, ?filla, ?fills, ?clear⟩ <;> decide

/-- R61: the numbers in the opcode table are those of the nine opcodes. -/
theorem mem_opcodeCodes {b : BitVec 8} :
    b ∈ [0x01#8, 0x02#8, 0x03#8, 0x04#8, 0x05#8, 0x10#8, 0x11#8, 0x12#8, 0x13#8] ↔ ∃ o, opcodeOf b = some o := by
  change b ∈ opcodeRows.map Opcode.code ↔ _
  simp only [List.mem_map, opcodeOf_eq_some]
  refine exists_congr fun o => and_iff_right ?_
  cases o <;> decide

theorem not_mem_opcodeCodes {b : BitVec 8} :
    b ∉ [0x01#8, 0x02#8, 0x03#8, 0x04#8, 0x05#8, 0x10#8, 0x11#8, 0x12#8, 0x13#8] ↔ opcodeOf b = none := by
  rw [mem_opcodeCodes, Option.eq_none_iff_forall_ne_some, not_exists]

end Sys2Proof

/-! ### Proofs: faults of a header and of a single operand word -/

namespace Sys2Proof.Machine

/-- Settles O5: CPCU is idle, so it looks for a header, and there is none. -/
theorem waitsForHeader : Obligations.WaitsForHeader := by
  intro s hi hc
  rw [step_idle hi, fetch_noWord hc]

/-- `t` is `s` but for the latches and what is recorded of the words of the command in progress. -/
def OnlyTakes (s t : State) : Prop :=
  { s with latches := t.latches, busy := t.busy, streaming := t.streaming, part := t.part, cmdq := t.cmdq } = t

/-- R131: a fault after nothing but taking words stops CPCU, and nothing outside it has changed. -/
theorem OnlyTakes.raiseFault {s t : State} (h : OnlyTakes s t) (code : BitVec 4) (ws : List Word) :
    Stops code (ws ++ t.cmdq) s (raiseFault code ws t) ∧ SameWorld s (raiseFault code ws t) ∧
      (raiseFault code ws t).empty = s.empty := by
  rw [← h]
  exact ⟨⟨rfl, rfl, rfl, rfl, rfl, rfl, rfl, rfl, rfl⟩, ⟨rfl, rfl, rfl, rfl, fun _ => rfl⟩, rfl⟩

/-- R71, R131: a header that raises a fault is the one word taken. -/
theorem raiseFault_on_header (code : BitVec 4) (ws : List Word) (op : BitVec 8) (s : State) :
    Stops code ws s (raiseFault code ws (takeHeader op (setCmdq [] s))) ∧
      SameWorld s (raiseFault code ws (takeHeader op (setCmdq [] s))) ∧
      (raiseFault code ws (takeHeader op (setCmdq [] s))).empty = s.empty := by
  have h : OnlyTakes s (takeHeader op (setCmdq [] s)) := rfl
  simpa using h.raiseFault code ws

/-- Settles O7: the header is taken and faults, since no opcode has its number; the legal words are decoded. -/
theorem illegalOpcodeStopsStep : Obligations.IllegalOpcodeStopsStep := by
  refine ⟨fun s h ws hi hc hop => ?_, by decide, by decide, by decide, by decide, by decide⟩
  have ho : opcodeOf (opField h) = none := not_mem_opcodeCodes.1 hop
  exact ⟨_, (step_idle hi).trans (fetch_illegal hc ho), raiseFault_on_header _ ws _ s⟩

/-- Settles O8: the header is taken and faults, in the fetch, where no phase is checked. -/
theorem reservedHeaderStopsStep : Obligations.ReservedHeaderStopsStep := by
  intro s h ws hi hc hop harg
  obtain ⟨o, ho⟩ := mem_opcodeCodes.1 hop
  exact ⟨_, (step_idle hi).trans (fetch_reserved hc ho harg), raiseFault_on_header _ ws _ s⟩

/-- R74: what the check of a `COLOR` word refuses. -/
theorem colorOf_eq_none {cw : Word} : colorOf cw = none ↔ cw &&& colorReserved ≠ 0 := by
  unfold colorOf
  split <;> simp_all

/-- R74: what the check of a `CLKM` word refuses. -/
theorem clkmOf_eq_none {m : Word} : clkmOf m = none ↔ m &&& clkmReserved ≠ 0 := by
  unfold clkmOf
  split <;> simp_all

/-- R60: the channels are fields of the word. -/
theorem fields_of_colorOf {cw : Word} {c : Color} (h : colorOf cw = some c) :
    c.r = cw.extractLsb' 16 5 ∧ c.g = cw.extractLsb' 8 6 ∧ c.b = cw.extractLsb' 0 5 := by
  unfold colorOf at h
  split at h <;> cases h
  exact ⟨rfl, rfl, rfl⟩

/-- Settles O18: the check reads the mask, and a word that passes it is put together again from its fields. -/
theorem colorWordCheck : Obligations.ColorWordCheck :=
  ⟨fun _ => colorOf_eq_none, fun _ _ => colorOf_eq_some, fun _ _ => fields_of_colorOf⟩

/-- R74: a malformed operand word after nothing but taking words stops the command, its packet taken. -/
theorem exec_stops_on_operand {i : Instr} {s t : State} (hi : Idle s) (hp : phaseOk i.opcode s.phase = true)
    (ht : OnlyTakes s t) (hq : t.cmdq = s.cmdq)
    (hb : body i (takeHeader i.opcode.code s) = .next (raiseFault codeReservedNonzero [] t)) :
    ∃ t, exec i s = .next t ∧ Stops 2 s.cmdq s t ∧ SameWorld s t ∧ t.empty = s.empty :=
  ⟨_, (exec_run i hi hp).trans hb, hq ▸ ht.raiseFault codeReservedNonzero []⟩

/-- Settles O11: up to its one checked word each of the four commands does nothing but take words. -/
theorem malformedOperandStopsCommand : Obligations.MalformedOperandStopsCommand := by
  refine ⟨fun s cw hi hcw => ?pack, fun s x0 y0 w h cw hi hp hcw => ?fills, fun s cw hi hp hcw => ?clear,
    fun s f m hi hp hm => ?init⟩
  case pack =>
    exact exec_stops_on_operand (t := takeHeader Opcode.pack.code s) hi rfl rfl rfl
      (by simp [body, packBody, takeColor_bad (colorOf_eq_none.2 hcw), Instr.opcode])
  case fills =>
    exact exec_stops_on_operand (t := loadRect x0 y0 w h (takeHeader Opcode.fills.code s)) hi
      (by simp [Instr.opcode, phaseOk, hp]) rfl rfl
      (by simp [body, fillsBody, takeColor_bad (colorOf_eq_none.2 hcw), Instr.opcode])
  case clear =>
    exact exec_stops_on_operand (t := takeHeader Opcode.clear.code s) hi
      (by simp [Instr.opcode, phaseOk, hp]) rfl rfl
      (by simp [body, clearBody, takeColor_bad (colorOf_eq_none.2 hcw), Instr.opcode])
  case init =>
    exact exec_stops_on_operand (t := loadClkf f (takeHeader Opcode.init.code s)) hi
      (by simp [Instr.opcode, phaseOk, hp]) rfl rfl (by simp [body, initBody, clkmOf_eq_none.2 hm, Instr.opcode])

end Sys2Proof.Machine

/-! ### Proofs: a packet that arrives in parts -/

namespace Sys2Proof.Machine

/-! ### How a command that was presented whole ends -/

/-- `t` is what an answer or a fault leaves: no command is in progress. -/
inductive Ended : State → Prop where
  | complete (o : Opcode) (ws : List Word) (s : State) : Ended (complete o ws s)
  | raise (code : BitVec 4) (ws : List Word) (s : State) : Ended (raiseFault code ws s)

theorem Ended.not_busy {t : State} (h : Ended t) : t.busy = false := by
  cases h <;> rfl

theorem endStream_ended {n : Nat} {o : Opcode} {s u t : State} (hf : s.fault = false) (hu : Streamed n s u)
    (h : endStream o u = .next t) : Ended t := by
  rcases hu with ⟨hd, _⟩ | ⟨ws, v, rfl⟩
  · simp only [endStream, hd.fault, hf, Bool.false_eq_true, if_false] at h
    cases h
    exact .complete o [] u
  · cases h
    exact .raise _ ws v

theorem fillBox_ended {c : Color} {o : Opcode} {s t : State}
    (h : andThen (fillBox c s) (fun s => .next (complete o [] s)) = .next t) : Ended t := by
  obtain ⟨u, _, hu⟩ := andThen_eq_next h
  cases hu
  exact .complete o [] u

theorem takeColor_ended {cw : Word} {ws : List Word} {use : Color → State → Out} {s t : State}
    (h : takeColor cw ws use s = .next t) (huse : ∀ c, use c (loadColor c s) = .next t → Ended t) : Ended t := by
  rcases takeColor_next h with ⟨c, _, hc⟩ | ⟨_, rfl⟩
  · exact huse c hc
  · exact .raise _ ws s

theorem body_ended {i : Instr} {s t : State} (hf : s.fault = false) (h : body i s = .next t) : Ended t := by
  cases i with
  | init f m =>
    simp only [body, initBody] at h
    split at h
    · cases h
      exact .raise _ [] _
    · obtain ⟨u, _, hu⟩ := andThen_eq_next h
      cases hu
      exact .complete _ [] _
  | getcfg | bbox | isect =>
    cases h
    exact .complete _ _ _
  | pack c =>
    simp only [body, packBody] at h
    refine takeColor_ended h fun c hc => ?_
    cases hc
    exact .complete _ _ _
  | drawpx es =>
    obtain ⟨u, h1, h2⟩ := andThen_eq_next h
    exact endStream_ended (s := loadCount _ s) hf (drawElems_streamed h1) h2
  | filla x0 y0 w h' cs =>
    obtain ⟨u, h1, h2⟩ := andThen_eq_next h
    exact endStream_ended (s := fillaStart x0 y0 w h' _ s) hf (fillaColors_streamed h1) h2
  | fills x0 y0 w h' c =>
    simp only [body, fillsBody] at h
    exact takeColor_ended h fun c hc => fillBox_ended hc
  | clear c =>
    simp only [body, clearBody] at h
    exact takeColor_ended h fun c hc => fillBox_ended hc

/-- R71: a packet presented whole to an idle CPCU is never a hold. -/
theorem exec_not_busy {i : Instr} {s t : State} (hi : Idle s) (h : exec i s = .next t) : t.busy = false := by
  cases hp : phaseOk i.opcode s.phase with
  | true =>
    rw [exec_run i hi hp] at h
    exact (body_ended (s := takeHeader i.opcode.code s) hi.1 h).not_busy
  | false =>
    cases (exec_wrong_phase i hi hp).symm.trans h
    rfl

/-- R158: CPCU holds after a step from idle only with a packet that has not all arrived, in its right phase. -/
theorem fetch_holds {s t : State} (hi : Idle s) (h : fetchCommand s = .next t) (hb : t.busy = true) :
    ∃ o ws, s.cmdq = headerWord o :: ws ∧ phaseOk o s.phase = true ∧ startIncomplete o ws (setCmdq [] s) = .next t := by
  rcases fetch_cases s with ⟨_, h'⟩ | ⟨_, _, _, _, h'⟩ | ⟨_, _, _, _, _, _, h'⟩ | ⟨_, _, i, rest, _, _, _, h'⟩ |
    ⟨o, ws, hc, _, h'⟩ <;> rw [h'] at h
  · cases h
    simp [hi.2] at hb
  · cases h
    cases hb
  · cases h
    cases hb
  · simp [exec_not_busy (s := setCmdq rest s) hi h] at hb
  · refine ⟨o, ws, hc, ?_, h⟩
    by_contra hp
    simp only [startIncomplete, takeHeader_phase, setCmdq_phase, hp, if_false] at h
    cases h
    cases hb

/-! ### A hold among the fixed operands -/

/-- Where a longer list has the entry, it does not matter which of two defaults the shorter one leaves for it. -/
theorem getD_append_getD {α : Type} (ws vs : List α) (i : Nat) (a : α) :
    (ws ++ vs)[i]?.getD (ws[i]?.getD a) = (ws ++ vs)[i]?.getD a := by
  rcases Nat.lt_or_ge i ws.length with h | h
  · simp [List.getElem?_append_left h, h]
  · simp [h]

/-- R23, R71: words that come later are loaded over those that have come, as if all had come at once. -/
theorem loadArrived_append (o : Opcode) (ws vs : List Word) (s : State) :
    loadArrived o (ws ++ vs) (loadArrived o ws s) = loadArrived o (ws ++ vs) s := by
  cases o <;> simp [loadArrived, getD_append_getD]

/-- R71: a whole packet loads its fixed operands itself, whichever of them have been loaded before. -/
theorem body_loadArrived (i : Instr) (ws : List Word) (s : State) :
    body i (loadArrived i.opcode ws s) = body i s := by
  cases i <;> rfl

/-- R158: a packet that still has not all arrived is taken as if none of its words had been loaded before. -/
theorem startIncomplete_loaded {o : Opcode} {ws vs : List Word} {s s' : State} (hp : phaseOk o s.phase = true)
    (h : takeHeader o.code s' = loadArrived o ws (takeHeader o.code s)) :
    startIncomplete o (ws ++ vs) s' = startIncomplete o (ws ++ vs) s := by
  have hphase : (loadArrived o ws (takeHeader o.code s)).phase = s.phase := (loadArrived_quiet _ _ _).phase
  simp only [startIncomplete, h, hphase, takeHeader_phase, hp, if_true]
  split
  · rfl
  · rfl
  · rw [loadArrived_append]

/-- R158: a command is read again from its header as if none of its words had been loaded before. -/
theorem fetch_loaded {o : Opcode} {ws vs : List Word} {s s' : State} (hi : Idle s) (hi' : Idle s')
    (hc : s.cmdq = headerWord o :: (ws ++ vs)) (hc' : s'.cmdq = s.cmdq) (hp : phaseOk o s.phase = true)
    (hp' : s'.phase = s.phase)
    (h : takeHeader o.code (setCmdq [] s') = loadArrived o ws (takeHeader o.code (setCmdq [] s))) :
    fetchCommand s' = fetchCommand s := by
  have hd : decode s.cmdq = decodeOperands o (ws ++ vs) := by rw [hc, decode_header]
  rcases decodeOperands_cases o (ws ++ vs) with ⟨i, rest, hd', rfl⟩ | hd'
  · rw [hd'] at hd
    rw [fetch_run hi hd hp, fetch_run hi' (by rw [hc', hd]) (by rw [hp', hp])]
    calc body i (setCmdq rest (takeHeader i.opcode.code (setCmdq [] s')))
      _ = body i (setCmdq rest (loadArrived i.opcode ws (takeHeader i.opcode.code (setCmdq [] s)))) := by rw [h]
      _ = body i (loadArrived i.opcode ws (setCmdq rest (takeHeader i.opcode.code (setCmdq [] s)))) := by
        cases i <;> rfl
      _ = body i (setCmdq rest (takeHeader i.opcode.code (setCmdq [] s))) := body_loadArrived i ws _
  · rw [hd'] at hd
    rw [fetch_incomplete hd, fetch_incomplete (by rw [hc', hd])]
    exact startIncomplete_loaded hp h

/-- R158: the state in which a command holds that has not all of its fixed operands. -/
def heldOperands (o : Opcode) (ws : List Word) (s : State) : State :=
  hold false (headerWord o :: ws) (loadArrived o ws (takeHeader o.code (setCmdq [] s)))

theorem step_heldOperands {o : Opcode} {ws : List Word} {s : State} (hi : Idle s) (hc : s.cmdq = headerWord o :: ws)
    (hp : phaseOk o s.phase = true) (vs : List Word) :
    step (hostSend vs (heldOperands o ws s)) = fetchCommand (hostSend vs s) := by
  have hf : (heldOperands o ws s).fault = false := (loadArrived_fault o ws _).1.trans hi.1
  rw [step_operands (s := hostSend vs (heldOperands o ws s)) hf rfl rfl]
  refine fetch_loaded (s := hostSend vs s) (ws := ws) (vs := vs) hi ⟨hf, rfl⟩ (by simp [hc])
    (by simp [heldOperands, hc]) hp (loadArrived_quiet o ws _).phase ?_
  cases o <;> rfl

/-! ### A hold in a stream -/

/-- `t` is `s`, or is `s` in a stream loop that has been resumed; a fault leaves no difference. -/
def Resumed (s t : State) : Prop := t = s ∨ (s.fault = false ∧ t = { s with streaming := true })

theorem handlePerforms_withStreaming (u : Txn) (s : State) (b : Bool) :
    handlePerforms u (record u { s with streaming := b }) =
      { handlePerforms u (record u s) with streaming := b } := by
  cases u with
  | writePixel layer x y c =>
    by_cases hr : inRange s.par x y = true <;> simp [handlePerforms, fbWrite, record, hr]
  | _ => rfl

/-- An operation that does not read whether a loop was resumed, and raises no fault, keeps states corresponding. -/
theorem Resumed.map {s t : State} (h : Resumed s t) {f : State → State}
    (hs : ∀ s : State, f { s with streaming := true } = { f s with streaming := true })
    (hf : ∀ s, (f s).fault = s.fault) : Resumed (f s) (f t) := by
  rcases h with rfl | ⟨hfault, rfl⟩
  · exact .inl rfl
  · exact .inr ⟨(hf s).trans hfault, hs s⟩

theorem Resumed.latches {s t : State} (h : Resumed s t) : s.latches = t.latches := by
  rcases h with rfl | ⟨_, rfl⟩ <;> rfl

theorem resumed_drawStable : DrawStable Resumed where
  par h := by rcases h with rfl | ⟨_, rfl⟩ <;> rfl
  ctl h := by rcases h with rfl | ⟨_, rfl⟩ <;> rfl
  empty h := by rcases h with rfl | ⟨_, rfl⟩ <;> rfl
  color c h := h.map (fun _ => rfl) (fun _ => rfl)
  point x y h := h.map (fun _ => rfl) (fun _ => rfl)
  advance h := h.map (fun _ => rfl) (fun _ => rfl)
  performs u h :=
    h.map (f := fun s => handlePerforms u (record u s)) (fun s => handlePerforms_withStreaming u s true)
      (fun _ => by simp)

theorem resumed_raiseStable : RaiseStable Resumed := by
  intro code ws s t h
  rcases h with rfl | ⟨_, rfl⟩ <;> exact .inl rfl

theorem fillaPoint_resumed {s t : State} (h : Resumed s t) (c : Color) :
    Alike Resumed (fillaPoint c s) (fillaPoint c t) :=
  (fillaPoint_alike resumed_drawStable ⟨h, by rw [h.latches], by rw [h.latches], by rw [h.latches]⟩ c).mono (·.rel)

/-- R158: however a resumed stream ends, it ends as one that was never interrupted. -/
theorem endOrHold_resumed {o : Out} {o' : Out} (h : Alike Resumed o o') (op : Opcode) :
    andThen o' (endOrHold op) = andThen o (endOrHold op) := by
  cases h with
  | next h =>
    rcases h with rfl | ⟨hf, rfl⟩
    · rfl
    · simp [endOrHold, hf, complete, hold]
  | fault r => rfl
  | refused r => rfl

/-- Taking from a longer list gives the entries of the shorter one, and goes on behind them. -/
theorem take_append_right {α : Type} (ws vs : List α) (n : Nat) :
    (ws ++ vs).take n = ws.take n ++ (ws.drop n ++ vs).take (n - (ws.take n).length) := by
  conv_lhs => rw [← List.take_append_drop n ws, List.append_assoc, List.take_append, List.take_take, Nat.min_self]

theorem drop_append_right {α : Type} (ws vs : List α) (n : Nat) :
    (ws ++ vs).drop n = (ws.drop n ++ vs).drop (n - (ws.take n).length) := by
  conv_lhs => rw [← List.take_append_drop n ws, List.append_assoc, List.drop_append, List.drop_take, Nat.sub_self,
    List.take_zero, List.nil_append]

/-- The words of a stream that have arrived: `split` groups them into elements, the loop goes through these. -/
def streamWords {α : Type} (o : Opcode) (split : List Word → Nat → List α × List Word) (color : α → Word)
    (words : List α → List Word) (act : α → Color → State → Out) (ws : List Word) (s : State) : Out :=
  andThen
    (streamLoop color words act (split ws (s.latches.n.toNat - s.latches.k.toNat)).1
      (setCmdq (split ws (s.latches.n.toNat - s.latches.k.toNat)).2 s))
    (endOrHold o)

/-- What the streams of DRAWPX and FILLA have in common. -/
structure StreamLaws {α : Type} (o : Opcode) (split : List Word → Nat → List α × List Word) (color : α → Word)
    (words : List α → List Word) (act : α → Color → State → Out) : Prop where
  resume : ∀ {s}, opcodeOf s.latches.op = some o →
    resumeStream s = streamWords o split color words act (s.part ++ s.cmdq) (clearPart s)
  words_split : ∀ ws n, words (split ws n).1 ++ (split ws n).2 = ws
  length_split : ∀ ws n, (split ws n).1.length ≤ n
  split_append : ∀ ws vs n,
    split (ws ++ vs) n =
      ((split ws n).1 ++ (split ((split ws n).2 ++ vs) (n - (split ws n).1.length)).1,
        (split ((split ws n).2 ++ vs) (n - (split ws n).1.length)).2)
  words_append : ∀ as bs, words (as ++ bs) = words as ++ words bs
  keeps : ∀ {a c s u}, act a c s = .next u → OnlyDraws s u
  requeued : ∀ {ws s t} a c, Requeued ws s t → Alike (Requeued ws) (act a c s) (act a c t)
  resumed : ∀ {s t} a c, Resumed s t → Alike Resumed (act a c s) (act a c t)
  streamed : ∀ {as s u}, streamLoop color words act as s = .next u → Streamed as.length s u

theorem streamDrawpx_eq_streamWords (ws : List Word) (s : State) :
    streamDrawpx ws s = streamWords .drawpx splitElems Elem.c elemWords (fun e => emit e.x e.y) ws s := by
  simp only [streamDrawpx, streamWords, drawElems_eq_streamLoop]

theorem drawpx_streamLaws : StreamLaws .drawpx splitElems Elem.c elemWords (fun e => emit e.x e.y) where
  resume h := by simp only [resumeStream, h, streamDrawpx_eq_streamWords]
  words_split ws n := (splitElems_spec ws n).1
  length_split ws n := (splitElems_spec ws n).2.1
  split_append := splitElems_append_right
  words_append := elemWords_append
  keeps := emit_onlyDraws
  requeued e c h := emit_alike (requeued_drawStable _) h e.x e.y c
  resumed e c h := emit_alike resumed_drawStable h e.x e.y c
  streamed h := drawElems_streamed (by rwa [drawElems_eq_streamLoop])

/-- R68: the colour words of a FILLA stream, at most `n`, and the words behind them. -/
def splitColors (ws : List Word) (n : Nat) : List Word × List Word := (ws.take n, ws.drop n)

theorem streamFilla_eq_streamWords (ws : List Word) (s : State) :
    streamFilla ws s = streamWords .filla splitColors id id (fun _ => fillaPoint) ws s := by
  simp only [streamFilla, streamWords, splitColors, fillaColors_eq_streamLoop]

theorem filla_streamLaws : StreamLaws .filla splitColors id id (fun _ => fillaPoint) where
  resume h := by simp only [resumeStream, h, streamFilla_eq_streamWords]
  words_split ws n := List.take_append_drop n ws
  length_split ws n := List.length_take_le n ws
  split_append ws vs n := congrArg₂ Prod.mk (take_append_right ws vs n) (drop_append_right ws vs n)
  words_append _ _ := rfl
  keeps := fillaPoint_onlyDraws
  requeued _ c h := fillaPoint_requeued h c
  resumed _ c h := fillaPoint_resumed h c
  streamed h := fillaColors_streamed (by rwa [fillaColors_eq_streamLoop])

/-- The elements left after `m` more have been taken. -/
theorem left_after {k : BitVec 64} {n : Word} {m : Nat} (h : m ≤ n.toNat - k.toNat) :
    n.toNat - (k + BitVec.ofNat 64 m).toNat = n.toNat - k.toNat - m := by
  rcases Nat.le_total k.toNat n.toNat with hk | hk
  · rw [cursor_add_toNat (n := n) (by omega), Nat.sub_add_eq]
  · obtain rfl : m = 0 := by omega
    simp

namespace StreamLaws

variable {α : Type} {o : Opcode} {split : List Word → Nat → List α × List Word} {color : α → Word}
  {words : List α → List Word} {act : α → Color → State → Out} {s t u : State} {as bs : List α}

/-- R158: a stream that holds has taken all of its whole elements, without a fault. -/
theorem holds (L : StreamLaws o split color words act) (hf : s.fault = false)
    (h : andThen (streamLoop color words act as s) (endOrHold o) = .next t) (hb : t.busy = true) :
    ∃ u, streamLoop color words act as s = .next u ∧ OnlyDraws s u ∧
      u.latches.k = s.latches.k + BitVec.ofNat 64 as.length ∧ t = hold true s.cmdq u := by
  obtain ⟨u, h1, h2⟩ := andThen_eq_next h
  rcases L.streamed h1 with ⟨hd, hk⟩ | ⟨ws, v, rfl⟩
  · simp only [endOrHold, hd.fault, hf, Bool.false_eq_true, if_false] at h2
    split at h2 <;> cases h2
    · cases hb
    · exact ⟨u, h1, hd, hk, by rw [hd.cmdq]⟩
  · cases h2
    cases hb

/-- R158: a stream that holds after `as` goes on with `bs` as it would have, had they come at once. -/
theorem loop_resumes (L : StreamLaws o split color words act) (hf : s.fault = false) (hb : s.busy = true)
    (hp : s.part = []) (h : streamLoop color words act as s = .next u) (hd : OnlyDraws s u) {r vs : List Word}
    (hr : words bs ++ r = s.cmdq ++ vs) :
    andThen (streamLoop color words act bs (setCmdq r (clearPart (hostSend vs (hold true s.cmdq u))))) (endOrHold o) =
      andThen (streamLoop color words act (as ++ bs) (setCmdq r s)) (endOrHold o) := by
  have huf : u.fault = false := hd.fault.trans hf
  have hres : Resumed (setCmdq r u) (setCmdq r (clearPart (hostSend vs (hold true s.cmdq u)))) := by
    refine .inr ⟨huf, ?_⟩
    simp [setCmdq, clearPart, hostSend, hold, hd.busy, hb, hd.part, hp]
  rw [streamLoop_append L.words_append L.keeps L.requeued hf hr, h]
  simp only [andThen_next, huf, Bool.false_eq_true, if_false]
  exact endOrHold_resumed (streamLoop_alike resumed_drawStable resumed_raiseStable L.resumed hres bs) o

/-- R158: a command that holds in its stream goes on as if the words sent since had come at once. -/
theorem step_held (L : StreamLaws o split color words act) {ws : List Word} (hf : s.fault = false)
    (hbusy : s.busy = true) (hp : s.part = []) (hop : opcodeOf s.latches.op = some o)
    (h : streamWords o split color words act ws s = .next t) (hb : t.busy = true) (vs : List Word) :
    step (hostSend vs t) = streamWords o split color words act (ws ++ vs) s := by
  have hleft := left_after (L.length_split ws (s.latches.n.toNat - s.latches.k.toNat))
  have hwords := L.words_split ((split ws (s.latches.n.toNat - s.latches.k.toNat)).2 ++ vs)
  unfold streamWords at h ⊢
  rw [L.split_append]
  generalize hsplit : split ws (s.latches.n.toNat - s.latches.k.toNat) = p at *
  obtain ⟨u, hu, hd, hk, rfl⟩ := L.holds (s := setCmdq p.2 s) hf h hb
  have huop : opcodeOf u.latches.op = some o := by rw [hd.op]; exact hop
  have hn : u.latches.n = s.latches.n := hd.n
  rw [setCmdq_latches] at hk
  rw [step_stream (s := hostSend vs (hold true _ u)) (hd.fault.trans hf) rfl rfl,
    L.resume (s := hostSend vs (hold true _ u)) huop]
  simp only [streamWords, clearPart_latches, hostSend_latches, hold_latches, hn, hk, hleft]
  exact L.loop_resumes (s := setCmdq p.2 s) hf hbusy hp hu hd (hwords _)

end StreamLaws

/-- R58, R158: the step after a hold is the one that would have been, had the words sent since come at once. -/
theorem step_held {s t : State} (hi : Idle s) (h : fetchCommand s = .next t) (hb : t.busy = true) (vs : List Word) :
    step (hostSend vs t) = fetchCommand (hostSend vs s) := by
  obtain ⟨o, ws, hc, hp, h⟩ := fetch_holds hi h hb
  have hc' : (hostSend vs s).cmdq = headerWord o :: (ws ++ vs) := by simp [hc]
  simp only [startIncomplete, takeHeader_phase, setCmdq_phase, hp, if_true] at h
  split at h
  · rename_i n ws
    rw [fetch_drawpx (s := hostSend vs s) hi hc' (phaseOk_drawing hp (by simp))]
    rw [streamDrawpx_eq_streamWords] at h ⊢
    exact drawpx_streamLaws.step_held (s := loadCount n (takeHeader Opcode.drawpx.code (setCmdq [] s))) hi.1 rfl rfl
      (opcodeOf_code .drawpx) h hb vs
  · rename_i x0 y0 w h₀ n ws
    rw [fetch_filla (s := hostSend vs s) hi hc' (phaseOk_drawing hp (by simp))]
    rw [streamFilla_eq_streamWords] at h ⊢
    exact filla_streamLaws.step_held (s := fillaStart x0 y0 w h₀ n (takeHeader Opcode.filla.code (setCmdq [] s))) hi.1
      rfl rfl (opcodeOf_code .filla) h hb vs
  · cases h
    exact step_heldOperands hi hc hp vs

/-- Settles O58: a hold goes on as the same words would have been taken at once; with no words sent that is the step
that led to it. -/
theorem holdResumesWhereItStopped : Obligations.HoldResumesWhereItStopped := by
  intro s t ws hi hstep hb
  rw [step_idle hi] at hstep
  have hres (vs : List Word) : step (hostSend vs t) = step (hostSend vs s) :=
    (step_held hi hstep hb vs).trans (step_idle (s := hostSend vs s) hi).symm
  refine ⟨hres ws, ?_⟩
  simpa [hostSend, step_idle hi, hstep] using hres []

end Sys2Proof.Machine

/-! ### Proofs: the points of a rectangle in row-major order -/

namespace Sys2Proof.Machine

/-- The points with the given columns and rows, row by row (R93). -/
def rowMajor (xs ys : List Int) : List (Int × Int) := ys.flatMap fun y => xs.map fun x => (x, y)

/-- R93: the point in column `i` of row `j`. -/
theorem point_mul_add (r : Rect) {i : Nat} (hi : i < r.w) (j : Nat) :
    point r (r.w * j + i) = (r.x0 + (i : Int), r.y0 + (j : Int)) := by
  rw [point, Nat.mul_add_mod, Nat.mod_eq_of_lt hi, Nat.mul_add_div (by omega), Nat.div_eq_of_lt hi, Nat.add_zero]

/-- R93: numbering the points of the first `n` rows goes through them row by row. -/
theorem map_point_range (r : Rect) (n : Nat) :
    (List.range (r.w * n)).map (point r) =
      rowMajor (Int.range r.x0 (r.x0 + r.w)) ((List.range n).map fun j : Nat => r.y0 + (j : Int)) := by
  induction n with
  | zero => rfl
  | succ n ih =>
    have hrow : ((List.range r.w).map (r.w * n + ·)).map (point r) =
        (Int.range r.x0 (r.x0 + r.w)).map fun x => (x, r.y0 + (n : Int)) := by
      simp only [Int.range, List.map_map, add_sub_cancel_left, Int.toNat_natCast]
      exact List.map_congr_left fun i hi => point_mul_add r (List.mem_range.1 hi) n
    rw [Nat.mul_succ, List.range_add, List.map_append, ih, hrow, List.range_succ]
    simp [rowMajor]

theorem points_eq_rowMajor (r : Rect) :
    (List.range (r.w * r.h)).map (point r) =
      rowMajor (Int.range r.x0 (r.x0 + r.w)) (Int.range r.y0 (r.y0 + r.h)) := by
  rw [map_point_range]
  simp [Int.range]

theorem boxPoints_eq_rowMajor (b : Box) :
    boxPoints b = rowMajor (Int.range b.x0 b.x1) (Int.range b.y0 b.y1) := by
  simp [boxPoints, rowMajor, Int.range, List.flatMap_map, Function.comp_def]

/-- The integers of an interval, in order, that lie in an interval inside it. -/
theorem filter_intRange {a b c d : Int} (hc : a ≤ c) (hd : d ≤ b) :
    (Int.range a b).filter (fun v => decide (c ≤ v) && decide (v < d)) = Int.range c d := by
  have hsorted (m n : Int) : (Int.range m n).Pairwise (· < ·) :=
    List.pairwise_lt_range.map _ fun _ _ h => by omega
  refine ((hsorted a b).filter _).eq_of_mem_iff (hsorted c d) fun v => ?_
  simp only [List.mem_filter, Int.mem_range_iff, Bool.and_eq_true, decide_eq_true_eq]
  omega

/-- R92: a box cuts the columns and the rows, each by itself. -/
theorem filter_contains_rowMajor (b : Box) (xs ys : List Int) :
    (rowMajor xs ys).filter (contains b) =
      rowMajor (xs.filter fun x => decide (b.x0 ≤ x) && decide (x < b.x1))
        (ys.filter fun y => decide (b.y0 ≤ y) && decide (y < b.y1)) := by
  induction ys with
  | nil => rfl
  | cons y ys ih =>
    have hrow : (xs.map fun x => (x, y)).filter (contains b) =
        if decide (b.y0 ≤ y) && decide (y < b.y1) then
          (xs.filter fun x => decide (b.x0 ≤ x) && decide (x < b.x1)).map fun x => (x, y)
        else [] := by
      rw [List.filter_map]
      split <;> simp_all [contains, Function.comp_def]
    have hcons (zs ws : List Int) (z : Int) : rowMajor zs (z :: ws) = (zs.map fun x => (x, z)) ++ rowMajor zs ws := rfl
    rw [hcons, List.filter_append, hrow, ih, List.filter_cons]
    split <;> rfl

/-- R94 (c), R111: the points of a rectangle that lie in the panel come in the intersection's own order. -/
theorem filter_points_eq_boxPoints (p : Params) (r : Rect) :
    ((List.range (r.w * r.h)).map (point r)).filter (contains (isect p r)) = boxPoints (isect p r) := by
  have hx := filter_intRange (le_max_left r.x0 0) (min_le_left (r.x0 + r.w) p.W)
  have hy := filter_intRange (le_max_left r.y0 0) (min_le_left (r.y0 + r.h) p.H)
  rw [points_eq_rowMajor, filter_contains_rowMajor, boxPoints_eq_rowMajor]
  exact congrArg₂ rowMajor hx hy

end Sys2Proof.Machine

/-! ### Proofs: the transactions of the fills -/

namespace Sys2Proof.Machine

/-- R102: one more colour adds the transaction of its point, if the point has a place. -/
theorem fillaTxns_concat (p : Params) (r : Rect) (cs : List Color) (c : Color) :
    fillaTxns p r (cs ++ [c]) = fillaTxns p r cs ++
      if boxEmpty (isect p r) = false ∧ cs.length < r.w * r.h ∧ contains (isect p r) (point r cs.length) = true then
        [pixelAt p c (point r cs.length)]
      else [] := by
  have hsame (ks : List Nat) (hks : ∀ k ∈ ks, k < cs.length) :
      ks.map (fun k => pixelAt p ((cs ++ [c]).getD k default) (point r k)) =
        ks.map fun k => pixelAt p (cs.getD k default) (point r k) :=
    List.map_congr_left fun k hk => by rw [List.getD_append _ _ _ _ (hks k hk)]
  have hbelow : ∀ k ∈ (List.range (min cs.length (r.w * r.h))).filter
      (fun k => !boxEmpty (isect p r) && contains (isect p r) (point r k)), k < cs.length := by
    intro k hk
    have := List.mem_range.1 (List.mem_filter.1 hk).1
    omega
  unfold fillaTxns
  rcases Nat.lt_or_ge cs.length (r.w * r.h) with hlt | hge
  · have hmin : min (cs ++ [c]).length (r.w * r.h) = cs.length + 1 := by simp; omega
    rw [Nat.min_eq_left hlt.le] at hbelow ⊢
    rw [hmin, List.range_succ, List.filter_append, List.map_append, hsame _ hbelow]
    congr 1
    by_cases hk : boxEmpty (isect p r) = false ∧ contains (isect p r) (point r cs.length) = true
    · simp [hk, hlt]
    · rw [if_neg (by tauto), List.filter_cons_of_neg (by simpa using hk)]
      rfl
  · have hmin : min (cs ++ [c]).length (r.w * r.h) = min cs.length (r.w * r.h) := by simp; omega
    rw [hmin, hsame _ hbelow, if_neg (by omega), List.append_nil]

/-- R94 (c), R106: FILLA with one colour for every point emits what FILLS does. -/
theorem fillaTxns_replicate (p : Params) (r : Rect) (c : Color) {n : Nat} (hn : r.w * r.h ≤ n) :
    fillaTxns p r (List.replicate n c) = fillsTxns p r c := by
  have hcolor : ∀ k ∈ (List.range (r.w * r.h)).filter
      (fun k => !boxEmpty (isect p r) && contains (isect p r) (point r k)),
      pixelAt p ((List.replicate n c).getD k default) (point r k) = pixelAt p c (point r k) := by
    intro k hk
    have hlt : k < n := (List.mem_range.1 (List.mem_filter.1 hk).1).trans_le hn
    simp [hlt]
  rw [fillaTxns, fillsTxns, List.length_replicate, Nat.min_eq_right hn, List.map_congr_left hcolor]
  cases he : boxEmpty (isect p r) with
  | true => simp
  | false => simp [← filter_points_eq_boxPoints, List.filter_map, Function.comp_def]

/-! ### The drawing loops from where they start -/

/-- R90, R95: the clip registers and EMPTY hold the intersection of the latched rectangle. -/
structure Clipped (s : State) : Prop where
  box : latchedBox s.latches = isect s.par (latchedRect s.latches)
  empty : s.empty = boxEmpty (isect s.par (latchedRect s.latches))

theorem clip_clipped (s : State) : Clipped (clip s) := ⟨clip_latchedBox s, rfl⟩

theorem fillaStart_clipped (x0 y0 w h n : Word) (s : State) : Clipped (fillaStart x0 y0 w h n s) := clip_clipped _

/-- R111: the fill of the intersection. -/
theorem fillBox_performs {s : State} (hs : s.ctl.session = true) (hc : Clipped s) (c : Color) :
    ∃ u, fillBox c s = .next u ∧ OnlyDraws s u ∧ Performs (fillsTxns s.par (latchedRect s.latches) c) s u := by
  refine ⟨_, emitAll_eq_next hs _ c, painted_onlyDraws _ c s, ?_⟩
  rw [fillsTxns, ← hc.empty, ← hc.box]
  exact painted_performs _ c s

/-- R102: what one colour word of FILLA emits. -/
theorem fillaPut_performs (c : Color) (s : State) :
    Performs
      (if s.empty = false ∧ s.latches.k.toNat < (latchedRect s.latches).w * (latchedRect s.latches).h ∧
          contains (latchedBox s.latches) (point (latchedRect s.latches) s.latches.k.toNat) = true then
        [pixelAt s.par c (point (latchedRect s.latches) s.latches.k.toNat)]
      else []) s (fillaPut c s) := by
  unfold fillaPut
  split
  · rw [if_pos ‹_›]
    exact putPixel_performs _ _ c s
  · rw [if_neg ‹_›]
    exact ⟨(List.append_nil _).symm, rfl, rfl⟩

/-- R102: the stream of FILLA emits its transactions. -/
theorem fillaDrawn_performs {s : State} (hc : Clipped s) (hk : s.latches.k = 0) (cs : List Color)
    (hlen : cs.length < 2 ^ 64) :
    Performs (fillaTxns s.par (latchedRect s.latches) cs) s (fillaDrawn cs s) := by
  induction cs using List.reverseRecOn with
  | nil => exact ⟨by simp [fillaTxns, fillaDrawn], rfl, by simp [fillaTxns, fillaDrawn]⟩
  | append_singleton cs c ih =>
    rw [List.length_append, List.length_singleton] at hlen
    have hd := fillaDrawn_onlyDraws cs s
    have hg := fillaDrawn_sameGeometry cs s
    have hkn : (fillaDrawn cs s).latches.k.toNat = cs.length := by
      rw [fillaDrawn_k, hk]
      simp
      omega
    have hput := fillaPut_performs c (fillaDrawn cs s)
    rw [hg.rect, hg.box, hd.par, hd.empty, hkn, hc.box, hc.empty] at hput
    rw [fillaTxns_concat, fillaDrawn_append]
    exact (ih (by omega)).trans hd.par hput

/-! ### The commands -/

/-- `t` is `s` after a drawing command that has found the rectangle `r`, has emitted `ts` and has answered. -/
structure Filled (o : Opcode) (r : Rect) (ts : List Txn) (s t : State) : Prop where
  answers : Answers (response o []) s t
  performs : Performs ts s t
  empty : t.empty = boxEmpty (isect s.par r)
  phase : t.phase = s.phase

/-- `t` is `s` but for the latches, EMPTY and what is recorded of the command in progress. -/
def OnlyLatches (s t : State) : Prop :=
  { s with latches := t.latches, empty := t.empty, busy := t.busy, streaming := t.streaming, part := t.part } = t

/-- R72: a fill that starts where its rectangle is clipped, and draws, is complete with its answer. -/
theorem OnlyLatches.filled {s v u : State} {ts : List Txn} (h : OnlyLatches s v) (hf : s.fault = false)
    (hc : Clipped v) (hd : OnlyDraws v u) (hp : Performs ts v u) (o : Opcode) :
    Filled o (latchedRect v.latches) ts s (complete o [] u) := by
  rw [← h] at hc hd hp ⊢
  exact {
    answers := by simp [Answers, hd.rspq, hd.resps, hd.fault, hd.faultCode, hd.cmdq, hd.par, hf]
    performs := hp
    empty := hd.empty.trans hc.empty
    phase := hd.phase }

/-- R106, R108: what FILLS and CLEAR do once their rectangle is latched. -/
theorem OnlyLatches.fillBox {s v : State} (h : OnlyLatches s (clip v)) (hi : Idle s) (hs : Session s) (c : Color)
    (o : Opcode) :
    ∃ t, andThen (fillBox c (clip v)) (fun s => .next (complete o [] s)) = .next t ∧
      Filled o (latchedRect v.latches) (fillsTxns s.par (latchedRect v.latches) c) s t := by
  have hctl : (clip v).ctl = s.ctl := (congrArg State.ctl h :).symm
  have hpar : v.par = s.par := (congrArg State.par h :).symm
  obtain ⟨u, hu, hd, hp⟩ := fillBox_performs (by rw [hctl, hs.2]) (clip_clipped v) c
  rw [clip_par, hpar] at hp
  exact ⟨_, by rw [hu, andThen_next], h.filled hi.1 (clip_clipped v) hd hp o⟩

/-- R106: FILLS fills the intersection of its rectangle. -/
theorem exec_fills {s : State} (hi : Idle s) (hs : Session s) (x0 y0 w h : Word) (c : Color) :
    ∃ t, exec (.fills x0 y0 w h (colorWord c)) s = .next t ∧
      Filled .fills (rectOf x0 y0 w h) (fillsTxns s.par (rectOf x0 y0 w h) c) s t := by
  have hv : OnlyLatches s (clip (loadColor c (loadRect x0 y0 w h (takeHeader Opcode.fills.code s)))) := rfl
  rw [exec_run _ hi (by simp [Instr.opcode, phaseOk, hs.1])]
  simpa [body, fillsBody, Instr.opcode, latchedRect] using hv.fillBox hi hs c .fills

/-- R108: CLEAR fills the intersection of the bounding box. -/
theorem exec_clear {s : State} (hi : Idle s) (hs : Session s) (c : Color) :
    ∃ t, exec (.clear (colorWord c)) s = .next t ∧
      Filled .clear (rectOf 0 0 s.par.cfg.width s.par.cfg.height)
        (fillsTxns s.par (rectOf 0 0 s.par.cfg.width s.par.cfg.height) c) s t := by
  have hv : OnlyLatches s
      (clip (loadRect 0 0 s.par.cfg.width s.par.cfg.height (loadColor c (takeHeader Opcode.clear.code s)))) := rfl
  rw [exec_run _ hi (by simp [Instr.opcode, phaseOk, hs.1])]
  simpa [body, clearBody, Instr.opcode, latchedRect] using hv.fillBox hi hs c .clear

/-- R102: FILLA goes through its colours along the points of its rectangle. -/
theorem exec_filla {s : State} (hi : Idle s) (hs : Session s) (x0 y0 w h : Word) (cs : List Color)
    (hlen : cs.length < 2 ^ 32) :
    ∃ t, exec (.filla x0 y0 w h (cs.map colorWord)) s = .next t ∧
      Filled .filla (rectOf x0 y0 w h) (fillaTxns s.par (rectOf x0 y0 w h) cs) s t := by
  have hv : OnlyLatches s (fillaStart x0 y0 w h (countWord cs.length) (takeHeader Opcode.filla.code s)) := rfl
  have hc := fillaStart_clipped x0 y0 w h (countWord cs.length) (takeHeader Opcode.filla.code s)
  have hd := fillaDrawn_onlyDraws cs (fillaStart x0 y0 w h (countWord cs.length) (takeHeader Opcode.filla.code s))
  refine ⟨_, ?_, hv.filled hi.1 hc hd (fillaDrawn_performs hc rfl cs (by omega)) .filla⟩
  have hgood := fillaColors_good (s := fillaStart x0 y0 w h (countWord cs.length) (takeHeader Opcode.filla.code s))
    hs.2 cs []
  rw [List.append_nil] at hgood
  rw [exec_run _ hi (by simp [Instr.opcode, phaseOk, hs.1])]
  simp only [body, fillaBody, Instr.opcode, List.length_map, hgood, fillaColors, andThen_next, endStream]
  rw [if_neg (by simp [hd.fault, hi.1])]

/-! ### The equivalences of R78 -/

/-- What leaves the controller port alike, fills the framebuffer alike. -/
theorem Filled.same {o o' : Opcode} {r : Rect} {ts : List Txn} {s t u : State} (ht : Filled o r ts s t)
    (hu : Filled o' r ts s u) :
    t.hist = u.hist ∧ t.mem = u.mem ∧ t.misuse = u.misuse ∧ t.empty = u.empty ∧
      t.rspq = s.rspq ++ response o [] ∧ u.rspq = s.rspq ++ response o' [] := by
  obtain ⟨hthist, -, htfb⟩ := ht.performs
  obtain ⟨huhist, -, hufb⟩ := hu.performs
  obtain ⟨hmisuse, hmem⟩ := Prod.mk.inj (htfb.trans hufb.symm)
  exact ⟨hthist.trans huhist.symm, hmem, hmisuse, ht.empty.trans hu.empty.symm, ht.answers.1, hu.answers.1⟩

/-- Settles O37: CLEAR emits what FILLS does over the bounding box, and FILLS what FILLA does with a colour for every
point. -/
theorem fillEquivalences : Obligations.FillEquivalences := by
  refine ⟨fun s c hi hs => ?_, fun s x0 y0 w h c n hi hs hn hn' => ?_⟩
  · obtain ⟨t, ht, hclear⟩ := exec_clear hi hs c
    obtain ⟨u, hu, hfills⟩ := exec_fills hi hs 0 0 s.par.cfg.width s.par.cfg.height c
    exact ⟨t, u, ht, hu, hclear.same hfills⟩
  · obtain ⟨t, ht, hfills⟩ := exec_fills hi hs x0 y0 w h c
    obtain ⟨u, hu, hfilla⟩ := exec_filla hi hs x0 y0 w h (List.replicate n c) (by simp; omega)
    rw [fillaTxns_replicate s.par (rectOf x0 y0 w h) c hn] at hfilla
    rw [List.map_replicate] at hu
    exact ⟨t, u, ht, hu, hfills.same hfilla⟩

end Sys2Proof.Machine

/-! ### Proofs: the commands that only answer -/

namespace Sys2Proof.Machine

/-- R71, R72: a command that only takes its words, and sets EMPTY, answers and leaves everything outside CPCU. -/
theorem OnlyLatches.completes {s v : State} (h : OnlyLatches s v) (hf : s.fault = false) (o : Opcode)
    (ws : List Word) :
    Answers (response o ws) s (complete o ws v) ∧ SameWorld s (complete o ws v) ∧
      (complete o ws v).phase = s.phase := by
  rw [← h]
  exact ⟨⟨rfl, rfl, rfl, rfl, rfl, hf, rfl, rfl, rfl⟩, ⟨rfl, rfl, rfl, rfl, fun _ => rfl⟩, rfl⟩

/-- R73: a polarity is answered as its bit, zero-extended. -/
theorem zextBit_eq_setWidth (b : Bool) : zextBit b = (BitVec.ofBool b).setWidth 32 := by
  cases b <;> decide

/-- R17, R73: the response to GETCFG, word by word. -/
theorem response_getcfg (c : DisplayConfig) :
    response .getcfg (cfgWords c) =
      [0x0200000D, c.width, c.height, c.hBackPorch, c.hFrontPorch, c.vBackPorch, c.vFrontPorch, c.hSync, c.vSync,
        c.frameRate, (BitVec.ofBool c.hSyncPol).setWidth 32, (BitVec.ofBool c.vSyncPol).setWidth 32,
        (BitVec.ofBool c.dePol).setWidth 32, (BitVec.ofBool c.pclkPol).setWidth 32] := by
  have hlen : (cfgWords c).length = 13 := rfl
  have hheader : responseHeader .getcfg 13 = 0x0200000D := by decide
  rw [response, hlen, hheader]
  simp only [cfgWords, zextBit_eq_setWidth]

/-- Settles O20: GETCFG takes its header and answers, in either phase. -/
theorem getcfgCompletes : Obligations.GetcfgCompletes := by
  intro s hi
  have hv : OnlyLatches s (takeHeader Opcode.getcfg.code s) := rfl
  obtain ⟨hanswers, hworld, hphase⟩ := hv.completes hi.1 .getcfg (cfgWords s.par.cfg)
  rw [response_getcfg] at hanswers
  exact ⟨_, exec_run .getcfg hi rfl, hanswers, hworld, rfl, hphase⟩

end Sys2Proof.Machine

/-! ### Proofs: the colour packer -/

namespace Sys2Proof.Machine

/-- R84: red is bits 15:11. -/
theorem pack_red (c : Color) : (pack c).extractLsb' 11 5 = c.r :=
  calc (c.r ++ c.g ++ c.b).extractLsb' 11 5
    _ = (c.r ++ c.g).extractLsb' 6 5 := BitVec.extractLsb'_append_eq_of_le (by decide)
    _ = c.r := BitVec.extractLsb'_append_eq_left

/-- R84: green is bits 10:5. -/
theorem pack_green (c : Color) : (pack c).extractLsb' 5 6 = c.g :=
  calc (c.r ++ c.g ++ c.b).extractLsb' 5 6
    _ = (c.r ++ c.g).extractLsb' 0 6 := BitVec.extractLsb'_append_eq_of_le (by decide)
    _ = c.g := BitVec.extractLsb'_append_eq_right

/-- R84: blue is bits 4:0. -/
theorem pack_blue (c : Color) : (pack c).extractLsb' 0 5 = c.b :=
  BitVec.extractLsb'_append_eq_right

/-- R84: the sum form; no field reaches into the next. -/
theorem toNat_pack (c : Color) : (pack c).toNat = c.r.toNat * 2048 + c.g.toNat * 32 + c.b.toNat := by
  calc (pack c).toNat
    _ = (c.r ++ c.g).toNat <<< 5 ||| c.b.toNat := BitVec.toNat_append (c.r ++ c.g) c.b
    _ = (c.r ++ c.g).toNat <<< 5 + c.b.toNat := (Nat.shiftLeft_add_eq_or_of_lt c.b.isLt _).symm
    _ = (c.r.toNat <<< 6 + c.g.toNat) <<< 5 + c.b.toNat := by
      rw [BitVec.toNat_append, Nat.shiftLeft_add_eq_or_of_lt c.g.isLt]
    _ = c.r.toNat * 2048 + c.g.toNat * 32 + c.b.toNat := by
      simp only [Nat.shiftLeft_eq]
      omega

/-- R84: the shift form, bit by bit. -/
theorem pack_eq_or (c : Color) :
    pack c = (c.r.setWidth 16 <<< 11) ||| (c.g.setWidth 16 <<< 5) ||| c.b.setWidth 16 := by
  refine BitVec.eq_of_getLsbD_eq fun i hi => ?_
  have happend : (pack c).getLsbD i = (c.r ++ c.g ++ c.b).getLsbD i := rfl
  rw [happend, BitVec.getLsbD_append, BitVec.getLsbD_append]
  interval_cases i <;> simp

/-- Settles O16: the fields of an appended word are its parts, and the shifted channels have no bit in common. -/
theorem packLayout : Obligations.PackLayout :=
  ⟨fun c => ⟨pack_red c, pack_green c, pack_blue c, pack_eq_or c, toNat_pack c, Nat.le_of_lt_succ (pack c).isLt⟩,
    by decide, by decide, by decide⟩

/-- R86 (a): unpacking reads the fields. -/
theorem unpack_pack (c : Color) : unpack (pack c) = c := by
  rw [unpack, pack_red, pack_green, pack_blue]

/-- R86 (b): the three fields lie side by side and are the whole pixel. -/
theorem pack_unpack (p : Pixel) : pack (unpack p) = p :=
  calc p.extractLsb' 11 5 ++ p.extractLsb' 5 6 ++ p.extractLsb' 0 5
    _ = p.extractLsb' 5 11 ++ p.extractLsb' 0 5 :=
      congrArg (· ++ p.extractLsb' 0 5) (BitVec.extractLsb'_append_extractLsb'_eq_extractLsb' rfl)
    _ = p.extractLsb' 0 16 := BitVec.extractLsb'_append_extractLsb'_eq_extractLsb' rfl
    _ = p := BitVec.extractLsb'_eq_self

/-- R86 (c): a colour that is no darker in any channel packs to no smaller a value. -/
theorem pack_mono {c d : Color} (hr : c.r.toNat ≤ d.r.toNat) (hg : c.g.toNat ≤ d.g.toNat)
    (hb : c.b.toNat ≤ d.b.toNat) : (pack c).toNat ≤ (pack d).toNat := by
  rw [toNat_pack, toNat_pack]
  omega

/-- R86 (d): the packed value of a legal `COLOR` word, from the word's own fields. -/
theorem pack_of_colorOf {cw : Word} {c : Color} (h : colorOf cw = some c) :
    pack c = ((cw.extractLsb' 16 5).setWidth 16 <<< 11) ||| ((cw.extractLsb' 8 6).setWidth 16 <<< 5) |||
      (cw.extractLsb' 0 5).setWidth 16 := by
  obtain ⟨hr, hg, hb⟩ := fields_of_colorOf h
  rw [← hr, ← hg, ← hb, pack_eq_or]

/-- Settles O17: `unpack` inverts `pack` on both sides, and the order and the `COLOR` form follow from R84's forms. -/
theorem packLaws : Obligations.PackLaws :=
  ⟨unpack_pack, pack_unpack, fun _ _ h => Function.LeftInverse.injective unpack_pack h,
    fun _ _ => pack_mono, by decide, by decide, fun _ _ => pack_of_colorOf⟩

/-- R87: PACK takes its header and its colour, and answers what the packer holds. -/
theorem exec_pack {s : State} (hi : Idle s) (c : Color) :
    exec (.pack (colorWord c)) s =
      .next (complete .pack [(pack c).setWidth 32] (loadColor c (takeHeader Opcode.pack.code s))) := by
  rw [exec_run _ hi rfl]
  simp [body, packBody, Instr.opcode]

/-- R72: the header of PACK's response, which has one word of payload. -/
theorem response_pack (w : Word) : response .pack [w] = [0x04000001, w] :=
  congrArg (· :: [w]) (by decide : responseHeader .pack 1 = 0x04000001)

/-- Settles O19: PACK takes its words and answers, in either phase. -/
theorem packCompletes : Obligations.PackCompletes := by
  intro s c hi
  have hv : OnlyLatches s (loadColor c (takeHeader Opcode.pack.code s)) := rfl
  obtain ⟨hanswers, hworld, hphase⟩ := hv.completes hi.1 .pack [(pack c).setWidth 32]
  rw [response_pack] at hanswers
  exact ⟨_, exec_pack hi c, hanswers, hworld, rfl, hphase⟩

end Sys2Proof.Machine

/-! ### Proofs: the intersection and the commands of the clip unit -/

namespace Sys2Proof.Machine

/-! ### The box of an intersection -/

/-- R90, R92: the box of an intersection holds the common points of the rectangle and the panel. -/
theorem contains_isect_iff (p : Params) (r : Rect) (pt : Int × Int) :
    contains (isect p r) pt = true ↔ Covers r pt ∧ Covers (panel p) pt := by
  obtain ⟨x, y⟩ := pt
  simp only [contains_iff, isect, panel, Covers]
  omega

/-- R90, R92: a box that is not empty contains its own first corner. -/
theorem boxEmpty_iff_forall_contains (b : Box) :
    boxEmpty b = true ↔ ∀ x y : Int, contains b (x, y) = false := by
  simp only [boxEmpty_iff, Bool.eq_false_iff, ne_eq, contains_iff]
  constructor
  · intro h x y
    omega
  · intro h
    have hcorner := h b.x0 b.y0
    omega

/-- Settles O22: the points of the intersection are the common points of the rectangle and the panel. -/
theorem isectIsIntersection : Obligations.IsectIsIntersection := by
  refine fun p r => ⟨fun x y => ?_, boxEmpty_iff_forall_contains _⟩
  rw [contains_isect_iff]
  simp only [Covers, panel, Params.W, Params.H, zero_add]

/-- R91 (d): the corners of a rectangle inside the panel stay where they are. -/
theorem isect_of_inside {p : Params} {r : Rect} (hx : 0 ≤ r.x0) (hx' : r.x0 + r.w ≤ p.W) (hy : 0 ≤ r.y0)
    (hy' : r.y0 + r.h ≤ p.H) : isect p r = ⟨r.x0, r.y0, r.x0 + r.w, r.y0 + r.h⟩ := by
  rw [isect, max_eq_left hx, max_eq_left hy, min_eq_left hx', min_eq_left hy']

/-- R91 (b), (c): an intersection is empty where, along one axis, the rectangle has no length or lies beside the panel, or
the panel has none; and nowhere else. -/
theorem boxEmpty_isect_iff (p : Params) (r : Rect) :
    boxEmpty (isect p r) = true ↔
      (r.w = 0 ∨ (p.W : Int) ≤ r.x0 ∨ r.x0 + r.w ≤ 0 ∨ p.W = 0) ∨
      (r.h = 0 ∨ (p.H : Int) ≤ r.y0 ∨ r.y0 + r.h ≤ 0 ∨ p.H = 0) := by
  simp only [boxEmpty_iff, isect]
  omega

/-- R91 (f): a sum that saturates at the bound or above it has the same minimum with the bound. -/
theorem min_saturated {sat : Int → Int} {n : Int} (hbelow : ∀ v, v ≤ n → sat v = v)
    (habove : ∀ v, ¬ v ≤ n → n ≤ sat v) (v : Int) : min (sat v) n = min v n := by
  by_cases hv : v ≤ n
  · rw [hbelow v hv]
  · rw [min_eq_right (habove v hv), min_eq_right (by omega)]

/-- Settles O23: which intersections are empty is `boxEmpty_isect_iff`, and the panel is a rectangle inside itself. -/
theorem isectProperties : Obligations.IsectProperties := by
  intro p r hW hH
  have hpanel : isect p (panel p) = ⟨0, 0, p.W, p.H⟩ := by
    rw [isect_of_inside] <;> simp [panel]
  refine ⟨fun pt h => (contains_isect_iff p r pt).1 h, fun h => ?zeroSide, fun h => ?beside,
    fun hx hx' hy hy' hw hh => ⟨isect_of_inside hx hx' hy hy', ?inside⟩, ⟨hpanel, ?panel⟩,
    fun _ hbelow habove => min_saturated hbelow habove _, fun _ hbelow habove => min_saturated hbelow habove _⟩
  case zeroSide =>
    rw [boxEmpty_isect_iff]
    omega
  case beside =>
    rw [boxEmpty_isect_iff]
    omega
  case inside =>
    rw [← Bool.not_eq_true, boxEmpty_isect_iff]
    omega
  case panel =>
    rw [← Bool.not_eq_true, boxEmpty_isect_iff]
    simp only [panel]
    omega

/-! ### The points by their numbers -/

/-- R93: the points numbered below `w*h` are points of the rectangle. -/
theorem point_covers {r : Rect} {k : Nat} (hk : k < r.w * r.h) : Covers r (point r k) := by
  have hw : 0 < r.w := Nat.pos_of_mul_pos_right (Nat.zero_lt_of_lt hk)
  have hcol : k % r.w < r.w := Nat.mod_lt k hw
  have hrow : k / r.w < r.h := Nat.div_lt_of_lt_mul hk
  exact ⟨le_add_of_nonneg_right (Int.natCast_nonneg _), Int.add_lt_add_left (Int.ofNat_lt.2 hcol) _,
    le_add_of_nonneg_right (Int.natCast_nonneg _), Int.add_lt_add_left (Int.ofNat_lt.2 hrow) _⟩

/-- R94 (d): the number of a point, from its column and row. -/
theorem number_point (r : Rect) (k : Nat) :
    ((point r k).2 - r.y0) * (r.w : Int) + ((point r k).1 - r.x0) = (k : Int) := by
  simp only [point, add_sub_cancel_left]
  exact_mod_cast Nat.div_add_mod' k r.w

/-- R93: a place in the rectangle has a number below `w*h`. -/
theorem number_lt {w h i j : Nat} (hi : i < w) (hj : j < h) : j * w + i < w * h :=
  calc j * w + i
    _ < (j + 1) * w := by rw [Nat.succ_mul]; omega
    _ ≤ h * w := Nat.mul_le_mul_right w hj
    _ = w * h := Nat.mul_comm h w

theorem length_boxPoints (b : Box) : (boxPoints b).length = (b.y1 - b.y0).toNat * (b.x1 - b.x0).toNat := by
  simp [boxPoints, List.length_flatMap]

/-- R94 (b): the sides of an intersection are no longer than the panel's. -/
theorem length_boxPoints_isect_le (p : Params) (r : Rect) : (boxPoints (isect p r)).length ≤ p.W * p.H := by
  have hx : ((isect p r).x1 - (isect p r).x0).toNat ≤ p.W := by
    simp only [isect]
    omega
  have hy : ((isect p r).y1 - (isect p r).y0).toNat ≤ p.H := by
    simp only [isect]
    omega
  rw [length_boxPoints, Nat.mul_comm]
  exact Nat.mul_le_mul hx hy

/-- Settles O24: the points that pass the filter are the intersection's own (`filter_points_eq_boxPoints`), and are
counted there. -/
theorem rowMajorPoints : Obligations.RowMajorPoints := by
  intro p r
  simp only [filter_points_eq_boxPoints]
  refine ⟨fun i j hi hj => ⟨number_lt hi hj, ?numbering⟩, fun k hk => ?passes, fun hne => ?count,
    length_boxPoints_isect_le p r, fun _ => trivial, fun k _ => number_point r k⟩
  case numbering =>
    rw [Nat.mul_comm]
    exact point_mul_add r hi j
  case passes =>
    rw [contains_isect_iff, and_iff_right (point_covers hk)]
    simp [Covers, panel]
  case count =>
    obtain ⟨hx, hy⟩ := (boxEmpty_eq_false _).1 hne
    rw [length_boxPoints, Nat.cast_mul, Int.toNat_of_nonneg (by omega), Int.toNat_of_nonneg (by omega), mul_comm]

/-! ### ISECT and BBOX -/

/-- R72, R73: the response to ISECT for an empty intersection. -/
theorem response_isect_of_empty {b : Box} (h : boxEmpty b = true) :
    response .isect (isectPayload b) = [0x05000005, 1, 0, 0, 0, 0] := by
  rw [isectPayload, if_pos h]
  decide

/-- R72, R73: the response to ISECT for an intersection with points. -/
theorem response_isect_of_nonempty {b : Box} (h : boxEmpty b = false) :
    response .isect (isectPayload b) =
      [0x05000005, 0, BitVec.ofInt 32 b.x0, BitVec.ofInt 32 b.y0, BitVec.ofInt 32 (b.x1 - b.x0),
        BitVec.ofInt 32 (b.y1 - b.y0)] := by
  have hheader : responseHeader .isect 5 = 0x05000005 := by decide
  rw [isectPayload, if_neg (by simp [h]), ← hheader]
  rfl

/-- R95: ISECT takes its words, clips the rectangle and answers the intersection, which the registers hold exactly. -/
theorem exec_isect {s : State} (hi : Idle s) (x0 y0 w h : Word) :
    exec (.isect x0 y0 w h) s =
      .next (complete .isect (isectPayload (isect s.par (rectOf x0 y0 w h)))
        (clip (loadRect x0 y0 w h (takeHeader Opcode.isect.code s)))) := by
  rw [exec_run _ hi rfl]
  simp only [body, isectBody, clip_latchedBox]
  rfl

/-- Settles O26: ISECT takes its words, sets EMPTY and answers; the intersection is empty or it has points. -/
theorem isectCompletes : Obligations.IsectCompletes := by
  intro s x0 y0 w h hi
  have hv : OnlyLatches s (clip (loadRect x0 y0 w h (takeHeader Opcode.isect.code s))) := rfl
  obtain ⟨hanswers, hworld, hphase⟩ :=
    hv.completes hi.1 .isect (isectPayload (isect s.par (rectOf x0 y0 w h)))
  refine ⟨_, exec_isect hi x0 y0 w h, hworld, hphase, ?_⟩
  cases he : boxEmpty (isect s.par (rectOf x0 y0 w h)) with
  | true =>
    rw [response_isect_of_empty he] at hanswers
    exact (if_pos ((boxEmpty_iff _).1 he)).mpr ⟨he, hanswers⟩
  | false =>
    rw [response_isect_of_nonempty he] at hanswers
    exact (if_neg ((boxEmpty_iff _).not.1 (ne_true_of_eq_false he))).mpr ⟨he, hanswers⟩

/-- R72, R97: the response to BBOX, which has four words of payload. -/
theorem response_bbox (w h : Word) : response .bbox [0, 0, w, h] = [0x03000004, 0, 0, w, h] :=
  congrArg (· :: [0, 0, w, h]) (by decide : responseHeader .bbox 4 = 0x03000004)

/-- Settles O27: BBOX takes its header and answers, in READY. -/
theorem bboxCompletes : Obligations.BboxCompletes := by
  intro s hi hready
  have hv : OnlyLatches s (takeHeader Opcode.bbox.code s) := rfl
  obtain ⟨hanswers, hworld, hphase⟩ := hv.completes hi.1 .bbox [0, 0, s.par.cfg.width, s.par.cfg.height]
  rw [response_bbox] at hanswers
  exact ⟨_, exec_run .bbox hi (by rw [hready]; rfl), hanswers, hworld, rfl, hphase⟩

end Sys2Proof.Machine

/-! ### Proofs: what pixel writes leave in the framebuffer -/

namespace Sys2Proof.Machine

/-- A pixel to be written: its coordinate words and its colour. -/
abbrev PixelWrite := Word × Word × Color

/-- R38: the number of the pixel written. -/
def PixelWrite.index (p : Params) (q : PixelWrite) : Nat := pixelIndex p q.1 q.2.1

/-- The two bytes of pixel `i`, low one first, as far as they are known (R40). -/
def Memory.pixelBytes (m : Memory) (i : Nat) : Option Byte × Option Byte :=
  (Memory.read m (2 * i), Memory.read m (2 * i + 1))

/-- R40, R44: the two bytes a stored pixel value has, low one first. -/
def storedBytes (d : Pixel) : Option Byte × Option Byte := (some (d.extractLsb' 0 8), some (d.extractLsb' 8 8))

theorem Memory.pixelBytes_writePixel (m : Memory) (j : Nat) (d : Pixel) (i : Nat) :
    Memory.pixelBytes (Memory.writePixel m j d) i = if i = j then storedBytes d else Memory.pixelBytes m i := by
  by_cases hij : i = j
  · simp [Memory.pixelBytes, storedBytes, Memory.read_writePixel, hij]
  · have hhigh : 2 * i + 1 ≠ 2 * j := by omega
    have hlow : 2 * i ≠ 2 * j + 1 := by omega
    simp [Memory.pixelBytes, Memory.read_writePixel, hij, hhigh, hlow]

/-- A byte is known as well as the pixel it is part of. -/
theorem Memory.read_congr {m m' : Memory} {a : Nat} (h : Memory.pixelBytes m (a / 2) = Memory.pixelBytes m' (a / 2)) :
    Memory.read m a = Memory.read m' a := by
  obtain ⟨hlow, hhigh⟩ := Prod.mk.inj h
  rcases Nat.mod_two_eq_zero_or_one a with ha | ha
  · rwa [show 2 * (a / 2) = a by omega] at hlow
  · rwa [show 2 * (a / 2) + 1 = a by omega] at hhigh

theorem State.readPixel_of_stored {s : State} {i : Nat} {d : Pixel} (h : Memory.pixelBytes s.mem i = storedBytes d) :
    s.readPixel i = d := by
  obtain ⟨hlow, hhigh⟩ := Prod.mk.inj h
  simp [State.readPixel, State.readByte, hlow, hhigh, pixel_of_bytes]

theorem State.readByte_of_pixelBytes {s t : State} {a : Nat}
    (h : Memory.pixelBytes t.mem (a / 2) = Memory.pixelBytes s.mem (a / 2)) (hd : t.fbDraw = s.fbDraw) :
    t.readByte a = s.readByte a := by
  rw [State.readByte, State.readByte, Memory.read_congr h, hd]

theorem State.readPixel_of_pixelBytes {s t : State} {i : Nat}
    (h : Memory.pixelBytes t.mem i = Memory.pixelBytes s.mem i) (hd : t.fbDraw = s.fbDraw) :
    t.readPixel i = s.readPixel i := by
  have hhigh : (2 * i + 1) / 2 = i := by omega
  have hlow : 2 * i / 2 = i := by omega
  rw [State.readPixel, State.readPixel, State.readByte_of_pixelBytes (by rw [hhigh, h]) hd,
    State.readByte_of_pixelBytes (by rw [hlow, h]) hd]

/-- A pixel that was stored under a condition reads as its bytes do. -/
theorem State.readPixel_ite {s t : State} {i : Nat} {d : Pixel} {P : Prop} [Decidable P]
    (h : Memory.pixelBytes t.mem i = if P then storedBytes d else Memory.pixelBytes s.mem i)
    (hd : t.fbDraw = s.fbDraw) : t.readPixel i = if P then d else s.readPixel i := by
  split
  next hP => exact State.readPixel_of_stored (by rw [h, if_pos hP])
  next hP => exact State.readPixel_of_pixelBytes (by rw [h, if_neg hP]) hd

/-! ### A list of in-range pixels -/

/-- R126: the bytes after the pixels `pxs`, one after another. -/
def writePixels (p : Params) (pxs : List PixelWrite) (m : Memory) : Memory :=
  pxs.foldl (fun m q => Memory.writePixel m (q.index p) (pack q.2.2)) m

theorem writePixels_concat (p : Params) (pxs : List PixelWrite) (q : PixelWrite) (m : Memory) :
    writePixels p (pxs ++ [q]) m = Memory.writePixel (writePixels p pxs m) (q.index p) (pack q.2.2) := by
  simp [writePixels]

/-- The last of the pixels that is written at the number `i`. -/
def lastAt (p : Params) (pxs : List PixelWrite) (i : Nat) : Option PixelWrite :=
  pxs.reverse.find? fun q => q.index p == i

/-- R48: a pixel holds what was last written to it. -/
theorem pixelBytes_writePixels (p : Params) (pxs : List PixelWrite) (m : Memory) (i : Nat) :
    Memory.pixelBytes (writePixels p pxs m) i =
      (lastAt p pxs i).elim (Memory.pixelBytes m i) fun q => storedBytes (pack q.2.2) := by
  induction pxs using List.reverseRecOn with
  | nil => rfl
  | append_singleton pxs q ih =>
    rw [writePixels_concat, Memory.pixelBytes_writePixel, ih]
    by_cases hi : i = q.index p
    · simp [lastAt, hi]
    · simp [lastAt, hi, Ne.symm hi]

theorem lastAt_eq_none {p : Params} {pxs : List PixelWrite} {i : Nat} :
    lastAt p pxs i = none ↔ ∀ q ∈ pxs, q.index p ≠ i := by
  simp [lastAt]

theorem lastAt_eq_some {p : Params} {pxs : List PixelWrite} {i : Nat} {q : PixelWrite}
    (h : lastAt p pxs i = some q) : q ∈ pxs ∧ q.index p = i :=
  ⟨List.mem_reverse.1 (List.mem_of_find?_eq_some h), by simpa using List.find?_some h⟩

/-- A pixel that is written in one colour only holds that colour. -/
theorem pixelBytes_writePixels_of_mem {p : Params} {pxs : List PixelWrite} {q : PixelWrite} (hq : q ∈ pxs)
    (hsame : ∀ r ∈ pxs, r.index p = q.index p → r.2.2 = q.2.2) (m : Memory) :
    Memory.pixelBytes (writePixels p pxs m) (q.index p) = storedBytes (pack q.2.2) := by
  rw [pixelBytes_writePixels]
  cases hlast : lastAt p pxs (q.index p) with
  | none => exact absurd rfl (lastAt_eq_none.1 hlast q hq)
  | some r =>
    obtain ⟨hr, hri⟩ := lastAt_eq_some hlast
    rw [Option.elim_some, hsame r hr hri]

theorem pixelBytes_writePixels_of_forall_ne {p : Params} {pxs : List PixelWrite} {i : Nat}
    (h : ∀ q ∈ pxs, q.index p ≠ i) (m : Memory) :
    Memory.pixelBytes (writePixels p pxs m) i = Memory.pixelBytes m i := by
  rw [pixelBytes_writePixels, lastAt_eq_none.2 h, Option.elim_none]

/-- No pixel has a byte at the offset `a`. -/
abbrev AvoidsByte (p : Params) (pxs : List PixelWrite) (a : Nat) : Prop :=
  ∀ q ∈ pxs, a ≠ 2 * q.index p ∧ a ≠ 2 * q.index p + 1

theorem AvoidsByte.pixelBytes {p : Params} {pxs : List PixelWrite} {a : Nat} (h : AvoidsByte p pxs a) (m : Memory) :
    Memory.pixelBytes (writePixels p pxs m) (a / 2) = Memory.pixelBytes m (a / 2) := by
  refine pixelBytes_writePixels_of_forall_ne (fun q hq hi => ?_) m
  obtain ⟨hlow, hhigh⟩ := h q hq
  omega

/-- R126: in-range pixels replay to their bytes, without misuse. -/
theorem replay_inRange {p : Params} {pxs : List PixelWrite} (h : ∀ q ∈ pxs, inRange p q.1 q.2.1 = true) (b : Bool)
    (m : Memory) : (pxs.map (pixelOf p)).foldl (replayFb p) (b, m) = (b, writePixels p pxs m) := by
  induction pxs generalizing m with
  | nil => rfl
  | cons q pxs ih =>
    simp only [List.map_cons, List.foldl_cons, pixelOf, replayFb, h q (by simp), if_true]
    exact ih (fun r hr => h r (by simp [hr])) _

/-- R48: `t` is `s` after in-range pixels have been written, in order. -/
structure Stores (pxs : List PixelWrite) (s t : State) : Prop where
  misuse : t.misuse = s.misuse
  mem : t.mem = writePixels s.par pxs s.mem
  draw : t.fbDraw = s.fbDraw

theorem Trace.stores {pxs : List PixelWrite} {s t : State} (h : Trace s t (pxs.map (pixelOf s.par)))
    (hr : ∀ q ∈ pxs, inRange s.par q.1 q.2.1 = true) : Stores pxs s t := by
  obtain ⟨hmisuse, hmem⟩ := Prod.mk.inj (h.fb.trans (replay_inRange hr s.misuse s.mem))
  have hin : (pxs.map (pixelOf s.par)).countP (stray s.par) = 0 := by
    simpa [List.countP_eq_zero, pixelOf, stray] using hr
  exact ⟨hmisuse, hmem, by rw [h.draw, hin, Nat.add_zero]⟩

theorem Stores.readByte {pxs : List PixelWrite} {s t : State} (h : Stores pxs s t) {a : Nat}
    (ha : AvoidsByte s.par pxs a) : t.readByte a = s.readByte a :=
  State.readByte_of_pixelBytes (by rw [h.mem, ha.pixelBytes]) h.draw

theorem Stores.readPixel {pxs : List PixelWrite} {s t : State} (h : Stores pxs s t) (i : Nat) :
    t.readPixel i = (lastAt s.par pxs i).elim (s.readPixel i) fun q => pack q.2.2 := by
  have hbytes := pixelBytes_writePixels s.par pxs s.mem i
  rw [← h.mem] at hbytes
  cases hlast : lastAt s.par pxs i with
  | none => exact State.readPixel_of_pixelBytes (by rw [hbytes, hlast, Option.elim_none]) h.draw
  | some q => exact State.readPixel_of_stored (by simp only [hbytes, hlast, Option.elim_some])

/-- What a command enters in the history is what it does to the world. -/
theorem exec_trace {i : Instr} {s t : State} {ts : List Txn} (h : exec i s = .next t) (hh : t.hist = s.hist ++ ts) :
    Trace s t ts := by
  obtain ⟨us, hus⟩ := (exec_happens h).trace
  obtain rfl : us = ts := List.append_cancel_left (hus.hist.symm.trans hh)
  exact hus

/-! ### Coordinates and numbers -/

/-- R38: in the panel, the number of a pixel tells its coordinates. -/
theorem pixelIndex_inj {p : Params} {x y x' y' : Word} (h : inRange p x y = true) (h' : inRange p x' y' = true) :
    pixelIndex p x y = pixelIndex p x' y' ↔ x = x' ∧ y = y' := by
  refine ⟨fun hi => ?_, fun ⟨hx, hy⟩ => by rw [hx, hy]⟩
  have hlt := (toNat_lt_of_inRange h).1
  have hlt' := (toNat_lt_of_inRange h').1
  have hcol := congrArg (· % p.W) hi
  have hrow := congrArg (· / p.W) hi
  simp only [pixelIndex, Nat.mul_add_mod', Nat.mod_eq_of_lt hlt, Nat.mod_eq_of_lt hlt'] at hcol
  have hW : 0 < p.W := Nat.zero_lt_of_lt hlt
  simp only [pixelIndex, Nat.mul_comm _ p.W, Nat.mul_add_div hW, Nat.div_eq_of_lt hlt, Nat.div_eq_of_lt hlt',
    Nat.add_zero] at hrow
  exact ⟨BitVec.eq_of_toNat_eq hcol, BitVec.eq_of_toNat_eq hrow⟩

/-- Among pixels in range, the last at a number is the last at its coordinates. -/
theorem lastAt_pixelIndex {p : Params} {pxs : List PixelWrite} (hr : ∀ q ∈ pxs, inRange p q.1 q.2.1 = true)
    {x y : Word} (hxy : inRange p x y = true) :
    lastAt p pxs (pixelIndex p x y) = pxs.reverse.find? fun q => q.1 == x && q.2.1 == y := by
  refine List.find?_congr fun q hq => ?_
  have hinj := pixelIndex_inj (hr q (List.mem_reverse.1 hq)) hxy
  rw [Bool.eq_iff_iff]
  simpa [PixelWrite.index] using hinj

end Sys2Proof.Machine

/-! ### Proofs: DRAWPX -/

namespace Sys2Proof.Machine

/-- R100: the stream is drawn, and the command answers. -/
theorem drawpxBody_good {s : State} (hf : s.fault = false) (hs : s.ctl.session = true) (pxs : List PixelWrite) :
    drawpxBody (pxs.map elemOf) s = .next (complete .drawpx [] (drawn pxs (loadCount (countWord pxs.length) s))) := by
  have hgood := drawElems_good (s := loadCount (countWord pxs.length) s) hs pxs []
  rw [List.append_nil] at hgood
  have huf : (drawn pxs (loadCount (countWord pxs.length) s)).fault = false := (drawn_onlyDraws pxs _).fault.trans hf
  simp [drawpxBody, hgood, drawElems, endStream, huf]

/-- R100: DRAWPX emits a pixel per element and answers. -/
theorem exec_drawpx {s : State} (hi : Idle s) (hs : Session s) (pxs : List PixelWrite) :
    ∃ t, exec (.drawpx (pxs.map elemOf)) s = .next t ∧ Answers (response .drawpx []) s t ∧
      Performs (pxs.map (pixelOf s.par)) s t ∧ t.empty = s.empty ∧ t.phase = s.phase := by
  have hrun := exec_run (.drawpx (pxs.map elemOf)) hi (by simp [Instr.opcode, phaseOk, hs.1])
  have hd := drawn_onlyDraws pxs (loadCount (countWord pxs.length) (takeHeader Opcode.drawpx.code s))
  have hbody := drawpxBody_good (s := takeHeader Opcode.drawpx.code s) hi.1 hs.2 pxs
  refine ⟨_, hrun.trans hbody, ?_, drawn_performs pxs _, hd.empty, hd.phase⟩
  simp [Answers, hd.rspq, hd.resps, hd.fault, hd.faultCode, hd.cmdq, hd.par, hi.1]

/-- R72: a response without payload is its header. -/
theorem response_drawpx : response .drawpx [] = [0x10000000] := by decide

/-- Settles O28: the stream is drawn element by element, and its pixels are the transactions. -/
theorem drawpxCompletes : Obligations.DrawpxCompletes := by
  intro s pxs hi hs _
  obtain ⟨t, ht, hanswers, ⟨hhist, hctl, hfb⟩, hempty, hphase⟩ := exec_drawpx hi hs pxs
  rw [response_drawpx] at hanswers
  exact ⟨t, ht, hanswers, hhist, hfb, hempty, hphase, hctl⟩

/-- Settles O29: the pixels are in range, so they are stored in order and the last at a coordinate stays. -/
theorem drawpxWritesItsPixels : Obligations.DrawpxWritesItsPixels := by
  intro s pxs hi hs hmisuse _ hr
  obtain ⟨t, ht, _, ⟨hhist, _, _⟩, _, _⟩ := exec_drawpx hi hs pxs
  have hstores := (exec_trace ht hhist).stores hr
  refine ⟨t, ht, hstores.misuse.trans hmisuse, fun x y hxy => ?_, fun a ha => hstores.readByte ha⟩
  rw [hstores.readPixel, lastAt_pixelIndex hr hxy]
  cases pxs.reverse.find? fun q => q.1 == x && q.2.1 == y <;> rfl

/-- R138: pixels, then one out of range, then pixels in range: misuse, and only what the last ones store is known. -/
theorem replay_outOfRange {p : Params} {post : List PixelWrite} {bad : PixelWrite} (pre : List PixelWrite)
    (hbad : inRange p bad.1 bad.2.1 = false) (hpost : ∀ q ∈ post, inRange p q.1 q.2.1 = true) (fb : Bool × Memory) :
    ((pre ++ bad :: post).map (pixelOf p)).foldl (replayFb p) fb = (true, writePixels p post []) := by
  have hstray (fb : Bool × Memory) : replayFb p fb (pixelOf p bad) = (true, []) := by simp [replayFb, pixelOf, hbad]
  rw [List.map_append, List.map_cons, List.foldl_append, List.foldl_cons, hstray, replay_inRange hpost]

/-- Settles O30: the bad element leaves no byte known, and the elements after it are stored. -/
theorem drawpxMisuseIsRecorded : Obligations.DrawpxMisuseIsRecorded := by
  intro s pre post bad hi hs _ hbad hpost
  obtain ⟨t, ht, hanswers, ⟨hhist, _, hfb⟩, _, _⟩ := exec_drawpx hi hs (pre ++ bad :: post)
  obtain ⟨hrspq, _, _, _, _, hfault, _⟩ := hanswers
  rw [response_drawpx] at hrspq
  obtain ⟨hmisuse, hmem⟩ := Prod.mk.inj (hfb.trans (replay_outOfRange pre hbad hpost _))
  refine ⟨t, ht, hfault, hrspq, hhist, hmisuse, fun x y hxy q hq => ?_, fun a ha => ?_⟩
  · rw [← lastAt_pixelIndex hpost hxy] at hq
    exact State.readPixel_of_stored (by rw [hmem, pixelBytes_writePixels, hq, Option.elim_some])
  · have hnone := Memory.read_congr (AvoidsByte.pixelBytes (p := s.par) ha [])
    rwa [← hmem] at hnone

end Sys2Proof.Machine

/-! ### Proofs: the pixels of a fill -/

namespace Sys2Proof.Machine

/-! ### Points of the panel as coordinate words -/

/-- R9, R38: a point of the panel and its coordinate words. -/
theorem toInt_ofInt_of_panel {p : Params} (hp : p.Legal) {pt : Int × Int} (h : Covers (panel p) pt) :
    (BitVec.ofInt 32 pt.1).toInt = pt.1 ∧ (BitVec.ofInt 32 pt.2).toInt = pt.2 := by
  obtain ⟨_, hW, hH, _⟩ := hp
  obtain ⟨hx, hx', hy, hy'⟩ := h
  simp only [panel, zero_add] at hx hx' hy hy'
  rw [BitVec.toInt_ofInt, BitVec.toInt_ofInt]
  exact ⟨Int.bmod_eq_of_le (by omega) (by omega), Int.bmod_eq_of_le (by omega) (by omega)⟩

/-- R38, R89: the coordinate words in range are those of the points of the panel. -/
theorem inRange_iff_covers {p : Params} {x y : Word} :
    inRange p x y = true ↔ Covers (panel p) (x.toInt, y.toInt) := by
  simp only [inRange_iff, Covers, panel, zero_add]

/-- R93, R94 (d): a point of the rectangle has a number below `w*h`, and is the point with that number. -/
theorem point_pointNumber {r : Rect} {pt : Int × Int} (h : Covers r pt) :
    pointNumber r pt < r.w * r.h ∧ point r (pointNumber r pt) = pt := by
  obtain ⟨x, y⟩ := pt
  obtain ⟨hx, hx', hy, hy'⟩ := h
  obtain ⟨i, rfl⟩ := Int.le.dest hx
  obtain ⟨j, rfl⟩ := Int.le.dest hy
  have hi : i < r.w := by simpa using hx'
  have hj : j < r.h := by simpa using hy'
  have hnum : pointNumber r (r.x0 + (i : Int), r.y0 + (j : Int)) = r.w * j + i := by
    simp only [pointNumber, add_sub_cancel_left]
    rw [Nat.mul_comm]
    exact Int.toNat_natCast (j * r.w + i)
  rw [hnum, Nat.mul_comm r.w j]
  exact ⟨number_lt hi hj, by rw [Nat.mul_comm]; exact point_mul_add r hi j⟩

/-- R94 (d): the point numbered `k` has the number `k`. -/
theorem pointNumber_point (r : Rect) (k : Nat) : pointNumber r (point r k) = k := by
  rw [pointNumber, number_point, Int.toNat_natCast]

/-- R91 (a), R92: a box with a point in it is not empty. -/
theorem boxEmpty_of_contains {b : Box} {pt : Int × Int} (h : contains b pt = true) : boxEmpty b = false := by
  rw [← Bool.not_eq_true, boxEmpty_iff_forall_contains]
  intro hnone
  simp [hnone pt.1 pt.2] at h

/-! ### What FILLA writes -/

/-- R102: the numbers of the points FILLA draws with `n` colours, in order. -/
def fillaNumbers (p : Params) (r : Rect) (n : Nat) : List Nat :=
  (List.range (min n (r.w * r.h))).filter fun k => !boxEmpty (isect p r) && contains (isect p r) (point r k)

/-- R102: the pixels FILLA writes. -/
def fillaPixels (p : Params) (r : Rect) (cs : List Color) : List PixelWrite :=
  (fillaNumbers p r cs.length).map fun k =>
    (BitVec.ofInt 32 (point r k).1, BitVec.ofInt 32 (point r k).2, cs.getD k default)

theorem map_pixelOf_fillaPixels (p : Params) (r : Rect) (cs : List Color) :
    (fillaPixels p r cs).map (pixelOf p) = fillaTxns p r cs := by
  rw [fillaPixels, List.map_map]
  rfl

theorem mem_fillaNumbers {p : Params} {r : Rect} {n k : Nat} :
    k ∈ fillaNumbers p r n ↔ k < n ∧ k < r.w * r.h ∧ contains (isect p r) (point r k) = true := by
  simp only [fillaNumbers, List.mem_filter, List.mem_range, lt_min_iff, Bool.and_eq_true, Bool.not_eq_true', and_assoc]
  exact and_congr_right fun _ => and_congr_right fun _ => and_iff_right_of_imp boxEmpty_of_contains

/-- R102, R105 (a): FILLA writes the pixels of the panel that the rectangle covers and that have a colour, each in the
colour of its number. -/
theorem mem_fillaPixels {p : Params} (hp : p.Legal) {r : Rect} {cs : List Color} {q : PixelWrite} :
    q ∈ fillaPixels p r cs ↔
      inRange p q.1 q.2.1 = true ∧ Covers r (q.1.toInt, q.2.1.toInt) ∧
        pointNumber r (q.1.toInt, q.2.1.toInt) < cs.length ∧
        q.2.2 = cs.getD (pointNumber r (q.1.toInt, q.2.1.toInt)) default := by
  obtain ⟨x, y, c⟩ := q
  simp only [fillaPixels, List.mem_map, mem_fillaNumbers, inRange_iff_covers]
  constructor
  · rintro ⟨k, ⟨hk, _, hin⟩, hq⟩
    obtain ⟨hr, hpanel⟩ := (contains_isect_iff p r _).1 hin
    obtain ⟨hx, hy⟩ := toInt_ofInt_of_panel hp hpanel
    cases hq
    rw [hx, hy, Prod.mk.eta, pointNumber_point]
    exact ⟨hpanel, hr, hk, rfl⟩
  · rintro ⟨hpanel, hr, hk, hc⟩
    obtain ⟨hlt, hpoint⟩ := point_pointNumber hr
    refine ⟨pointNumber r (x.toInt, y.toInt), ⟨hk, hlt, ?_⟩, ?_⟩
    · rw [hpoint, contains_isect_iff]
      exact ⟨hr, hpanel⟩
    · rw [hpoint, BitVec.ofInt_toInt, BitVec.ofInt_toInt, ← hc]

theorem fillaPixels_inRange {p : Params} (hp : p.Legal) {r : Rect} {cs : List Color} :
    ∀ q ∈ fillaPixels p r cs, inRange p q.1 q.2.1 = true :=
  fun _ hq => ((mem_fillaPixels hp).1 hq).1

/-- R102: the bytes of a pixel of the panel after FILLA. -/
theorem pixelBytes_writePixels_filla {p : Params} (hp : p.Legal) (r : Rect) (cs : List Color) (m : Memory) {x y : Word}
    (hxy : inRange p x y = true) :
    Memory.pixelBytes (writePixels p (fillaPixels p r cs) m) (pixelIndex p x y) =
      if Covers r (x.toInt, y.toInt) ∧ pointNumber r (x.toInt, y.toInt) < cs.length then
        storedBytes (pack (cs.getD (pointNumber r (x.toInt, y.toInt)) default))
      else Memory.pixelBytes m (pixelIndex p x y) := by
  have hcoord {q : PixelWrite} (hq : q ∈ fillaPixels p r cs) (hi : q.index p = pixelIndex p x y) :
      q.1 = x ∧ q.2.1 = y := (pixelIndex_inj (fillaPixels_inRange hp q hq) hxy).1 hi
  split
  next h =>
    have hmem : (x, y, cs.getD (pointNumber r (x.toInt, y.toInt)) default) ∈ fillaPixels p r cs :=
      (mem_fillaPixels hp).2 ⟨hxy, h.1, h.2, rfl⟩
    refine pixelBytes_writePixels_of_mem hmem (fun q hq hi => ?_) m
    obtain ⟨rfl, rfl⟩ := hcoord hq hi
    obtain ⟨_, _, _, hc⟩ := (mem_fillaPixels hp).1 hq
    exact hc
  next h =>
    refine pixelBytes_writePixels_of_forall_ne (fun q hq hi => h ?_) m
    obtain ⟨rfl, rfl⟩ := hcoord hq hi
    obtain ⟨_, hr, hk, _⟩ := (mem_fillaPixels hp).1 hq
    exact ⟨hr, hk⟩

/-- R102: a pixel of the panel after FILLA. -/
theorem Stores.readPixel_filla {s t : State} {r : Rect} {cs : List Color} (h : Stores (fillaPixels s.par r cs) s t)
    (hp : s.par.Legal) {x y : Word} (hxy : inRange s.par x y = true) :
    t.readPixel (pixelIndex s.par x y) =
      if Covers r (x.toInt, y.toInt) ∧ pointNumber r (x.toInt, y.toInt) < cs.length then
        pack (cs.getD (pointNumber r (x.toInt, y.toInt)) default)
      else s.readPixel (pixelIndex s.par x y) := by
  have hbytes := pixelBytes_writePixels_filla hp r cs s.mem hxy
  rw [← h.mem] at hbytes
  exact State.readPixel_ite hbytes h.draw

theorem Filled.hist {o : Opcode} {r : Rect} {ts : List Txn} {s t : State} (h : Filled o r ts s t) :
    t.hist = s.hist ++ ts := h.performs.1

theorem Filled.ctl {o : Opcode} {r : Rect} {ts : List Txn} {s t : State} (h : Filled o r ts s t) :
    t.ctl = s.ctl := h.performs.2.1

/-- What a fill emits is stored. -/
theorem Filled.stores {i : Instr} {o : Opcode} {r q : Rect} {cs : List Color} {s t : State}
    (h : Filled o r (fillaTxns s.par q cs) s t) (ht : exec i s = .next t) (hp : s.par.Legal) :
    Stores (fillaPixels s.par q cs) s t := by
  have htrace := exec_trace ht h.hist
  rw [← map_pixelOf_fillaPixels] at htrace
  exact htrace.stores (fillaPixels_inRange hp)

/-! ### FILLA -/

theorem response_filla : response .filla [] = [0x11000000] := by decide

/-- Settles O31: FILLA goes through its colours along the points of its rectangle. -/
theorem fillaCompletes : Obligations.FillaCompletes := by
  intro s x0 y0 w h cs hi hs hlen
  obtain ⟨t, ht, hanswers, ⟨hhist, hctl, hfb⟩, hempty, hphase⟩ := exec_filla hi hs x0 y0 w h cs hlen
  rw [response_filla] at hanswers
  exact ⟨t, ht, hanswers, hhist, hfb, hempty, hphase, hctl⟩

/-- R105 (b): inside the panel every point with a colour is drawn. -/
theorem fillaNumbers_of_inside {p : Params} {r : Rect} {n : Nat} (hx : 0 ≤ r.x0) (hx' : r.x0 + r.w ≤ p.W)
    (hy : 0 ≤ r.y0) (hy' : r.y0 + r.h ≤ p.H) (hn : r.w * r.h ≤ n) :
    fillaNumbers p r n = List.range (r.w * r.h) := by
  rw [fillaNumbers, Nat.min_eq_right hn, List.filter_eq_self]
  intro k hk
  have hcovers := point_covers (List.mem_range.1 hk)
  have hin : contains (isect p r) (point r k) = true := by
    rw [contains_isect_iff, and_iff_right hcovers]
    obtain ⟨h1, h2, h3, h4⟩ := hcovers
    simp only [Covers, panel, zero_add]
    omega
  rw [boxEmpty_of_contains hin, hin]
  rfl

/-- R105 (c): the transactions of a fill are at different coordinates. -/
theorem fillaTxns_pairwise {p : Params} (hp : p.Legal) (r : Rect) (cs : List Color) :
    (fillaTxns p r cs).Pairwise
      (fun u v => ∀ x y d e, u = .writePixel p.layerId x y d → v ≠ .writePixel p.layerId x y e) := by
  have hnodup : (fillaNumbers p r cs.length).Nodup := List.nodup_range.filter _
  refine List.pairwise_map.2 (hnodup.imp_of_mem fun {k l} hk hl hne x y d e hu hv => hne ?_)
  have hpanel {j : Nat} (hj : j ∈ fillaNumbers p r cs.length) : Covers (panel p) (point r j) :=
    ((contains_isect_iff p r _).1 (mem_fillaNumbers.1 hj).2.2).2
  obtain ⟨hkx, hky⟩ := toInt_ofInt_of_panel hp (hpanel hk)
  obtain ⟨hlx, hly⟩ := toInt_ofInt_of_panel hp (hpanel hl)
  simp only [pixelAt, Txn.writePixel.injEq] at hu hv
  obtain ⟨_, rfl, rfl, _⟩ := hu
  obtain ⟨_, hx, hy, _⟩ := hv
  have hpoint : point r k = point r l := Prod.ext (by rw [← hkx, ← hlx, hx]) (by rw [← hky, ← hly, hy])
  rw [← pointNumber_point r k, hpoint, pointNumber_point]

/-- Settles O32: the transactions are those of `mem_fillaPixels`. -/
theorem fillaDrawsInsideOnce : Obligations.FillaDrawsInsideOnce := by
  intro s x0 y0 w h cs hi hs hp hlen r
  obtain ⟨t, ht, hfilled⟩ := exec_filla hi hs x0 y0 w h cs hlen
  refine ⟨t, fillaTxns s.par r cs, ht, hfilled.hist, fun u hu => ?inside, fun he => ?empty,
    fun hx hx' hy hy' hn => ?whole, fillaTxns_pairwise hp r cs⟩
  case inside =>
    rw [← map_pixelOf_fillaPixels] at hu
    obtain ⟨q, hq, rfl⟩ := List.mem_map.1 hu
    obtain ⟨hin, hr, _, _⟩ := (mem_fillaPixels hp).1 hq
    exact ⟨q.1, q.2.1, pack q.2.2, rfl, hr, inRange_iff_covers.1 hin⟩
  case empty => simp [fillaTxns, he]
  case whole =>
    rw [← map_pixelOf_fillaPixels, fillaPixels, fillaNumbers_of_inside hx hx' hy hy' hn, List.map_map]
    rfl

/-- R103: with more colours a fill goes on, with points numbered from the first of them on. -/
theorem fillaTxns_append (p : Params) (r : Rect) (cs ds : List Color) :
    ∃ more, fillaTxns p r (cs ++ ds) = fillaTxns p r cs ++ more ∧
      ∀ v ∈ more, ∃ k c, v = pixelAt p c (point r k) ∧ cs.length ≤ k ∧ k < r.w * r.h ∧
        contains (isect p r) (point r k) = true := by
  induction ds using List.reverseRecOn with
  | nil => exact ⟨[], by simp, by simp⟩
  | append_singleton ds d ih =>
    obtain ⟨more, hmore, hv⟩ := ih
    rw [← List.append_assoc, fillaTxns_concat, hmore, List.append_assoc]
    refine ⟨_, rfl, fun v hmem => (List.mem_append.1 hmem).elim (hv v) fun hlast => ?_⟩
    split at hlast
    next hd =>
      obtain ⟨_, hlt, hin⟩ := hd
      exact ⟨_, d, List.mem_singleton.1 hlast, by simp, hlt, hin⟩
    next => simp at hlast

/-- Settles O33: the longer stream emits what the shorter one does, and then `fillaTxns_append`'s further points. -/
theorem fillaStopsAtShorterSequence : Obligations.FillaStopsAtShorterSequence := by
  intro s x0 y0 w h cs ds hi hs hlen hp r
  obtain ⟨t, ht, htf⟩ := exec_filla hi hs x0 y0 w h cs (by omega)
  obtain ⟨u, hu, huf⟩ := exec_filla hi hs x0 y0 w h (cs ++ ds) (by simpa using hlen)
  obtain ⟨more, hmore, hpoints⟩ := fillaTxns_append s.par r cs ds
  obtain ⟨hrspq, _, _, _, _, hfault, _⟩ := htf.answers
  rw [response_filla] at hrspq
  have hthist : t.hist = s.hist ++ fillaTxns s.par r cs := htf.hist
  have huhist : u.hist = s.hist ++ fillaTxns s.par r (cs ++ ds) := huf.hist
  refine ⟨t, u, fillaTxns s.par r cs, more, ht, hu, hfault, hrspq, hthist, ?further, fun v hv => ?drawn,
    fun k hk hin => ?all, fun v hv x y d hvd => ?later, fun hn => ?none⟩
  case further => rw [huhist, hthist, hmore, List.append_assoc]
  case drawn =>
    rw [← map_pixelOf_fillaPixels] at hv
    obtain ⟨q, hq, rfl⟩ := List.mem_map.1 hv
    obtain ⟨hin, hr, hk, hc⟩ := (mem_fillaPixels hp).1 hq
    exact ⟨q.1, q.2.1, hr, inRange_iff_covers.1 hin, hk, by rw [pixelOf, hc]⟩
  case all =>
    obtain ⟨hk, hkr⟩ := lt_min_iff.1 hk
    exact List.mem_map.2 ⟨k, mem_fillaNumbers.2 ⟨hk, hkr, hin⟩, rfl⟩
  case later =>
    obtain ⟨k, c, rfl, hk, _, hin⟩ := hpoints v hv
    obtain ⟨hx, hy⟩ := toInt_ofInt_of_panel hp ((contains_isect_iff s.par r _).1 hin).2
    simp only [pixelAt, Txn.writePixel.injEq] at hvd
    obtain ⟨_, rfl, rfl, _⟩ := hvd
    rwa [hx, hy, Prod.mk.eta, pointNumber_point]
  case none =>
    refine List.eq_nil_iff_forall_not_mem.2 fun v hv => ?_
    obtain ⟨k, _, _, hk, hkr, _⟩ := hpoints v hv
    omega

/-- R102: a byte that is of no drawn point is of no pixel FILLA writes. -/
theorem fillaPixels_avoidsByte {p : Params} {r : Rect} {cs : List Color} {a : Nat}
    (h : ∀ k, k < min cs.length (r.w * r.h) → contains (isect p r) (point r k) = true →
      a ≠ 2 * pixelIndex p (BitVec.ofInt 32 (point r k).1) (BitVec.ofInt 32 (point r k).2) ∧
      a ≠ 2 * pixelIndex p (BitVec.ofInt 32 (point r k).1) (BitVec.ofInt 32 (point r k).2) + 1) :
    AvoidsByte p (fillaPixels p r cs) a := by
  intro q hq
  obtain ⟨k, hk, rfl⟩ := List.mem_map.1 hq
  obtain ⟨hlt, hkr, hin⟩ := mem_fillaNumbers.1 hk
  exact h k (lt_min hlt hkr) hin

/-- Settles O34: the pixels are in range, one for each point that has a colour. -/
theorem fillaWritesItsPixels : Obligations.FillaWritesItsPixels := by
  intro s x0 y0 w h cs hi hs hmisuse hp hlen r
  obtain ⟨t, ht, hfilled⟩ := exec_filla hi hs x0 y0 w h cs hlen
  have hstores := hfilled.stores ht hp
  exact ⟨t, ht, hstores.misuse.trans hmisuse, fun _ _ hxy => hstores.readPixel_filla hp hxy,
    fun _ ha => hstores.readByte (fillaPixels_avoidsByte ha)⟩

end Sys2Proof.Machine

/-! ### Proofs: FILLS and CLEAR -/

namespace Sys2Proof.Machine

/-- R106: the pixels a solid fill writes, as FILLA does with its colour for every point. -/
def fillsPixels (p : Params) (r : Rect) (c : Color) : List PixelWrite :=
  fillaPixels p r (List.replicate (r.w * r.h) c)

theorem map_pixelOf_fillsPixels (p : Params) (r : Rect) (c : Color) :
    (fillsPixels p r c).map (pixelOf p) = fillsTxns p r c := by
  rw [fillsPixels, map_pixelOf_fillaPixels, fillaTxns_replicate p r c le_rfl]

theorem getD_replicate_pointNumber {r : Rect} {pt : Int × Int} (h : Covers r pt) (c : Color) :
    (List.replicate (r.w * r.h) c).getD (pointNumber r pt) default = c := by
  simp [(point_pointNumber h).1]

/-- R106: FILLS writes the pixels of the panel that the rectangle covers, all in its colour. -/
theorem mem_fillsPixels {p : Params} (hp : p.Legal) {r : Rect} {c : Color} {q : PixelWrite} :
    q ∈ fillsPixels p r c ↔ inRange p q.1 q.2.1 = true ∧ Covers r (q.1.toInt, q.2.1.toInt) ∧ q.2.2 = c := by
  rw [fillsPixels, mem_fillaPixels hp, List.length_replicate]
  refine and_congr_right fun _ => and_congr_right fun hr => ?_
  rw [getD_replicate_pointNumber hr, and_iff_right (point_pointNumber hr).1]

/-- R106: the bytes of a pixel of the panel after FILLS. -/
theorem pixelBytes_writePixels_fills {p : Params} (hp : p.Legal) (r : Rect) (c : Color) (m : Memory) {x y : Word}
    (hxy : inRange p x y = true) :
    Memory.pixelBytes (writePixels p (fillsPixels p r c) m) (pixelIndex p x y) =
      if Covers r (x.toInt, y.toInt) then storedBytes (pack c) else Memory.pixelBytes m (pixelIndex p x y) := by
  rw [fillsPixels, pixelBytes_writePixels_filla hp r _ m hxy, List.length_replicate]
  by_cases hr : Covers r (x.toInt, y.toInt)
  · rw [if_pos hr, if_pos ⟨hr, (point_pointNumber hr).1⟩, getD_replicate_pointNumber hr]
  · rw [if_neg hr, if_neg fun h => hr h.1]

/-- What a solid fill emits is stored. -/
theorem Filled.stores_fills {i : Instr} {o : Opcode} {r q : Rect} {c : Color} {s t : State}
    (h : Filled o r (fillsTxns s.par q c) s t) (ht : exec i s = .next t) (hp : s.par.Legal) :
    Stores (fillsPixels s.par q c) s t := by
  rw [← fillaTxns_replicate s.par q c le_rfl] at h
  exact h.stores ht hp

/-! ### FILLS -/

theorem response_fills : response .fills [] = [0x12000000] := by decide

/-- Settles O35: the intersection's points are those of the original rectangle's single pass that lie in it. -/
theorem fillsCompletes : Obligations.FillsCompletes := by
  intro s x0 y0 w h c hi hs r pts ts
  have hts : ts = fillsTxns s.par r c := by
    simp only [ts, pts, filter_points_eq_boxPoints]
    rfl
  obtain ⟨t, ht, hanswers, ⟨hhist, hctl, hfb⟩, hempty, hphase⟩ := exec_fills hi hs x0 y0 w h c
  rw [response_fills] at hanswers
  rw [hts]
  exact ⟨t, ht, hanswers, hhist, hfb, hempty, hphase, hctl⟩

/-- R106: a byte that is of no point of the intersection is of no pixel FILLS writes. -/
theorem fillsPixels_avoidsByte {p : Params} {r : Rect} {c : Color} {a : Nat}
    (h : ∀ pt, contains (isect p r) pt = true →
      a ≠ 2 * pixelIndex p (BitVec.ofInt 32 pt.1) (BitVec.ofInt 32 pt.2) ∧
      a ≠ 2 * pixelIndex p (BitVec.ofInt 32 pt.1) (BitVec.ofInt 32 pt.2) + 1) :
    AvoidsByte p (fillsPixels p r c) a :=
  fillaPixels_avoidsByte fun k _ hin => h (point r k) hin

/-- Settles O36: the pixels are in range, one for each point of the intersection, all in one colour. -/
theorem fillsWritesItsPixels : Obligations.FillsWritesItsPixels := by
  intro s x0 y0 w h c hi hs hmisuse hp r
  obtain ⟨t, ht, hfilled⟩ := exec_fills hi hs x0 y0 w h c
  have hstores := hfilled.stores_fills ht hp
  refine ⟨t, ht, hstores.misuse.trans hmisuse, fun x y hxy => ?_,
    fun _ ha => hstores.readByte (fillsPixels_avoidsByte ha)⟩
  have hbytes := pixelBytes_writePixels_fills hp r c s.mem hxy
  rw [← hstores.mem] at hbytes
  exact State.readPixel_ite hbytes hstores.draw

/-! ### CLEAR -/

theorem response_clear : response .clear [] = [0x13000000] := by decide

/-- R9, R91 (e): the bounding box is not empty. -/
theorem boxEmpty_isect_panel {p : Params} (hp : p.Legal) : boxEmpty (isect p (panel p)) = false := by
  obtain ⟨⟨hW, hH, _⟩, _⟩ := hp
  obtain ⟨_, _, _, _, ⟨_, hne⟩, _⟩ := isectProperties p (panel p) hW hH
  exact hne

/-- R108: the transactions of CLEAR. -/
theorem fillsTxns_panel (p : Params) (c : Color) :
    fillsTxns p (panel p) c = (List.range (p.W * p.H)).map fun k =>
      Txn.writePixel p.layerId (BitVec.ofNat 32 (k % p.W)) (BitVec.ofNat 32 (k / p.W)) (pack c) := by
  have hnum : fillaNumbers p (panel p) (p.W * p.H) = List.range (p.W * p.H) :=
    fillaNumbers_of_inside le_rfl (by simp [panel]) le_rfl (by simp [panel]) le_rfl
  rw [← map_pixelOf_fillsPixels, fillsPixels, fillaPixels, List.length_replicate, List.map_map]
  refine (congrArg _ hnum).trans (List.map_congr_left fun k hk => ?_)
  have hcolor : (List.replicate (p.W * p.H) c).getD k default = c := by simp [List.mem_range.1 hk]
  simp only [Function.comp_apply, pixelOf, point, panel, zero_add, BitVec.ofInt_natCast, hcolor]

/-- R89, R108: the rectangle CLEAR latches is the bounding box. -/
theorem exec_clear_panel {s : State} (hi : Idle s) (hs : Session s) (c : Color) :
    ∃ t, exec (.clear (colorWord c)) s = .next t ∧
      Filled .clear (panel s.par) (fillsTxns s.par (panel s.par) c) s t := exec_clear hi hs c

/-- Settles O38: the points of the bounding box are numbered row by row. -/
theorem clearCompletes : Obligations.ClearCompletes := by
  intro s c hi hs hp ts
  obtain ⟨t, ht, hanswers, ⟨hhist, hctl, hfb⟩, hempty, hphase⟩ := exec_clear_panel hi hs c
  rw [response_clear] at hanswers
  rw [fillsTxns_panel] at hhist hfb
  exact ⟨t, ht, hanswers, hhist, hfb, hempty.trans (boxEmpty_isect_panel hp), hphase, hctl⟩

theorem toNat_eq_of_toInt_eq {x : Word} {n : Nat} (h : x.toInt = n) : x.toNat = n := by
  rw [BitVec.toInt_eq_toNat_of_lt (BitVec.toInt_pos_iff.1 (by omega))] at h
  exact_mod_cast h

/-- R37, R38: every number below `W*H` is that of a pixel in range. -/
theorem exists_pixelIndex {p : Params} (hp : p.Legal) {i : Nat} (hi : i < p.W * p.H) :
    ∃ x y, inRange p x y = true ∧ pixelIndex p x y = i := by
  obtain ⟨hx, hy⟩ := toInt_ofInt_of_panel hp (point_covers (r := panel p) hi)
  refine ⟨BitVec.ofInt 32 (point (panel p) i).1, BitVec.ofInt 32 (point (panel p) i).2, ?_, ?_⟩
  · rw [inRange_iff_covers, hx, hy]
    exact point_covers (r := panel p) hi
  · rw [pixelIndex, toNat_eq_of_toInt_eq (hx.trans (zero_add _)), toNat_eq_of_toInt_eq (hy.trans (zero_add _))]
    exact Nat.div_add_mod' i p.W

/-- R108: CLEAR leaves every pixel of the panel known. -/
theorem Stores.pixelBytes_clear {s t : State} {c : Color} (h : Stores (fillsPixels s.par (panel s.par) c) s t)
    (hp : s.par.Legal) {i : Nat} (hi : i < s.par.W * s.par.H) : Memory.pixelBytes t.mem i = storedBytes (pack c) := by
  obtain ⟨x, y, hxy, rfl⟩ := exists_pixelIndex hp hi
  rw [h.mem, pixelBytes_writePixels_fills hp (panel s.par) c s.mem hxy, if_pos (inRange_iff_covers.1 hxy)]

/-- No fill reaches a byte beyond the panel's. -/
theorem Stores.readByte_beyond {s t : State} {r : Rect} {c : Color} (h : Stores (fillsPixels s.par r c) s t)
    (hp : s.par.Legal) {a : Nat} (ha : 2 * (s.par.W * s.par.H) ≤ a) : t.readByte a = s.readByte a := by
  refine h.readByte fun q hq => ?_
  have hlt : q.index s.par < s.par.W * s.par.H := pixelIndex_lt_pixelCount ((mem_fillsPixels hp).1 hq).1
  omega

/-- A command that has filled leaves CPCU ready for the next drawing command. -/
theorem Filled.ready {o : Opcode} {r : Rect} {ts : List Txn} {s t : State} (h : Filled o r ts s t) (hs : Session s) :
    Idle t ∧ Session t := by
  obtain ⟨_, _, hbusy, _, _, hfault, _⟩ := h.answers
  exact ⟨⟨hfault, hbusy⟩, h.phase.trans hs.1, by rw [h.ctl, hs.2]⟩

/-- R105 (c): no transaction of a solid fill comes twice. -/
theorem fillsTxns_nodup {p : Params} (hp : p.Legal) (r : Rect) (c : Color) : (fillsTxns p r c).Nodup := by
  have hpair := fillaTxns_pairwise hp r (List.replicate (r.w * r.h) c)
  rw [fillaTxns_replicate p r c le_rfl, ← map_pixelOf_fillsPixels] at hpair
  rw [← map_pixelOf_fillsPixels]
  refine hpair.imp_of_mem fun hu _ huv => ?_
  obtain ⟨q, _, rfl⟩ := List.mem_map.1 hu
  exact (huv q.1 q.2.1 _ _ rfl).symm

/-- Settles O39: after CLEAR the bytes of every pixel are known, and a second CLEAR leaves the same ones. -/
theorem clearSetsEveryPixel : Obligations.ClearSetsEveryPixel := by
  intro s c hi hs hmisuse hp
  obtain ⟨t, ht, htf⟩ := exec_clear_panel hi hs c
  obtain ⟨hti, hts⟩ := htf.ready hs
  obtain ⟨u, hu, huf⟩ := exec_clear_panel hti hts c
  have htstores := htf.stores_fills ht hp
  have hpar : t.par = s.par := (exec_happens ht).par
  have hpt : t.par.Legal := by rwa [hpar]
  have hustores := huf.stores_fills hu hpt
  have huhist : u.hist = t.hist ++ fillsTxns s.par (panel s.par) c := hpar ▸ huf.hist
  refine ⟨t, u, fillsTxns s.par (panel s.par) c, ht, hu, htf.hist, huhist, fun x y hxy => ?once,
    fun v hv => ?inPanel, fun a => ?same, ?misuse, htstores.misuse.trans hmisuse, fun i hi => ?known,
    fun _ ha => htstores.readByte_beyond hp ha⟩
  case once =>
    refine List.count_eq_one_of_mem (fillsTxns_nodup hp _ c) ?_
    rw [← map_pixelOf_fillsPixels]
    exact List.mem_map_of_mem (f := pixelOf s.par) (a := (x, y, c))
      ((mem_fillsPixels hp).2 ⟨hxy, inRange_iff_covers.1 hxy, rfl⟩)
  case inPanel =>
    rw [← map_pixelOf_fillsPixels] at hv
    obtain ⟨q, hq, rfl⟩ := List.mem_map.1 hv
    obtain ⟨hin, _, hc⟩ := (mem_fillsPixels hp).1 hq
    exact ⟨q.1, q.2.1, by rw [pixelOf, hc], hin⟩
  case same =>
    rcases Nat.lt_or_ge a (2 * (s.par.W * s.par.H)) with ha | ha
    · have hi : a / 2 < s.par.W * s.par.H := by omega
      exact State.readByte_of_pixelBytes
        ((hustores.pixelBytes_clear hpt (hpar ▸ hi)).trans (htstores.pixelBytes_clear hp hi).symm) hustores.draw
    · exact hustores.readByte_beyond hpt (hpar ▸ ha)
  case misuse => rw [hustores.misuse, htstores.misuse, hmisuse]
  case known =>
    have hbytes := htstores.pixelBytes_clear hp hi
    obtain ⟨hlow, hhigh⟩ := Prod.mk.inj hbytes
    exact ⟨hlow, hhigh, State.readPixel_of_stored hbytes⟩

end Sys2Proof.Machine

/-! ### Proofs: how many transactions a drawing command emits -/

namespace Sys2Proof.Machine

/-- R94 (c): the points FILLA draws are among those of the intersection, in their order. -/
theorem map_point_fillaNumbers_sublist (p : Params) (r : Rect) (n : Nat) :
    ((fillaNumbers p r n).map (point r)).Sublist (boxPoints (isect p r)) := by
  rw [← filter_points_eq_boxPoints, List.filter_map]
  have hrange := List.range_sublist.2 (min_le_right n (r.w * r.h))
  refine ((hrange.filter _).trans (List.monotone_filter_right _ fun k hk => ?_)).map _
  exact (Bool.and_eq_true_iff.1 hk).2

theorem length_fillaTxns_le (p : Params) (r : Rect) (cs : List Color) :
    (fillaTxns p r cs).length ≤ cs.length ∧ (fillaTxns p r cs).length ≤ (boxPoints (isect p r)).length := by
  have hlen : (fillaTxns p r cs).length = (fillaNumbers p r cs.length).length := List.length_map _
  have hcolors : (fillaNumbers p r cs.length).length ≤ (List.range (min cs.length (r.w * r.h))).length :=
    List.length_filter_le _ _
  have hpoints := (map_point_fillaNumbers_sublist p r cs.length).length_le
  rw [List.length_range] at hcolors
  rw [List.length_map] at hpoints
  omega

/-- R113: as many transactions as the intersection has points. -/
theorem length_fillsTxns {p : Params} {r : Rect} (h : boxEmpty (isect p r) = false) (c : Color) :
    ((fillsTxns p r c).length : Int) =
      ((isect p r).x1 - (isect p r).x0) * ((isect p r).y1 - (isect p r).y0) := by
  obtain ⟨_, _, hcount, _⟩ := rowMajorPoints p r
  rw [fillsTxns, h, List.length_map, ← hcount h, filter_points_eq_boxPoints]
  rfl

/-- Settles O40: each command emits the transactions of its list, which are counted. -/
theorem transactionCounts : Obligations.TransactionCounts := by
  intro s hi hs hp
  refine ⟨fun pxs _ => ?drawpx, fun x0 y0 w h cs hlen => ?filla, fun x0 y0 w h c => ?fills, fun c => ?clear⟩
  case drawpx =>
    obtain ⟨t, ht, _, ⟨hhist, _⟩, _⟩ := exec_drawpx hi hs pxs
    exact ⟨t, _, ht, hhist, List.length_map _⟩
  case filla =>
    obtain ⟨t, ht, hfilled⟩ := exec_filla hi hs x0 y0 w h cs hlen
    obtain ⟨hcolors, hpoints⟩ := length_fillaTxns_le s.par (rectOf x0 y0 w h) cs
    have hpanel := hpoints.trans (length_boxPoints_isect_le s.par (rectOf x0 y0 w h))
    rw [length_boxPoints, Nat.mul_comm] at hpoints
    exact ⟨t, _, ht, hfilled.hist, le_min hcolors hpoints, hpanel⟩
  case fills =>
    obtain ⟨t, ht, hfilled⟩ := exec_fills hi hs x0 y0 w h c
    refine ⟨t, _, ht, hfilled.hist, ?_⟩
    split
    next he => rw [fillsTxns, if_pos he, List.map_nil]
    next he => exact length_fillsTxns (Bool.eq_false_iff.2 he) c
  case clear =>
    obtain ⟨t, ht, hfilled⟩ := exec_clear_panel hi hs c
    refine ⟨t, _, ht, hfilled.hist, ?_⟩
    rw [fillsTxns_panel, List.length_map, List.length_range]

end Sys2Proof.Machine

/-! ### Proofs: construction and the form of the history -/

namespace Sys2Proof.Machine

/-- R117: the form speaks of PHASE, the constants and the history only. -/
theorem Quiet.historyForm {s t : State} (h : Quiet s t) (hs : HistoryForm s) : HistoryForm t := by
  rwa [HistoryForm, h.phase, h.hist, h.par]

/-- R117: after construction nothing but pixel writes is added. -/
theorem Drawing.historyForm {s t : State} (h : Drawing s t) (hp : s.phase = .ready) (hs : HistoryForm s) :
    HistoryForm t := by
  obtain ⟨us, hus, htrace⟩ := h.trace
  simp only [HistoryForm, hp] at hs
  obtain ⟨f, b, ts, hhist, hts⟩ := hs
  simp only [HistoryForm, h.phase, hp, htrace.par]
  exact ⟨f, b, ts ++ us, by rw [htrace.hist, hhist, List.append_assoc], pixelWrites_append hts hus⟩

/-- R116: construction starts from an empty history, so its four transactions are the whole of it. -/
theorem Trace.historyForm_of_construction {s t : State} {f : Word} {b : BitVec 1}
    (h : Trace s t (initTxns s.par f b)) (hu : s.phase = .unconstructed) (hr : t.phase = .ready)
    (hs : HistoryForm s) : HistoryForm t := by
  simp only [HistoryForm, hu] at hs
  simp only [HistoryForm, hr, h.par]
  exact ⟨f, b, [], by rw [h.hist, hs, List.nil_append, List.append_nil], pixelWrites_nil _⟩

/-- Settles O47: a step adds nothing, adds pixel writes in READY, where a command that holds in its stream is too, or
constructs. -/
theorem stepKeepsHistoryForm : Obligations.StepKeepsHistoryForm := by
  intro s t hs hhold hstep
  rcases step_happens hstep with hq | ⟨hready, hd⟩ | ⟨hu, hr, f, b, htrace⟩
  · exact hq.historyForm hs
  · have hp : s.phase = .ready := hready.elim id fun ⟨hb, hst⟩ => (hhold.inStream hb hst).phase
    exact hd.historyForm hp hs
  · exact htrace.historyForm_of_construction hu hr hs

/-- R116, R122 to R125: `s` after the four construction transactions. -/
def constructed (f : Word) (b : BitVec 1) (s : State) : State :=
  { s with ctl := ⟨true, true, true, true⟩, hist := s.hist ++ initTxns s.par f b }

/-- R116, R122 to R125: each construction transaction sets what the next one needs, so the handle accepts all four as
soon as it accepts the first. -/
theorem ctlAll_initTxns {s : State} (h : s.ctl.inited = false) (f : Word) (b : BitVec 1) :
    ctlAll (initTxns s.par f b) s = .next (constructed f b s) := by
  simp [initTxns, ctlAll, ctl, handleAccepts, handlePerforms, record, constructed, h]

/-- R74, R116: INIT with a `CLKM` word whose reserved bits are 0, at a handle that is not initialised. -/
theorem initBody_setWidth {s : State} (h : s.ctl.inited = false) (f : Word) (b : BitVec 1) :
    initBody f (b.setWidth 32) s =
      .next (complete .init [] (setReady (constructed f b (loadClkm b (loadClkf f s))))) := by
  have hctl := ctlAll_initTxns (s := loadClkm b (loadClkf f s)) h f b
  simp only [loadClkm_par, loadClkf_par] at hctl
  rw [initBody, clkmOf_eq_some.2 rfl]
  simp only [hctl, andThen_next]

/-- Settles O41: INIT takes its words, constructs, sets READY and answers, and touches no byte. -/
theorem initCompletes : Obligations.InitCompletes := by
  intro s f b hi hp hc
  have hphase : phaseOk .init s.phase = true := by rw [hp]; rfl
  have hbody := initBody_setWidth (s := takeHeader Opcode.init.code s) hc f b
  exact ⟨_, (exec_run (.init f (b.setWidth 32)) hi hphase).trans hbody,
    ⟨rfl, rfl, rfl, rfl, rfl, hi.1, rfl, rfl, rfl⟩, rfl, rfl, rfl, rfl, rfl, rfl, fun _ => rfl⟩

end Sys2Proof.Machine

/-! ### Proofs: every step answers -/

namespace Sys2Proof.Machine

/-- A meaning that answers a next state. -/
def Proceeds (o : Out) : Prop := ∃ t, o = .next t

theorem proceeds_next (s : State) : Proceeds (.next s) := ⟨s, rfl⟩

theorem Proceeds.andThen {o : Out} {f : State → Out} (h : Proceeds o) (hf : ∀ s, Proceeds (f s)) :
    Proceeds (andThen o f) := by
  obtain ⟨s, rfl⟩ := h
  exact hf s

/-- R74: a malformed colour word stops the command, which is a next state too. -/
theorem takeColor_proceeds {cw : Word} {ws : List Word} {use : Color → State → Out} {s : State}
    (h : ∀ c, Proceeds (use c (loadColor c s))) : Proceeds (takeColor cw ws use s) := by
  rcases colorWord_or_bad cw with ⟨c, rfl⟩ | hbad
  · rw [takeColor_colorWord]
    exact h c
  · rw [takeColor_bad hbad]
    exact proceeds_next _

/-! ### The loops and the ends of the commands -/

theorem endStream_proceeds (o : Opcode) (s : State) : Proceeds (endStream o s) := by
  unfold endStream
  split <;> exact proceeds_next _

theorem endOrHold_proceeds (o : Opcode) (s : State) : Proceeds (endOrHold o s) := by
  unfold endOrHold
  split
  · exact proceeds_next _
  · split <;> exact proceeds_next _

section

variable {s : State} (hs : s.ctl.session = true)
include hs

theorem drawElems_proceeds (es : List Elem) : Proceeds (drawElems es s) := by
  rcases drawElems_cases es s with ⟨_, _, _, h⟩ | ⟨_, _, _, _, _, _, h⟩ | ⟨hn, _⟩
  · exact ⟨_, h⟩
  · exact ⟨_, h⟩
  · simp [hs] at hn

theorem fillaColors_proceeds (ws : List Word) : Proceeds (fillaColors ws s) := by
  rcases fillaColors_cases ws s with ⟨_, _, h⟩ | ⟨_, _, _, _, _, h⟩ | ⟨hn, _⟩
  · exact ⟨_, h⟩
  · exact ⟨_, h⟩
  · simp [hs] at hn

theorem fillBox_proceeds (c : Color) : Proceeds (fillBox c s) := ⟨_, emitAll_eq_next hs _ c⟩

theorem streamDrawpx_proceeds (ws : List Word) : Proceeds (streamDrawpx ws s) :=
  (drawElems_proceeds (s := setCmdq (splitElems ws _).2 s) hs _).andThen (endOrHold_proceeds .drawpx)

theorem streamFilla_proceeds (ws : List Word) : Proceeds (streamFilla ws s) :=
  (fillaColors_proceeds (s := setCmdq (ws.drop _) s) hs _).andThen (endOrHold_proceeds .filla)

end

/-! ### The commands -/

theorem HandleMatchesPhase.session {s : State} (h : HandleMatchesPhase s) (hp : s.phase = .ready) :
    s.ctl.session = true := by
  simp only [HandleMatchesPhase, hp] at h
  rw [h]
  rfl

theorem HandleMatchesPhase.not_inited {s : State} (h : HandleMatchesPhase s) (hp : s.phase = .unconstructed) :
    s.ctl.inited = false := by
  simp only [HandleMatchesPhase, hp] at h
  rw [h]

/-- R116: the handle of an UNCONSTRUCTED machine is untouched, so it accepts the construction transactions. -/
theorem initBody_proceeds {s : State} (h : s.ctl.inited = false) (f m : Word) : Proceeds (initBody f m s) := by
  cases hm : clkmOf m with
  | none =>
    simp only [initBody, hm]
    exact proceeds_next _
  | some b =>
    rw [clkmOf_eq_some.1 hm]
    exact ⟨_, initBody_setWidth h f b⟩

/-- R127: the phase a command is allowed in is the one whose handle accepts its transactions. -/
theorem body_proceeds {i : Instr} {s : State} (hm : HandleMatchesPhase s) (hp : phaseOk i.opcode s.phase = true) :
    Proceeds (body i s) := by
  have hsession (ho : i.opcode ∈ [Opcode.drawpx, .filla, .fills, .clear]) : s.ctl.session = true :=
    hm.session (phaseOk_drawing hp ho)
  cases i with
  | init f m =>
    have hphase : s.phase = .unconstructed := beq_iff_eq.1 hp
    exact initBody_proceeds (hm.not_inited hphase) f m
  | getcfg => exact proceeds_next _
  | bbox => exact proceeds_next _
  | pack c =>
    simp only [body, packBody]
    exact takeColor_proceeds fun _ => proceeds_next _
  | isect x0 y0 w h => exact proceeds_next _
  | drawpx es =>
    have hs := hsession (by simp [Instr.opcode])
    exact (drawElems_proceeds (s := loadCount _ s) hs es).andThen (endStream_proceeds .drawpx)
  | filla x0 y0 w h cs =>
    have hs := hsession (by simp [Instr.opcode])
    exact (fillaColors_proceeds (s := fillaStart x0 y0 w h _ s) hs cs).andThen (endStream_proceeds .filla)
  | fills x0 y0 w h c =>
    have hs := hsession (by simp [Instr.opcode])
    simp only [body, fillsBody]
    exact takeColor_proceeds fun c =>
      (fillBox_proceeds (s := clip (loadColor c (loadRect x0 y0 w h s))) hs c).andThen fun _ => proceeds_next _
  | clear c =>
    have hs := hsession (by simp [Instr.opcode])
    simp only [body, clearBody]
    exact takeColor_proceeds fun c =>
      (fillBox_proceeds (s := clip (loadRect 0 0 _ _ (loadColor c s))) hs c).andThen fun _ => proceeds_next _

theorem exec_proceeds {s : State} (hm : HandleMatchesPhase s) (i : Instr) : Proceeds (exec i s) := by
  rw [exec_eq_command]
  rcases command_cases i (body i) s with ⟨_, h⟩ | ⟨_, hp, h⟩ | ⟨_, _, h⟩ <;> rw [h]
  · exact proceeds_next _
  · exact body_proceeds (s := takeHeader i.opcode.code s) hm hp
  · exact proceeds_next _

/-! ### Packets that arrive in parts, and the step -/

theorem startIncomplete_proceeds {s : State} (hm : HandleMatchesPhase s) (o : Opcode) (ws : List Word) :
    Proceeds (startIncomplete o ws s) := by
  unfold startIncomplete
  simp only
  split
  next hp =>
    split
    · exact streamDrawpx_proceeds (s := loadCount _ (takeHeader Opcode.drawpx.code s))
        (hm.session (phaseOk_drawing hp (by simp))) _
    · exact streamFilla_proceeds (s := fillaStart _ _ _ _ _ (takeHeader Opcode.filla.code s))
        (hm.session (phaseOk_drawing hp (by simp))) _
    · exact proceeds_next _
  next => exact proceeds_next _

theorem fetchCommand_proceeds {s : State} (hm : HandleMatchesPhase s) : Proceeds (fetchCommand s) := by
  rcases fetch_cases s with ⟨_, h⟩ | ⟨_, _, _, _, h⟩ | ⟨_, _, _, _, _, _, h⟩ | ⟨_, _, i, rest, _, _, _, h⟩ |
    ⟨o, ws, _, _, h⟩ <;> rw [h]
  · exact proceeds_next _
  · exact proceeds_next _
  · exact proceeds_next _
  · exact exec_proceeds (s := setCmdq rest s) hm i
  · exact startIncomplete_proceeds (s := setCmdq [] s) hm o ws

theorem resumeStream_proceeds {s : State} (hs : s.ctl.session = true) : Proceeds (resumeStream s) := by
  unfold resumeStream
  split
  · exact streamDrawpx_proceeds (s := clearPart s) hs _
  · exact streamFilla_proceeds (s := clearPart s) hs _
  · exact proceeds_next _

/-- Settles O54: a command fetched runs in a phase whose handle accepts it, and one that holds in its stream holds in
READY. -/
theorem stepAlwaysAnswers : Obligations.StepAlwaysAnswers := by
  intro s hm hhold
  rcases step_cases s with ⟨_, h⟩ | ⟨_, h⟩ | ⟨_, _, _, h⟩ | ⟨_, hb, hst, h⟩ <;> rw [h]
  · exact proceeds_next s
  · exact fetchCommand_proceeds hm
  · exact fetchCommand_proceeds (s := giveBack s) hm
  · exact resumeStream_proceeds (hm.session (hhold.inStream hb hst).phase)

end Sys2Proof.Machine

/-! ### Proofs: one transaction at the controller handle -/

namespace Sys2Proof.Machine

theorem Ctl.session_iff {c : Ctl} : c.session = true ↔ c = ⟨true, true, true, true⟩ := by
  obtain ⟨a, b, d, e⟩ := c
  simp [Ctl.session, and_assoc]

/-- R129: a transaction stops the model in one case only. -/
theorem ctl_eq_fault_iff {u : Txn} {s : State} : ctl u s = .fault .handleOrder ↔ handleAccepts u s = false := by
  rcases ctl_cases u s with ⟨ha, h⟩ | ⟨ha, h⟩ <;> simp [ha, h]

/-- Settles O43: the stop is a failing `handleAccepts`, which is the precondition of each transaction. -/
theorem handleRefusesOutOfOrder : Obligations.HandleRefusesOutOfOrder := by
  intro s
  simp only [ctl_eq_fault_iff]
  refine ⟨fun _ _ _ => ?ctlInit, fun _ _ _ => Iff.rfl, fun _ => Iff.rfl, Iff.rfl, fun l x y d => ?writePixel⟩
  case ctlInit => simp [handleAccepts]
  case writePixel =>
    rw [← Bool.not_eq_true, not_iff_not, ← Ctl.session_iff]
    simp [handleAccepts]

/-- R126: `s` with the value of pixel `i` stored in the framebuffer. -/
def storePixel (i : Nat) (d : Pixel) (s : State) : State := { s with mem := Memory.writePixel s.mem i d }

@[simp] theorem storePixel_par (i : Nat) (d : Pixel) (s : State) : (storePixel i d s).par = s.par := rfl

/-- R126: an in-range WRITE_PIXEL enters the history and stores its pixel. -/
theorem ctl_writePixel {s : State} {x y : Word} (hs : s.ctl.session = true) (hr : inRange s.par x y = true)
    (d : Pixel) :
    ctl (.writePixel s.par.layerId x y d) s =
      .next (storePixel (pixelIndex s.par x y) d (record (.writePixel s.par.layerId x y d) s)) := by
  rw [ctl_eq_next (by simp [handleAccepts, hs])]
  exact congrArg Host.Outcome.next (fbWrite_inRange (s := record _ s) hr d)

/-- R40, R44: the low byte stands first. -/
theorem readByte_storePixel_low (i : Nat) (d : Pixel) (s : State) :
    (storePixel i d s).readByte (2 * i) = d.extractLsb' 0 8 := by
  simp [storePixel, State.readByte, Memory.read_writePixel]

theorem readByte_storePixel_high (i : Nat) (d : Pixel) (s : State) :
    (storePixel i d s).readByte (2 * i + 1) = d.extractLsb' 8 8 := by
  simp [storePixel, State.readByte, Memory.read_writePixel]

theorem readByte_storePixel_ne {i a : Nat} (hlow : a ≠ 2 * i) (hhigh : a ≠ 2 * i + 1) (d : Pixel) (s : State) :
    (storePixel i d s).readByte a = s.readByte a := by
  simp [storePixel, State.readByte, Memory.read_writePixel, hlow, hhigh]

/-- R39, R56: the controller's address space has the framebuffer's bytes from `FB_BASE` on. -/
theorem State.busByte_fbBase_add {s : State} {k : Nat} (hk : k < 2 * pixelCount s.par) :
    s.busByte (s.par.fbBase.toNat + k) = some (s.readByte k) := by
  rw [State.busByte, if_pos (by omega), Nat.add_sub_cancel_left]

theorem State.busByte_congr {s t : State} {a : Nat} (hp : t.par = s.par)
    (h : s.par.fbBase.toNat ≤ a → t.readByte (a - s.par.fbBase.toNat) = s.readByte (a - s.par.fbBase.toNat)) :
    t.busByte a = s.busByte a := by
  simp only [State.busByte, hp]
  split
  next ha => rw [h ha.1]
  next => rfl

/-- Settles O42: the bytes of the stored pixel are read back at their offsets, and from there at their addresses. -/
theorem writePixelContract : Obligations.WritePixelContract := by
  intro s x y d hctl hx0 hx hy0 hy
  have hr : inRange s.par x y = true := (inRange_iff _ _ _).2 ⟨hx0, hx, hy0, hy⟩
  have hi := pixelIndex_lt_pixelCount hr
  refine ⟨_, ctl_writePixel (Ctl.session_iff.2 hctl) hr d, readByte_storePixel_low _ d _,
    readByte_storePixel_high _ d _, fun a hlow hhigh => readByte_storePixel_ne hlow hhigh d _, rfl, ?busLow, ?busHigh,
    ?busOthers, scanRead_writePixel_same (s := record _ s) hi d, rfl, rfl⟩
  case busLow =>
    rw [pixelAddr, ← readByte_storePixel_low (pixelIndex s.par x y) d (record _ s)]
    exact State.busByte_fbBase_add (by simp only [storePixel_par, record_par]; omega)
  case busHigh =>
    rw [pixelAddr, Nat.add_assoc, ← readByte_storePixel_high (pixelIndex s.par x y) d (record _ s)]
    exact State.busByte_fbBase_add (by simp only [storePixel_par, record_par]; omega)
  case busOthers =>
    intro a hlow hhigh
    rw [pixelAddr] at hlow hhigh
    exact State.busByte_congr rfl fun _ => readByte_storePixel_ne (by omega) (by omega) d _

end Sys2Proof.Machine

/-! ### Proofs: a host that keeps the contract -/

namespace Sys2Proof.Machine

/-- R72, R138: `i` ends in `s` with one response of its own opcode, and no misuse is recorded. -/
abbrev Succeeds (i : Instr) (s : State) : Prop :=
  ∃ t payload, exec i s = .next t ∧ Answers (response i.opcode payload) s t ∧ t.misuse = s.misuse

/-- R34, R72: a command that draws nothing succeeds with whatever it answers. -/
theorem OnlyLatches.succeeds {i : Instr} {s v : State} (h : OnlyLatches s v) (hi : Idle s) {ws : List Word}
    (hrun : exec i s = .next (complete i.opcode ws v)) : Succeeds i s := by
  obtain ⟨hanswers, ⟨_, _, hmisuse, _⟩, _⟩ := h.completes hi.1 i.opcode ws
  exact ⟨_, ws, hrun, hanswers, hmisuse⟩

/-- R74: the colour words of a kept contract are those of colours. -/
theorem exists_colorWord {cw : Word} (h : (colorOf cw).isSome = true) : ∃ c, cw = colorWord c := by
  obtain ⟨c, hc⟩ := Option.isSome_iff_exists.1 h
  exact ⟨c, colorOf_eq_some.1 hc⟩

theorem exists_map_colorWord {ws : List Word} (h : ∀ w ∈ ws, (colorOf w).isSome = true) :
    ∃ cs : List Color, ws = cs.map colorWord := by
  rcases colors_cases ws with hcs | ⟨cs, w, vs, rfl, hbad⟩
  · exact hcs
  · simpa [hbad] using h w (by simp)

theorem exists_map_elemOf {es : List Elem} (h : ∀ e ∈ es, (colorOf e.c).isSome = true) :
    ∃ pxs : List PixelWrite, es = pxs.map elemOf := by
  rcases elems_cases es with hpxs | ⟨pxs, e, fs, rfl, hbad⟩
  · exact hpxs
  · simpa [hbad] using h e (by simp)

/-- R72: INIT's response has no payload. -/
theorem response_init : response .init [] = [0x01000000] := by decide

/-- R116: INIT succeeds at an untouched handle. -/
theorem init_succeeds {s : State} (hi : Idle s) (hp : s.phase = .unconstructed) (hc : s.ctl.inited = false) (f : Word)
    (b : BitVec 1) : Succeeds (.init f (b.setWidth 32)) s := by
  obtain ⟨t, ht, hanswers, _, _, _, _, hmisuse, _⟩ := initCompletes s f b hi hp hc
  rw [← response_init] at hanswers
  exact ⟨t, [], ht, hanswers, hmisuse⟩

/-- R100, R138: DRAWPX succeeds with pixels in range. -/
theorem drawpx_succeeds {s : State} (hi : Idle s) (hs : Session s) {pxs : List PixelWrite}
    (hr : ∀ q ∈ pxs, inRange s.par q.1 q.2.1 = true) : Succeeds (.drawpx (pxs.map elemOf)) s := by
  obtain ⟨t, ht, hanswers, ⟨hhist, _⟩, _⟩ := exec_drawpx hi hs pxs
  exact ⟨t, [], ht, hanswers, ((exec_trace ht hhist).stores hr).misuse⟩

/-- R9, R114: what a fill emits is in range, whatever its rectangle is. -/
theorem filla_succeeds {s : State} (hi : Idle s) (hs : Session s) (hl : s.par.Legal) (x0 y0 w h : Word)
    {cs : List Color} (hlen : cs.length < 2 ^ 32) : Succeeds (.filla x0 y0 w h (cs.map colorWord)) s := by
  obtain ⟨t, ht, hfilled⟩ := exec_filla hi hs x0 y0 w h cs hlen
  exact ⟨t, [], ht, hfilled.answers, (hfilled.stores ht hl).misuse⟩

theorem fills_succeeds {s : State} (hi : Idle s) (hs : Session s) (hl : s.par.Legal) (x0 y0 w h : Word) (c : Color) :
    Succeeds (.fills x0 y0 w h (colorWord c)) s := by
  obtain ⟨t, ht, hfilled⟩ := exec_fills hi hs x0 y0 w h c
  exact ⟨t, [], ht, hfilled.answers, (hfilled.stores_fills ht hl).misuse⟩

theorem clear_succeeds {s : State} (hi : Idle s) (hs : Session s) (hl : s.par.Legal) (c : Color) :
    Succeeds (.clear (colorWord c)) s := by
  obtain ⟨t, ht, hfilled⟩ := exec_clear hi hs c
  exact ⟨t, [], ht, hfilled.answers, (hfilled.stores_fills ht hl).misuse⟩

/-- R114, R146: the contract gives each command legal colour and mode words and pixels in range, and its phase gives it
the handle it needs. -/
theorem exec_succeeds {i : Instr} {s : State} (hi : Idle s) (hm : HandleMatchesPhase s)
    (hp : phaseOk i.opcode s.phase = true) (hw : i.wellFormed = true) (hk : keepsContract s.par i = true)
    (hl : s.par.Legal) : Succeeds i s := by
  have hsession (ho : i.opcode ∈ [Opcode.drawpx, .filla, .fills, .clear]) : Session s :=
    ⟨phaseOk_drawing hp ho, hm.session (phaseOk_drawing hp ho)⟩
  cases i with
  | init f m =>
    obtain ⟨b, hb⟩ := Option.isSome_iff_exists.1 hk
    have hphase : s.phase = .unconstructed := beq_iff_eq.1 hp
    rw [clkmOf_eq_some.1 hb]
    exact init_succeeds hi hphase (hm.not_inited hphase) f b
  | getcfg =>
    have hv : OnlyLatches s (takeHeader Opcode.getcfg.code s) := rfl
    exact hv.succeeds hi (exec_run .getcfg hi hp)
  | bbox =>
    have hv : OnlyLatches s (takeHeader Opcode.bbox.code s) := rfl
    exact hv.succeeds hi (exec_run .bbox hi hp)
  | pack cw =>
    obtain ⟨c, rfl⟩ := exists_colorWord hk
    have hv : OnlyLatches s (loadColor c (takeHeader Opcode.pack.code s)) := rfl
    exact hv.succeeds hi (exec_pack hi c)
  | isect x0 y0 w h =>
    have hv : OnlyLatches s (clip (loadRect x0 y0 w h (takeHeader Opcode.isect.code s))) := rfl
    exact hv.succeeds hi (exec_isect hi x0 y0 w h)
  | drawpx es =>
    simp only [keepsContract, List.all_eq_true, Bool.and_eq_true] at hk
    obtain ⟨pxs, rfl⟩ := exists_map_elemOf fun e he => (hk e he).1
    exact drawpx_succeeds hi (hsession (by simp [Instr.opcode])) fun q hq => (hk _ (List.mem_map_of_mem hq)).2
  | filla x0 y0 w h ws =>
    obtain ⟨cs, rfl⟩ := exists_map_colorWord (List.all_eq_true.1 hk)
    have hlen : cs.length < 2 ^ 32 := by simpa [Instr.wellFormed, countFits] using hw
    exact filla_succeeds hi (hsession (by simp [Instr.opcode])) hl x0 y0 w h hlen
  | fills x0 y0 w h cw =>
    obtain ⟨c, rfl⟩ := exists_colorWord hk
    exact fills_succeeds hi (hsession (by simp [Instr.opcode])) hl x0 y0 w h c
  | clear cw =>
    obtain ⟨c, rfl⟩ := exists_colorWord hk
    exact clear_succeeds hi (hsession (by simp [Instr.opcode])) hl c

/-- Settles O55: under the contract every command succeeds, which is to answer and to take its packet's words only. -/
theorem commandsNeverFail : Obligations.CommandsNeverFail := by
  intro i s hi hm hp hw hk hl
  obtain ⟨t, payload, ht, hanswers, hmisuse⟩ := exec_succeeds hi hm hp hw hk hl
  obtain ⟨hrspq, hresps, hbusy, _, _, hfault, _, hcmdq, _⟩ := hanswers
  exact ⟨t, payload, ht, hfault, hbusy, hmisuse, hcmdq, hrspq, hresps⟩

end Sys2Proof.Machine

/-! ### Proofs: faults of the phase and in a stream, and standing in FAULT -/

namespace Sys2Proof.Machine

/-! ### The wrong phase -/

/-- R134: which commands have a wrong phase, and which it is. -/
theorem phaseOk_eq_false_iff {o : Opcode} {p : Phase} :
    phaseOk o p = false ↔
      (p = .unconstructed ∧ o ∈ [.bbox, .drawpx, .filla, .fills, .clear]) ∨ (p = .ready ∧ o = .init) := by
  cases p <;> cases o <;> decide

/-- Settles O10: the phase is checked when the header has been taken, and no operand word is read before. -/
theorem wrongPhaseOutranksOperands : Obligations.WrongPhaseOutranksOperands := by
  intro i s hi hphase
  have hv : OnlyTakes s (takeHeader i.opcode.code s) := rfl
  exact ⟨_, exec_wrong_phase i hi (phaseOk_eq_false_iff.2 hphase), hv.raiseFault codeProtocol i.operandWords⟩

/-- R134: GETCFG, PACK and ISECT run in every phase, and only a malformed colour stops one of them. -/
theorem exec_anyPhase {i : Instr} {s : State} (hi : Idle s) (ho : i.opcode ∈ [Opcode.getcfg, .pack, .isect]) :
    ∃ t, exec i s = .next t ∧ (t.fault = true → t.faultCode ≠ codeProtocol) := by
  cases i with
  | getcfg => exact ⟨_, exec_run .getcfg hi rfl, by simp [hi.1]⟩
  | isect x0 y0 w h => exact ⟨_, exec_isect hi x0 y0 w h, by simp [hi.1]⟩
  | pack cw =>
    rcases colorWord_or_bad cw with ⟨c, rfl⟩ | hbad
    · exact ⟨_, exec_pack hi c, by simp [hi.1]⟩
    · have hbody : packBody cw (takeHeader Opcode.pack.code s) =
          .next (raiseFault codeReservedNonzero [] (takeHeader Opcode.pack.code s)) := takeColor_bad hbad _ _ _
      exact ⟨_, (exec_run (.pack cw) hi rfl).trans hbody, fun _ => by simp [codeReservedNonzero, codeProtocol]⟩
  | _ => simp [Instr.opcode] at ho

/-- R134, R158: in every phase, one of these three that has not all arrived is a hold. -/
theorem startIncomplete_anyPhase {o : Opcode} (ho : o ∈ [Opcode.getcfg, .pack, .isect]) (ws : List Word) (s : State) :
    startIncomplete o ws s =
      .next (hold false (headerWord o :: ws) (loadArrived o ws (takeHeader o.code s))) := by
  simp only [List.mem_cons, List.not_mem_nil, or_false] at ho
  rcases ho with rfl | rfl | rfl <;> rfl

theorem fetch_anyPhase {s : State} {o : Opcode} {ws : List Word} (hi : Idle s) (hc : s.cmdq = headerWord o :: ws)
    (ho : o ∈ [Opcode.getcfg, .pack, .isect]) :
    ∃ t, fetchCommand s = .next t ∧ (t.fault = true → t.faultCode ≠ codeProtocol) := by
  rcases decodeOperands_cases o ws with ⟨i, rest, hd, rfl⟩ | hd
  · rw [fetch_instr (by rw [hc, decode_header, hd])]
    exact exec_anyPhase (s := setCmdq rest s) hi ho
  · rw [fetch_incomplete (by rw [hc, decode_header, hd]), startIncomplete_anyPhase ho]
    have hfault := (loadArrived_fault o ws (takeHeader o.code (setCmdq [] s))).1
    exact ⟨_, rfl, by simp [hfault, hi.1]⟩

/-- Settles O9: the header decides, in `fetch_wrong_phase` and in `fetch_anyPhase`. -/
theorem wrongPhaseStopsOnHeader : Obligations.WrongPhaseStopsOnHeader := by
  refine ⟨fun s h ws hi hc hphase => ?wrong, fun s h ws hi hc hh => ?any⟩
  case wrong =>
    have hheader : ∃ o, headerWord o = h ∧ phaseOk o s.phase = false := by
      rcases hphase with ⟨hp, hh⟩ | ⟨hp, rfl⟩
      · have hmem : h ∈ [Opcode.bbox, .drawpx, .filla, .fills, .clear].map headerWord := hh
        obtain ⟨o, ho, rfl⟩ := List.mem_map.1 hmem
        exact ⟨o, rfl, phaseOk_eq_false_iff.2 (.inl ⟨hp, ho⟩)⟩
      · exact ⟨.init, rfl, phaseOk_eq_false_iff.2 (.inr ⟨hp, rfl⟩)⟩
    obtain ⟨o, rfl, hp⟩ := hheader
    exact ⟨_, (step_idle hi).trans (fetch_wrong_phase hi hc hp), raiseFault_on_header _ ws _ s⟩
  case any =>
    have hmem : h ∈ [Opcode.getcfg, .pack, .isect].map headerWord := hh
    obtain ⟨o, ho, rfl⟩ := List.mem_map.1 hmem
    rw [step_idle hi]
    exact fetch_anyPhase hi hc ho

/-! ### A malformed colour word in a stream -/

theorem drawElems_bad {e : Elem} (h : colorOf e.c = none) (es : List Elem) (s : State) :
    drawElems (e :: es) s = .next (raiseFault codeReservedNonzero (elemWords es) s) := by
  simp [drawElems, takeColor_bad h]

section

variable {s : State} (hs : s.ctl.session = true)
include hs

/-- R137: DRAWPX ends at its first malformed element, with those before it drawn. -/
theorem drawpxBody_bad {bad : Elem} (hbad : colorOf bad.c = none) (pxs : List PixelWrite) (es : List Elem) :
    drawpxBody (pxs.map elemOf ++ bad :: es) s =
      .next (raiseFault codeReservedNonzero (elemWords es)
        (drawn pxs (loadCount (countWord (pxs.map elemOf ++ bad :: es).length) s))) := by
  rw [drawpxBody, drawElems_good (s := loadCount _ s) hs, drawElems_bad hbad]
  rfl

/-- R137: FILLA ends at its first malformed colour word, with those before it used. -/
theorem fillaBody_bad {bad : Word} (hbad : colorOf bad = none) (x0 y0 w h : Word) (cs : List Color) (ws : List Word) :
    fillaBody x0 y0 w h (cs.map colorWord ++ bad :: ws) s =
      .next (raiseFault codeReservedNonzero ws
        (fillaDrawn cs (fillaStart x0 y0 w h (countWord (cs.map colorWord ++ bad :: ws).length) s))) := by
  rw [fillaBody, fillaColors_good (s := fillaStart x0 y0 w h _ s) hs, fillaColors_bad hbad]
  rfl

end

/-- R131, R137: a fault in the middle of a drawing leaves what was drawn, and the words not taken. -/
theorem OnlyLatches.raiseFault {s v u : State} {ts : List Txn} (h : OnlyLatches s v) (hd : OnlyDraws v u)
    (hp : Performs ts v u) (code : BitVec 4) (ws : List Word) :
    Stops code (ws ++ s.cmdq) s (raiseFault code ws u) ∧ Performs ts s (raiseFault code ws u) ∧
      (raiseFault code ws u).empty = v.empty := by
  rw [← h] at hd hp
  refine ⟨?_, hp, hd.empty⟩
  simp [Stops, hd.rspq, hd.resps, hd.cmdq, hd.phase, hd.ctl, hd.par]

/-- Settles O12: the loop draws the elements before the malformed one, and the fault leaves the words behind it. -/
theorem streamFaultIsPrecise : Obligations.StreamFaultIsPrecise := by
  refine ⟨fun s pxs bad es hi hs hbad => ?drawpx, fun s x0 y0 w h cs bad ws hi hs hbad hlen => ?filla⟩
  case drawpx =>
    have hrun := exec_run (.drawpx (pxs.map elemOf ++ bad :: es)) hi (by simp [Instr.opcode, phaseOk, hs.1])
    have hbody := drawpxBody_bad (s := takeHeader Opcode.drawpx.code s) hs.2 (colorOf_eq_none.2 hbad) pxs es
    exact ⟨_, hrun.trans hbody, OnlyLatches.raiseFault (v := loadCount _ (takeHeader Opcode.drawpx.code s)) rfl
      (drawn_onlyDraws pxs _) (drawn_performs pxs _) _ _⟩
  case filla =>
    have hrun := exec_run (.filla x0 y0 w h (cs.map colorWord ++ bad :: ws)) hi (by simp [Instr.opcode, phaseOk, hs.1])
    have hbody := fillaBody_bad (s := takeHeader Opcode.filla.code s) hs.2 (colorOf_eq_none.2 hbad) x0 y0 w h cs ws
    have hclip := fillaStart_clipped x0 y0 w h (countWord (cs.map colorWord ++ bad :: ws).length)
      (takeHeader Opcode.filla.code s)
    exact ⟨_, hrun.trans hbody,
      OnlyLatches.raiseFault (v := fillaStart x0 y0 w h _ (takeHeader Opcode.filla.code s)) rfl
        (fillaDrawn_onlyDraws cs _) (fillaDrawn_performs hclip rfl cs (by omega)) _ _⟩

/-! ### Standing in FAULT -/

/-- Settles O13: a step in FAULT changes nothing, and sending words does not clear it. -/
theorem faultIsTerminal : Obligations.FaultIsTerminal := by
  intro s ws n hf
  refine ⟨?_, rfl, rfl⟩
  induction n with
  | zero => rfl
  | succ n ih =>
    have hstep : core.step (hostSend ws s) = .next (hostSend ws s) := step_fault (s := hostSend ws s) hf
    simp only [Host.Core.run, hstep, ih]

end Sys2Proof.Machine
